-- ==== Sys2Proof/Word.lean ====
section
/-! DEFINITION. The word types of the command interface (30_encoding.md R80) and bit strings (00_scope.md R13). -/

namespace Sys2Proof

/-- A command word, a read-port word: 32 bits (20_memory.md R67, R70). -/
abbrev Word := BitVec 32

/-- A symbol code, the `SYM` field: 8 bits (00_scope.md R8; 30_encoding.md R80). -/
abbrev Symbol := BitVec 8

/-- The `IMM` field: 16 bits (30_encoding.md R80). -/
abbrev Imm := BitVec 16

/-- A bit string in emission order, the first emitted bit first (00_scope.md R13). -/
abbrev BitString := List Bool

end Sys2Proof
end

