-- ==== Sys2Proof/Config.lean ====
section
/-! DEFINITION. The implementation parameters of 00_scope.md R8, the constants of 10_state.md R43 and R44, and the
values the spec leaves open, as constants without a body. -/

namespace Sys2Proof.Config

/-- `W_MIN` (00_scope.md R8): the least legal precision window. -/
abbrev wMin : Nat := 2

/-- `W_MAX` (00_scope.md R8): the greatest legal precision window. -/
abbrev wMax : Nat := 16

/-- `W` after reset (10_state.md R24). -/
abbrev wReset : Nat := 8

/-- `NSYMS` (00_scope.md R8): the number of symbol codes. -/
abbrev nSyms : Nat := 256

/-- `CNT_MAX` (00_scope.md R8): the greatest value of `TOTAL`. -/
abbrev cntMax : Nat := 65535

/-- `NSYM_MAX` (00_scope.md R8): the most symbols in one session. -/
abbrev nsymMax : Nat := 65535

/-- `BUF_BITS` (00_scope.md R8): the capacity of the bit buffer in bits. -/
abbrev bufBits : Nat := 65536

/-- The constant `ID` (10_state.md R43). -/
def idWord : Word := 0x41430001#32

/-- The constant `PARAMS` (10_state.md R44). -/
def paramsWord : Word := 0x00101002#32

/-- `CMD_LATENCY` (00_scope.md R8, `OPEN`): the clock edges from the one that accepts a command, given by its number and
the command word, to the one that completes it. Any finite number, 0 among them, free to differ between executions. Free
value, log entry 3. -/
opaque cmdLatency : Nat → Word → Nat

/-- `rd_data` at a given edge and address while it is unspecified (20_memory.md R72). Free value, log entry 4. -/
opaque unspecifiedRead : Nat → BitVec 12 → Word

end Sys2Proof.Config
end

