-- ==== Sys2Proof/Syntax.lean ====
section
/-! DEFINITION. The commands of ACC-CMD version 1 as syntax: one constructor per row of spec/opcode_table.json
(30_encoding.md R83), and the four formats (R81). -/

namespace Sys2Proof

/-- The formats of 30_encoding.md R81: which of the fields `SYM` and `IMM` a command uses. -/
inductive Format where
  /-- `OPC` alone. -/
  | f0
  /-- `OPC` and `SYM`. -/
  | fs
  /-- `OPC` and `IMM`. -/
  | fi
  /-- `OPC`, `SYM` and `IMM`. -/
  | fsi
deriving DecidableEq, Repr

/-- The eighteen commands with their operands as the fields hold them (30_encoding.md R82, R83). -/
inductive Instr where
  /-- `NOP` (46_control.md R210). -/
  | nop
  /-- `RESET` (46_control.md R211). -/
  | reset
  /-- `CLRERR` (46_control.md R212). -/
  | clrerr
  /-- `ABORT` (46_control.md R213). -/
  | abort
  /-- `SETW imm` (46_control.md R215). -/
  | setw (imm : Imm)
  /-- `CNTCLR` (40_segment_builder.md R101). -/
  | cntclr
  /-- `CNT sym` (40_segment_builder.md R102). -/
  | cnt (sym : Symbol)
  /-- `BUILD` (40_segment_builder.md R106). -/
  | build
  /-- `SEGCLR` (40_segment_builder.md R109). -/
  | segclr
  /-- `SEGLO sym, imm` (40_segment_builder.md R110). -/
  | seglo (sym : Symbol) (imm : Imm)
  /-- `SEGHI sym, imm` (40_segment_builder.md R111). -/
  | seghi (sym : Symbol) (imm : Imm)
  /-- `BUFCLR` (45_bit_buffer.md R200). -/
  | bufclr
  /-- `BUFPUT n, bits` (45_bit_buffer.md R201): the field `SYM` holds the bit count `n`. -/
  | bufput (n : BitVec 8) (bits : Imm)
  /-- `ENCSTART` (43_encoder.md R161). -/
  | encstart
  /-- `ENCSYM sym` (43_encoder.md R162). -/
  | encsym (sym : Symbol)
  /-- `ENCFLUSH` (43_encoder.md R165). -/
  | encflush
  /-- `DECSTART n` (44_decoder.md R181). -/
  | decstart (n : Imm)
  /-- `DECSYM` (44_decoder.md R182). -/
  | decsym
deriving DecidableEq, Repr

end Sys2Proof
end

