-- ==== Sys2Proof/WellFormed.lean ====
section
/-! DEFINITION. Well-formed commands: the operand ranges of 30_encoding.md R87, which no field width enforces.
Every other operand is any value of its field (R82). -/

namespace Sys2Proof

/-- 30_encoding.md R87: `SETW` takes `2 <= imm <= 16`; `BUFPUT` takes `1 <= n <= 16` and `imm < 2^n`. -/
def Instr.wellFormed : Instr → Bool
  | .setw imm => decide (Config.wMin ≤ imm.toNat ∧ imm.toNat ≤ Config.wMax)
  | .bufput n bits => decide ((1 ≤ n.toNat ∧ n.toNat ≤ 16) ∧ bits.toNat < 2 ^ n.toNat)
  | .nop | .reset | .clrerr | .abort | .cntclr | .cnt _ | .build | .segclr | .seglo _ _ | .seghi _ _
  | .bufclr | .encstart | .encsym _ | .encflush | .decstart _ | .decsym => true

end Sys2Proof
end

