-- ==== Sys2Proof/Decode.lean ====
section
/-! DEFINITION. Decoding a command word (30_encoding.md R80 to R87), total over all `2^32` words, and the encoder. -/

namespace Sys2Proof

/-- Why a word is no command: the three failing steps of 30_encoding.md R84, in their order. -/
inductive DecodeError where
  /-- Step 1: the opcode is reserved (R85). -/
  | reservedOpcode
  /-- Step 2: a field the format does not use is nonzero (R86). -/
  | mustBeZero
  /-- Step 3: an operand is out of range (R87). -/
  | operandRange
deriving DecidableEq, Repr

/-- `OPC = cmd[31:24]` (30_encoding.md R80). -/
def opcField (cmd : Word) : BitVec 8 := cmd.extractLsb' 24 8

/-- `SYM = cmd[23:16]` (30_encoding.md R80). -/
def symField (cmd : Word) : BitVec 8 := cmd.extractLsb' 16 8

/-- `IMM = cmd[15:0]` (30_encoding.md R80). -/
def immField (cmd : Word) : BitVec 16 := cmd.extractLsb' 0 16

/-- The opcode map of 30_encoding.md R83: the format of an opcode and its command over the two fields. -/
def lookup (opc : BitVec 8) (sym : BitVec 8) (imm : BitVec 16) : Option (Format × Instr) :=
  match opc with
  | 0x00#8 => some (.f0, .nop)
  | 0x01#8 => some (.f0, .reset)
  | 0x02#8 => some (.f0, .clrerr)
  | 0x03#8 => some (.f0, .abort)
  | 0x10#8 => some (.fi, .setw imm)
  | 0x20#8 => some (.f0, .cntclr)
  | 0x21#8 => some (.fs, .cnt sym)
  | 0x22#8 => some (.f0, .build)
  | 0x28#8 => some (.f0, .segclr)
  | 0x29#8 => some (.fsi, .seglo sym imm)
  | 0x2A#8 => some (.fsi, .seghi sym imm)
  | 0x30#8 => some (.f0, .bufclr)
  | 0x31#8 => some (.fsi, .bufput sym imm)
  | 0x40#8 => some (.f0, .encstart)
  | 0x41#8 => some (.fs, .encsym sym)
  | 0x42#8 => some (.f0, .encflush)
  | 0x50#8 => some (.fi, .decstart imm)
  | 0x51#8 => some (.f0, .decsym)
  | _ => none

/-- 30_encoding.md R81, R86: the fields a format does not use are zero. -/
def unusedFieldsZero (f : Format) (sym : BitVec 8) (imm : BitVec 16) : Bool :=
  match f with
  | .f0 => sym == 0 && imm == 0
  | .fs => imm == 0
  | .fi => sym == 0
  | .fsi => true

/-- 30_encoding.md R87: the operand ranges checked at decode. -/
def operandInRange : Instr → Bool
  | .setw imm => decide (Config.wMin ≤ imm.toNat) && decide (imm.toNat ≤ Config.wMax)
  | .bufput n bits => decide (1 ≤ n.toNat) && decide (n.toNat ≤ 16) && decide (bits.toNat < 2 ^ n.toNat)
  | .nop | .reset | .clrerr | .abort | .cntclr | .cnt _ | .build | .segclr | .seglo _ _ | .seghi _ _
  | .bufclr | .encstart | .encsym _ | .encflush | .decstart _ | .decsym => true

/-- The decoding procedure of 30_encoding.md R84: the first step that fails decides the error. -/
def decode (cmd : Word) : Except DecodeError Instr :=
  match lookup (opcField cmd) (symField cmd) (immField cmd) with
  | none => .error .reservedOpcode
  | some (f, i) =>
    if unusedFieldsZero f (symField cmd) (immField cmd) = false then .error .mustBeZero
    else if operandInRange i = false then .error .operandRange
    else .ok i

/-- The opcode of a command (30_encoding.md R83). -/
def opcodeOf : Instr → BitVec 8
  | .nop => 0x00#8
  | .reset => 0x01#8
  | .clrerr => 0x02#8
  | .abort => 0x03#8
  | .setw _ => 0x10#8
  | .cntclr => 0x20#8
  | .cnt _ => 0x21#8
  | .build => 0x22#8
  | .segclr => 0x28#8
  | .seglo _ _ => 0x29#8
  | .seghi _ _ => 0x2A#8
  | .bufclr => 0x30#8
  | .bufput _ _ => 0x31#8
  | .encstart => 0x40#8
  | .encsym _ => 0x41#8
  | .encflush => 0x42#8
  | .decstart _ => 0x50#8
  | .decsym => 0x51#8

/-- The field `SYM` of a command's word, zero where its format does not use it (30_encoding.md R81, R82). -/
def symOf : Instr → BitVec 8
  | .cnt sym | .seglo sym _ | .seghi sym _ | .encsym sym => sym
  | .bufput n _ => n
  | .nop | .reset | .clrerr | .abort | .setw _ | .cntclr | .build | .segclr | .bufclr | .encstart
  | .encflush | .decstart _ | .decsym => 0#8

/-- The field `IMM` of a command's word, zero where its format does not use it (30_encoding.md R81, R82). -/
def immOf : Instr → BitVec 16
  | .setw imm | .seglo _ imm | .seghi _ imm | .decstart imm => imm
  | .bufput _ bits => bits
  | .nop | .reset | .clrerr | .abort | .cntclr | .cnt _ | .build | .segclr | .bufclr | .encstart
  | .encsym _ | .encflush | .decsym => 0#16

/-- The command word of a command (30_encoding.md R80): `OPC`, `SYM`, `IMM` from the top down. -/
def encode (i : Instr) : Word := opcodeOf i ++ symOf i ++ immOf i

/-- The command the decoder reads from an opcode-table word of `nbits` bits, bit 0 its least significant bit
(30_encoding.md R80, R89: every command is one 32-bit word). -/
def decodeTableWord (nbits w : Nat) : Option Instr :=
  match decode (BitVec.ofNat 32 (w % 2 ^ nbits)) with
  | .ok i => some i
  | .error _ => none

end Sys2Proof
end

