-- ==== Sys2Proof/Machine/State.lean ====
section
/-! DEFINITION. The state of the machine (10_state.md R20 to R48), the error codes of 60_exceptions.md R231 as names,
the machine's faults and refusals, and the state after reset. -/

namespace Sys2Proof.Machine

/-- `STATUS.PHASE` (10_state.md R25, R27). The value 3, which never occurs, is excluded by the type (log entry 14). -/
inductive Phase where
  /-- 0: no session is active. -/
  | idle
  /-- 1: an encoding session is active. -/
  | enc
  /-- 2: a decoding session is active. -/
  | dec
deriving DecidableEq, Repr

/-- The fourteen errors a command can raise (60_exceptions.md R231). Raising one is a next state of the machine (R232),
never a stop. -/
inductive ErrorCode where
  /-- `INVALID.1`: empty input. -/
  | invalidEmpty
  /-- `INVALID.2`: a present symbol would get a zero-width segment. -/
  | invalidZeroWidth
  /-- `INVALID.3`: the symbol has no segment. -/
  | invalidNoSegment
  /-- `INVALID.4`: the table is not a partition of `[0, N-1]`. -/
  | invalidTable
  /-- `PRECISION.1`: more present symbols than `N`. -/
  | precisionAlphabet
  /-- `PRECISION.2`: the projection is empty. -/
  | precisionCollapse
  /-- `CORRUPT.1`: no segment contains the computed position. -/
  | corruptNoSegment
  /-- `CORRUPT.2`: the stream ended before the symbol count was reached. -/
  | corruptEnd
  /-- `ILLEGAL.1`: reserved opcode. -/
  | illegalOpcode
  /-- `ILLEGAL.2`: a must-be-zero field is nonzero. -/
  | illegalField
  /-- `ILLEGAL.3`: an operand is out of range. -/
  | illegalOperand
  /-- `SEQUENCE.1`: the command is not legal in the current phase. -/
  | sequencePhase
  /-- `CAPACITY.1`: the bit buffer cannot hold the bits. -/
  | capacityBuffer
  /-- `CAPACITY.2`: a count limit. -/
  | capacityCount
deriving DecidableEq, Repr

/-- Faults that stop the machine. There is none: every accepted command completes (70_reset_and_hazards.md R272), the
step is total (60_exceptions.md R230), and every error is a next state (R232). Log entry 13. -/
inductive Fault
deriving DecidableEq, Repr

/-- Refusals. No arm of `exec` uses one: every command has its meaning. -/
inductive Refusal where
  /-- Raised by an arm of `exec` that has no meaning yet (safe: the machine stops where the hardware goes on).
  No arm raises it. -/
  | notModelled (mnemonic : String)
deriving DecidableEq, Repr

/-- One entry of the segment table: `SEGV[s]`, `SEGLO[s]`, `SEGHI[s]` (10_state.md R30). -/
structure Segment where
  valid : Bool
  lo : BitVec 16
  hi : BitVec 16
deriving DecidableEq, Repr

/-- An entry after reset, `SEGCLR` or for an absent symbol of `BUILD` (10_state.md R30). -/
def Segment.empty : Segment := ⟨false, 0#16, 0#16⟩

/-- A memory as the list of its cells that differ from the reset contents, addresses strictly rising (`Memory.wf` in
Ops.lean). An unlisted address reads as its reset contents, which the spec gives (10_state.md R48). -/
abbrev Memory (α : Type) := List (Nat × α)

/-- The state of 10_state.md R20, field by field, and the host's command list with its index (R23). -/
structure State where
  /-- `W` (R24). -/
  w : BitVec 5
  /-- `STATUS.ERR` (R25). -/
  err : BitVec 4
  /-- `STATUS.SUB` (R25). -/
  sub : BitVec 4
  /-- `STATUS.PHASE` (R25). -/
  phase : Phase
  /-- `ERRCMD` (R26). -/
  errcmd : Word
  /-- `CNT[0..255]` (R28). -/
  cnt : Memory (BitVec 16)
  /-- `TOTAL` (R29). -/
  total : BitVec 16
  /-- `SEGV`, `SEGLO`, `SEGHI` (R30). -/
  seg : Memory Segment
  /-- `L` (R32). -/
  l : BitVec 16
  /-- `H` (R32). -/
  h : BitVec 16
  /-- `TE` (R34). -/
  te : BitVec 32
  /-- `SINCE` (R35). -/
  since : BitVec 16
  /-- `NSYM` (R36). -/
  nsym : BitVec 16
  /-- `V` (R37). -/
  v : BitVec 16
  /-- `CURSOR` (R39). -/
  cursor : BitVec 32
  /-- `RDPTR` (R38). -/
  rdptr : BitVec 32
  /-- `DREM` (R40). -/
  drem : BitVec 16
  /-- `DSYM.SYM` (R41). -/
  dsymSym : Symbol
  /-- `DSYM.VALID` (R41). -/
  dsymValid : Bool
  /-- `BUF[0..65535]` (R42). -/
  buf : Memory Bool
  /-- `BITLEN` (R42). -/
  bitlen : BitVec 17
  /-- The host's list of command words (R23; 60_exceptions.md R230). -/
  program : List Word
  /-- The index of the next command in that list (R23). -/
  pc : Nat
deriving DecidableEq, Repr

/-- The state after reset (10_state.md R48): `W = 8`, everything else 0, and no command yet in the host's list. -/
def State.reset : State where
  w := BitVec.ofNat 5 Config.wReset
  err := 0#4
  sub := 0#4
  phase := .idle
  errcmd := 0#32
  cnt := []
  total := 0#16
  seg := []
  l := 0#16
  h := 0#16
  te := 0#32
  since := 0#16
  nsym := 0#16
  v := 0#16
  cursor := 0#32
  rdptr := 0#32
  drem := 0#16
  dsymSym := 0#8
  dsymValid := false
  buf := []
  bitlen := 0#17
  program := []
  pc := 0

end Sys2Proof.Machine
end

