-- ==== Sys2Proof/Machine/Flags.lean ====
section
/-! DEFINITION. The status a host can test (10_state.md R25, R45): the numbers of the error codes, of the phases, the
`STATUS` word, and the phases each command is legal in. The core has no condition codes (R45). -/

namespace Sys2Proof.Machine

/-- The value of `STATUS.ERR` (60_exceptions.md R231). -/
def ErrorCode.errBits : ErrorCode → BitVec 4
  | .invalidEmpty | .invalidZeroWidth | .invalidNoSegment | .invalidTable => 1#4
  | .precisionAlphabet | .precisionCollapse => 2#4
  | .corruptNoSegment | .corruptEnd => 3#4
  | .illegalOpcode | .illegalField | .illegalOperand => 4#4
  | .sequencePhase => 5#4
  | .capacityBuffer | .capacityCount => 6#4

/-- The value of `STATUS.SUB` (60_exceptions.md R231). -/
def ErrorCode.subBits : ErrorCode → BitVec 4
  | .invalidEmpty | .precisionAlphabet | .corruptNoSegment | .illegalOpcode | .sequencePhase
  | .capacityBuffer => 1#4
  | .invalidZeroWidth | .precisionCollapse | .corruptEnd | .illegalField | .capacityCount => 2#4
  | .invalidNoSegment | .illegalOperand => 3#4
  | .invalidTable => 4#4

/-- The error a decoding failure raises (30_encoding.md R84 to R87). -/
def errorOfDecode : DecodeError → ErrorCode
  | .reservedOpcode => .illegalOpcode
  | .mustBeZero => .illegalField
  | .operandRange => .illegalOperand

/-- The value of `STATUS.PHASE` (10_state.md R25). -/
def Phase.bits : Phase → BitVec 2
  | .idle => 0#2
  | .enc => 1#2
  | .dec => 2#2

/-- The word read at `STATUS`: `{22'b0, PHASE[1:0], SUB[3:0], ERR[3:0]}` (10_state.md R25, R47). -/
def statusWord (s : State) : Word := 0#22 ++ s.phase.bits ++ s.sub ++ s.err

/-- The word read at `DSYM`: `{23'b0, VALID, SYM[7:0]}` (10_state.md R41, R47). -/
def dsymWord (s : State) : Word := 0#23 ++ BitVec.ofBool s.dsymValid ++ s.dsymSym

/-- 60_exceptions.md R236: the one phase a command is legal in, or none for a phase-free command. -/
def requiredPhase : Instr → Option Phase
  | .nop | .reset | .clrerr | .abort => none
  | .setw _ | .cntclr | .cnt _ | .build | .segclr | .seglo _ _ | .seghi _ _ | .bufclr | .bufput _ _
  | .encstart | .decstart _ => some .idle
  | .encsym _ | .encflush => some .enc
  | .decsym => some .dec

/-- 60_exceptions.md R236: whether a command is legal in a phase. -/
def legalIn (i : Instr) (p : Phase) : Bool :=
  match requiredPhase i with
  | none => true
  | some q => p == q

end Sys2Proof.Machine
end

