-- ==== Sys2Proof/Machine/Operands.lean ====
section
/-! DEFINITION. Operand assembly (30_encoding.md R82): every operand is unsigned, none is sign-extended, scaled or
shifted. -/

namespace Sys2Proof.Machine

/-- `sym` as an index `0..255` into the tables (30_encoding.md R82). -/
def symIndex (sym : Symbol) : Nat := sym.toNat

/-- `imm` as the new `W` of `SETW` (30_encoding.md R82): the low five bits, which hold every value in range. -/
def windowOperand (imm : Imm) : BitVec 5 := imm.setWidth 5

/-- The bits `BUFPUT` appends, `imm[n-1]` first (30_encoding.md R82; 45_bit_buffer.md R201). -/
def bitsMsbFirst (imm : Nat) : Nat → BitString
  | 0 => []
  | n + 1 => imm.testBit n :: bitsMsbFirst imm n

/-- The symbol codes `0..255` in ascending order (40_segment_builder.md R100). -/
def symbolCodes : List Symbol := (List.range Config.nSyms).map (BitVec.ofNat 8)

end Sys2Proof.Machine
end

