-- ==== Sys2Proof/Machine/Ops.lean ====
section
/-! DEFINITION. The named operations over memory and registers: memory cells, the bit-buffer primitives of
20_memory.md R62 and R63, raising an error (60_exceptions.md R232) and returning from one (R240), reset, the checks
common to all commands (R235), and the host's command list (R230). -/

namespace Sys2Proof.Machine

variable {α : Type}

/-! ### Memory cells -/

/-- The contents of a cell; `d` is what an unlisted cell reads as. -/
def Memory.read (d : α) : Memory α → Nat → α
  | [], _ => d
  | (b, x) :: m, a => if a = b then x else Memory.read d m a

/-- The memory with one cell changed, in canonical form again: a cell at its reset contents is not listed. -/
def Memory.write [DecidableEq α] (d : α) : Memory α → Nat → α → Memory α
  | [], a, v => if v = d then [] else [(a, v)]
  | (b, x) :: m, a, v =>
    if a < b then (if v = d then (b, x) :: m else (a, v) :: (b, x) :: m)
    else if a = b then (if v = d then m else (a, v) :: m)
    else (b, x) :: Memory.write d m a v

/-- The canonical form of a memory of `size` cells: addresses strictly rising and in range, no cell listed at its reset
contents. -/
abbrev Memory.wf [DecidableEq α] (size : Nat) (d : α) (m : Memory α) : Prop :=
  m.Pairwise (fun x y => x.1 < y.1) ∧ ∀ e ∈ m, e.1 < size ∧ e.2 ≠ d

/-! ### Register and table accessors -/

/-- `N = 2^W` (10_state.md R24). -/
def rangeSize (s : State) : Nat := 2 ^ s.w.toNat

/-- `CNT[sym]` (10_state.md R28). -/
def count (s : State) (sym : Symbol) : BitVec 16 := Memory.read 0#16 s.cnt (symIndex sym)

/-- The table entry of `sym` (10_state.md R30). -/
def segmentOf (s : State) (sym : Symbol) : Segment := Memory.read Segment.empty s.seg (symIndex sym)

/-- The table with the entry of `sym` replaced. -/
def putSegment (sym : Symbol) (e : Segment) (s : State) : State :=
  { s with seg := Memory.write Segment.empty s.seg (symIndex sym) e }

/-- The present symbols in ascending code order (00_scope.md R17; 40_segment_builder.md R108). -/
def presentSymbols (s : State) : List Symbol := symbolCodes.filter fun sym => (segmentOf s sym).valid

/-- The state with the counts and their sum replaced (40_segment_builder.md R101, R102). -/
def setCounts (cnt : Memory (BitVec 16)) (total : BitVec 16) (s : State) : State :=
  { s with cnt := cnt, total := total }

/-- The state with the whole segment table replaced (40_segment_builder.md R106, R109). -/
def setTable (seg : Memory Segment) (s : State) : State := { s with seg := seg }

/-- The state with `PHASE` replaced. -/
def setPhase (p : Phase) (s : State) : State := { s with phase := p }

/-- The state with `W` replaced (46_control.md R215). -/
def setWindow (w : BitVec 5) (s : State) : State := { s with w := w }

/-- The state with the coding registers of 10_state.md R32 to R36 replaced. -/
def setCoding (l h : BitVec 16) (te : BitVec 32) (since nsym : BitVec 16) (s : State) : State :=
  { s with l := l, h := h, te := te, since := since, nsym := nsym }

/-- The state with the decoder registers of 10_state.md R37 to R40 replaced. -/
def setLookahead (v : BitVec 16) (cursor rdptr : BitVec 32) (drem : BitVec 16) (s : State) : State :=
  { s with v := v, cursor := cursor, rdptr := rdptr, drem := drem }

/-- The state with both fields of `DSYM` replaced (10_state.md R41). -/
def setDsym (sym : Symbol) (valid : Bool) (s : State) : State := { s with dsymSym := sym, dsymValid := valid }

/-! ### The bit buffer -/

/-- `BUF[i]` (10_state.md R42). -/
def cell (s : State) (i : Nat) : Bool := Memory.read false s.buf i

/-- `BitAt(i)` (20_memory.md R62): 0 at or past `BITLEN`, whatever the cell holds. -/
def bitAt (s : State) (i : Nat) : Bool := if i < s.bitlen.toNat then cell s i else false

/-- Whether `n` more bits fit: `BITLEN + n <= BUF_BITS` (20_memory.md R63). -/
def fits (s : State) (n : Nat) : Bool := decide (s.bitlen.toNat + n ≤ Config.bufBits)

/-- The cells with a bit string written upwards from index `a` (20_memory.md R63). -/
def writeBits : Memory Bool → Nat → BitString → Memory Bool
  | m, _, [] => m
  | m, a, b :: bs => writeBits (Memory.write false m a b) (a + 1) bs

/-- `Append(s)` (20_memory.md R63), after its check. -/
def appendBits (bits : BitString) (s : State) : State :=
  { s with buf := writeBits s.buf s.bitlen.toNat bits
           bitlen := BitVec.ofNat 17 (s.bitlen.toNat + bits.length) }

/-- `BITLEN <- 0`; the cells keep their values (45_bit_buffer.md R200; 43_encoder.md R161). -/
def emptyBuffer (s : State) : State := { s with bitlen := 0#17 }

/-! ### Errors -/

/-- Raising an error (60_exceptions.md R232): the code, the sub-code and the command word are recorded, and no other
state changes. -/
def raise (e : ErrorCode) (cmd : Word) (s : State) : State :=
  { s with err := e.errBits, sub := e.subBits, errcmd := cmd }

/-- Returning from an error (60_exceptions.md R240; 46_control.md R212). -/
def clearError (s : State) : State := { s with err := 0#4, sub := 0#4, errcmd := 0#32 }

/-- Reset, by `RESET` or by `rst` (70_reset_and_hazards.md R260): every state element of the core takes the value of
10_state.md R48. The command list and its index are the host's (10_state.md R23) and stay. -/
def hardReset (s : State) : State := { State.reset with program := s.program, pc := s.pc }

/-- The checks of 60_exceptions.md R235 that follow the opcode and must-be-zero checks: operand range (step 3), phase
(step 4), then the command's own checks and its commit. -/
def checked (i : Instr) (s : State) (own : Except ErrorCode State) : Except ErrorCode State :=
  if operandInRange i = false then .error .illegalOperand
  else if legalIn i s.phase = false then .error .sequencePhase
  else own

/-- The end of a command (60_exceptions.md R230): its committed state, or the error recorded with the command word. -/
def conclude (i : Instr) (s : State) (r : Except ErrorCode State) : Host.Outcome State Fault Refusal :=
  match r with
  | .ok t => .next t
  | .error e => .next (raise e (encode i) s)

/-- One command: the common checks, its own part, and its end. -/
def perform (i : Instr) (s : State) (own : Except ErrorCode State) : Host.Outcome State Fault Refusal :=
  conclude i s (checked i s own)

/-! ### The host's command list -/

/-- `program[pc]`, if the host has a command left (60_exceptions.md R230). -/
def nextCommand (s : State) : Option Word := s.program[s.pc]?

/-- `pc <- pc + 1` (60_exceptions.md R230). -/
def advancePc (s : State) : State := { s with pc := s.pc + 1 }

/-- The command list with `cmd` as the next command: the commands before it and after it stay. A list that ends before
the index is filled up with `NOP`, which no step reads. -/
def placeCommand (cmd : Word) (s : State) : State :=
  { s with program := s.program.take s.pc ++ List.replicate (s.pc - s.program.length) 0#32
             ++ cmd :: s.program.drop (s.pc + 1) }

end Sys2Proof.Machine
end

