-- ==== Sys2Proof/Machine/Buffer.lean ====
section
/-! DEFINITION. The bit buffer commands (45_bit_buffer.md): `BUFCLR`, `BUFPUT`. -/

namespace Sys2Proof.Machine

/-- `BUFCLR` (45_bit_buffer.md R200). -/
def execBufclr (s : State) : Host.Outcome State Fault Refusal := perform .bufclr s (.ok (emptyBuffer s))

/-- The own part of `BUFPUT` (45_bit_buffer.md R201). -/
def bufputOwn (n : BitVec 8) (bits : Imm) (s : State) : Except ErrorCode State :=
  if fits s n.toNat then .ok (appendBits (bitsMsbFirst bits.toNat n.toNat) s) else .error .capacityBuffer

/-- `BUFPUT n, bits` (45_bit_buffer.md R201). -/
def execBufput (n : BitVec 8) (bits : Imm) (s : State) : Host.Outcome State Fault Refusal :=
  perform (.bufput n bits) s (bufputOwn n bits s)

end Sys2Proof.Machine
end

