-- ==== Sys2Proof/Machine/Interval.lean ====
section
/-! DEFINITION. The interval narrowing engine (41_interval_narrowing.md) and the exact ceiling it uses (00_scope.md
R11). All values are natural numbers, computed exactly (R136). -/

namespace Sys2Proof.Machine

/-- `ceil(a / b)` for `b > 0` (00_scope.md R11). -/
def ceilDiv (a b : Nat) : Nat := (a + (b - 1)) / b

/-- The width `H - L + 1` of a working interval. -/
def intervalWidth (l h : Nat) : Nat := h - l + 1

/-- `Project(sl, sh, L, H)` over `[0, n-1]` (41_interval_narrowing.md R130). -/
def project (n sl sh l h : Nat) : Nat × Nat :=
  (l + ceilDiv (sl * intervalWidth l h) n, l + ceilDiv ((sh + 1) * intervalWidth l h) n - 1)

/-- `Position(V, L, H)` over `[0, n-1]` (41_interval_narrowing.md R133). -/
def position (n v l h : Nat) : Nat := (v - l) * n / intervalWidth l h

/-- Whether a table entry is present and holds a position. -/
def Segment.holds (e : Segment) (pos : Nat) : Bool :=
  e.valid && decide (e.lo.toNat ≤ pos) && decide (pos ≤ e.hi.toNat)

/-- `SegmentAt(pos)` (41_interval_narrowing.md R134): the present symbol whose segment holds the position. It is unique
under `TableOK`, and then exists for every position in range. -/
def segmentAt (s : State) (pos : Nat) : Option Symbol :=
  symbolCodes.find? fun sym => (segmentOf s sym).holds pos

end Sys2Proof.Machine
end

