-- ==== Sys2Proof/Machine/Builder.lean ====
section
/-! DEFINITION. The segment partition builder and the table commands (40_segment_builder.md): `CNTCLR`, `CNT`, `BUILD`,
`SEGCLR`, `SEGLO`, `SEGHI`, the partition function and `TableOK`. -/

namespace Sys2Proof.Machine

/-- The loop of `Segments` (40_segment_builder.md R103) from a start `left` and a running count `run`: the entries of
the present symbols in ascending order, or the first symbol of zero width. `n` is `N`, `t` is `TOTAL`. -/
def segments (n t : Nat) (counts : Symbol → Nat) : List Symbol → Nat → Nat → Except Symbol (Memory Segment)
  | [], _, _ => .ok []
  | sym :: rest, left, run =>
    if counts sym = 0 then segments n t counts rest left run
    else
      let top := ceilDiv ((run + counts sym) * n) t
      if top - 1 < left ∨ top = 0 then .error sym
      else
        match segments n t counts rest top (run + counts sym) with
        | .ok m => .ok ((symIndex sym, ⟨true, BitVec.ofNat 16 left, BitVec.ofNat 16 (top - 1)⟩) :: m)
        | .error e => .error e

/-- `K`, the number of symbols with a nonzero count (40_segment_builder.md R106). -/
def alphabetSize (s : State) : Nat := symbolCodes.countP fun sym => decide ((count s sym).toNat ≠ 0)

/-- `Segments(CNT, TOTAL, W)` of the state (40_segment_builder.md R103). -/
def segmentsOf (s : State) : Except Symbol (Memory Segment) :=
  segments (rangeSize s) s.total.toNat (fun sym => (count s sym).toNat) symbolCodes 0 0

/-- Whether consecutive segments cover `[start, n-1]` with no gap and no overlap (40_segment_builder.md R108). -/
def coversFrom (n : Nat) : Nat → List Segment → Bool
  | start, [] => start == n
  | start, e :: rest =>
    e.lo.toNat == start && decide (e.lo.toNat ≤ e.hi.toNat) && coversFrom n (e.hi.toNat + 1) rest

/-- `TableOK` (40_segment_builder.md R108): at least one present symbol, and the present segments in code order
partition `[0, N-1]`. -/
def tableOk (s : State) : Bool :=
  let table := (presentSymbols s).map (segmentOf s)
  !table.isEmpty && coversFrom (rangeSize s) 0 table

/-- `CNTCLR` (40_segment_builder.md R101). -/
def execCntclr (s : State) : Host.Outcome State Fault Refusal := perform .cntclr s (.ok (setCounts [] 0#16 s))

/-- The own part of `CNT` (40_segment_builder.md R102). -/
def cntOwn (sym : Symbol) (s : State) : Except ErrorCode State :=
  if s.total.toNat = Config.cntMax then .error .capacityCount
  else .ok (setCounts (Memory.write 0#16 s.cnt (symIndex sym) (count s sym + 1#16)) (s.total + 1#16) s)

/-- `CNT sym` (40_segment_builder.md R102). -/
def execCnt (sym : Symbol) (s : State) : Host.Outcome State Fault Refusal := perform (.cnt sym) s (cntOwn sym s)

/-- The own part of `BUILD` (40_segment_builder.md R106). -/
def buildOwn (s : State) : Except ErrorCode State :=
  if s.total.toNat = 0 then .error .invalidEmpty
  else if rangeSize s < alphabetSize s then .error .precisionAlphabet
  else
    match segmentsOf s with
    | .error _ => .error .invalidZeroWidth
    | .ok table => .ok (setTable table s)

/-- `BUILD` (40_segment_builder.md R106). -/
def execBuild (s : State) : Host.Outcome State Fault Refusal := perform .build s (buildOwn s)

/-- `SEGCLR` (40_segment_builder.md R109). -/
def execSegclr (s : State) : Host.Outcome State Fault Refusal := perform .segclr s (.ok (setTable [] s))

/-- `SEGLO sym, imm` (40_segment_builder.md R110): `SEGV[sym]` and `SEGHI[sym]` stay. -/
def execSeglo (sym : Symbol) (imm : Imm) (s : State) : Host.Outcome State Fault Refusal :=
  perform (.seglo sym imm) s (.ok (putSegment sym { segmentOf s sym with lo := imm } s))

/-- `SEGHI sym, imm` (40_segment_builder.md R111): the symbol becomes present; `SEGLO[sym]` stays. -/
def execSeghi (sym : Symbol) (imm : Imm) (s : State) : Host.Outcome State Fault Refusal :=
  perform (.seghi sym imm) s (.ok (putSegment sym { segmentOf s sym with valid := true, hi := imm } s))

end Sys2Proof.Machine
end

