-- ==== Sys2Proof/Machine/Control.lean ====
section
/-! DEFINITION. The control and configuration commands (46_control.md): `NOP`, `RESET`, `CLRERR`, `ABORT`, `SETW`. -/

namespace Sys2Proof.Machine

/-- `NOP` (46_control.md R210): no state changes. -/
def execNop (s : State) : Host.Outcome State Fault Refusal := perform .nop s (.ok s)

/-- `RESET` (46_control.md R211). -/
def execReset (s : State) : Host.Outcome State Fault Refusal := perform .reset s (.ok (hardReset s))

/-- `CLRERR` (46_control.md R212). -/
def execClrerr (s : State) : Host.Outcome State Fault Refusal := perform .clrerr s (.ok (clearError s))

/-- `ABORT` (46_control.md R213). -/
def execAbort (s : State) : Host.Outcome State Fault Refusal := perform .abort s (.ok (setPhase .idle s))

/-- `SETW imm` (46_control.md R215). -/
def execSetw (imm : Imm) (s : State) : Host.Outcome State Fault Refusal :=
  perform (.setw imm) s (.ok (setWindow (windowOperand imm) s))

end Sys2Proof.Machine
end

