-- ==== Sys2Proof/Machine/Renorm.lean ====
section
/-! DEFINITION. The underflow renormalization unit (42_underflow_renormalization.md), a pure function over natural
numbers of `W` bits. -/

namespace Sys2Proof.Machine

/-- The results of `Renorm` (42_underflow_renormalization.md R140). -/
structure Renormed where
  l : Nat
  h : Nat
  te : Nat
  since : Nat
  out : BitString
  k : Nat
  c : Nat
deriving DecidableEq, Repr

/-- `PrefixLen` over the low `w` bits (42_underflow_renormalization.md R141). -/
def sharedRun : Nat → Nat → Nat → Nat
  | 0, _, _ => 0
  | w + 1, l, h => if l.testBit w = h.testBit w then sharedRun w l h + 1 else 0

/-- The leading `k` bits of the `w`-bit representation of `x`, leading bit first (42_underflow_renormalization.md
R142). -/
def leadingBits (w x : Nat) : Nat → BitString
  | 0 => []
  | k + 1 => x.testBit (w - 1) :: leadingBits (w - 1) x k

/-- Carry-forward stuffing (42_underflow_renormalization.md R143): the first bit of the run, then `te` copies of its
opposite, then the rest. -/
def stuff (te : Nat) : BitString → BitString
  | [] => []
  | b :: rest => b :: (List.replicate te (!b) ++ rest)

/-- The straddle count (42_underflow_renormalization.md R146): every position below the leading one where `L` has 1 and
`H` has 0. -/
def straddles (w l h : Nat) : Nat := (List.range (w - 1)).countP fun i => l.testBit i && !h.testBit i

/-- `Strip(x, f)` (42_underflow_renormalization.md R147): keep the leading bit, drop bit `W-2`, shift the rest up by one
and fill bit 0 with `f`. -/
def strip (w x : Nat) (f : Bool) : Nat :=
  x / 2 ^ (w - 1) % 2 * 2 ^ (w - 1) + x % 2 ^ (w - 2) * 2 + f.toNat

/-- `Strip` with a constant fill, applied `c` times (42_underflow_renormalization.md R147). -/
def stripTimes (w : Nat) (f : Bool) : Nat → Nat → Nat
  | 0, x => x
  | c + 1, x => stripTimes w f c (strip w x f)

/-- The low end after a left shift by `k` with 0 shifted in (42_underflow_renormalization.md R144). -/
def shiftLow (w k l : Nat) : Nat := l * 2 ^ k % 2 ^ w

/-- The high end after a left shift by `k` with 1 shifted in (42_underflow_renormalization.md R144). -/
def shiftHigh (w k h : Nat) : Nat := (h * 2 ^ k + 2 ^ k - 1) % 2 ^ w

/-- `Renorm` in full (42_underflow_renormalization.md R150). With `k = 0` the shift is the identity and nothing is
emitted (R149), so the rule's two branches differ in the counters and the output alone. -/
def renorm (w l1 h1 te since : Nat) : Renormed :=
  let k := sharedRun w l1 h1
  let l2 := if k = 0 then l1 else shiftLow w k l1
  let h2 := if k = 0 then h1 else shiftHigh w k h1
  let c := straddles w l2 h2
  { l := stripTimes w false c l2
    h := stripTimes w true c h2
    te := if k = 0 then te + c else c
    since := if k = 0 then since + 1 else 0
    out := stuff te (leadingBits w l1 k)
    k := k
    c := c }

end Sys2Proof.Machine
end

