-- ==== Sys2Proof/Machine/Encoder.lean ====
section
/-! DEFINITION. The encoder unit (43_encoder.md): `ENCSTART`, `ENCSYM`, `ENCFLUSH`. -/

namespace Sys2Proof.Machine

/-- The coding registers at the start of a session (43_encoder.md R161; 44_decoder.md R181): the full interval, every
counter 0. -/
def startCoding (s : State) : State := setCoding 0#16 (BitVec.ofNat 16 (rangeSize s - 1)) 0#32 0#16 0#16 s

/-- The own part of `ENCSTART` (43_encoder.md R161). -/
def encstartOwn (s : State) : Except ErrorCode State :=
  if tableOk s then .ok (setPhase .enc (emptyBuffer (startCoding s))) else .error .invalidTable

/-- `ENCSTART` (43_encoder.md R161). -/
def execEncstart (s : State) : Host.Outcome State Fault Refusal := perform .encstart s (encstartOwn s)

/-- A symbol's segment projected onto the working interval (41_interval_narrowing.md R130). -/
def projectSymbol (s : State) (sym : Symbol) : Nat × Nat :=
  project (rangeSize s) (segmentOf s sym).lo.toNat (segmentOf s sym).hi.toNat s.l.toNat s.h.toNat

/-- `Renorm` on a symbol's projection (42_underflow_renormalization.md R150). -/
def renormSymbol (s : State) (sym : Symbol) : Renormed :=
  renorm s.w.toNat (projectSymbol s sym).1 (projectSymbol s sym).2 s.te.toNat s.since.toNat

/-- The coding registers after a symbol (43_encoder.md R162; 44_decoder.md R182). -/
def codeSymbol (r : Renormed) (s : State) : State :=
  setCoding (BitVec.ofNat 16 r.l) (BitVec.ofNat 16 r.h) (BitVec.ofNat 32 r.te) (BitVec.ofNat 16 r.since)
    (s.nsym + 1#16) s

/-- The own part of `ENCSYM` (43_encoder.md R162). -/
def encsymOwn (sym : Symbol) (s : State) : Except ErrorCode State :=
  if (segmentOf s sym).valid = false then .error .invalidNoSegment
  else if s.nsym.toNat = Config.nsymMax then .error .capacityCount
  else if (projectSymbol s sym).2 < (projectSymbol s sym).1 then .error .precisionCollapse
  else if fits s (renormSymbol s sym).out.length = false then .error .capacityBuffer
  else .ok (codeSymbol (renormSymbol s sym) (appendBits (renormSymbol s sym).out s))

/-- `ENCSYM sym` (43_encoder.md R162). -/
def execEncsym (sym : Symbol) (s : State) : Host.Outcome State Fault Refusal :=
  perform (.encsym sym) s (encsymOwn sym s)

/-- The terminator (43_encoder.md R166): a 1 and `SINCE` zeros. -/
def terminator (s : State) : BitString := true :: List.replicate s.since.toNat false

/-- The own part of `ENCFLUSH` (43_encoder.md R165). -/
def encflushOwn (s : State) : Except ErrorCode State :=
  if s.nsym.toNat = 0 then .error .invalidEmpty
  else if fits s (terminator s).length = false then .error .capacityBuffer
  else .ok (setPhase .idle (appendBits (terminator s) s))

/-- `ENCFLUSH` (43_encoder.md R165). -/
def execEncflush (s : State) : Host.Outcome State Fault Refusal := perform .encflush s (encflushOwn s)

end Sys2Proof.Machine
end

