-- ==== Sys2Proof/Machine/Decoder.lean ====
section
/-! DEFINITION. The decoder unit (44_decoder.md): `DECSTART`, `DECSYM`. -/

namespace Sys2Proof.Machine

/-- The first `w` bits of a stream as a number, the first bit most significant (44_decoder.md R181). -/
def firstWindow (bit : Nat → Bool) : Nat → Nat
  | 0 => 0
  | w + 1 => firstWindow bit w * 2 + (bit w).toNat

/-- The own part of `DECSTART` (44_decoder.md R181). -/
def decstartOwn (n : Imm) (s : State) : Except ErrorCode State :=
  if n.toNat = 0 then .error .invalidEmpty
  else if tableOk s = false then .error .invalidTable
  else .ok (setPhase .dec (setDsym 0#8 false
    (setLookahead (BitVec.ofNat 16 (firstWindow (bitAt s) s.w.toNat)) 0#32 (BitVec.ofNat 32 s.w.toNat) n
      (startCoding s))))

/-- `DECSTART n` (44_decoder.md R181). -/
def execDecstart (n : Imm) (s : State) : Host.Outcome State Fault Refusal := perform (.decstart n) s (decstartOwn n s)

/-- The prefix shifts of `Advance` (44_decoder.md R185): `k` stream bits enter at the low end. -/
def shiftIn (bit : Nat → Bool) (w : Nat) : Nat → Nat → Nat → Nat × Nat
  | 0, v, p => (v, p)
  | k + 1, v, p => shiftIn bit w k ((v * 2 + (bit p).toNat) % 2 ^ w) (p + 1)

/-- The straddle strips of `Advance` (44_decoder.md R185): `c` strips, each filled with the next stream bit. -/
def stripIn (bit : Nat → Bool) (w : Nat) : Nat → Nat → Nat → Nat × Nat
  | 0, v, p => (v, p)
  | c + 1, v, p => stripIn bit w c (strip w v (bit p)) (p + 1)

/-- `Advance(V, RDPTR, k, c)` (44_decoder.md R185): all shifts, then all strips. -/
def advance (bit : Nat → Bool) (w v p k c : Nat) : Nat × Nat :=
  stripIn bit w c (shiftIn bit w k v p).1 (shiftIn bit w k v p).2

/-- What `CURSOR` grows by (44_decoder.md R186): the bits the encoder appended for the same symbol. -/
def settledBits (k te : Nat) : Nat := if k = 0 then 0 else k + te

/-- The commit of `DECSYM` (44_decoder.md R182, R187) for the symbol found. -/
def decsymCommit (sym : Symbol) (s : State) : State :=
  let r := renormSymbol s sym
  let a := advance (bitAt s) s.w.toNat s.v.toNat s.rdptr.toNat r.k r.c
  setPhase (if s.drem - 1#16 = 0#16 then .idle else s.phase)
    (setDsym sym true
      (setLookahead (BitVec.ofNat 16 a.1) (BitVec.ofNat 32 (s.cursor.toNat + settledBits r.k s.te.toNat))
        (BitVec.ofNat 32 a.2) (s.drem - 1#16) (codeSymbol r s)))

/-- The own part of `DECSYM` (44_decoder.md R182). A position in no segment, which `TableOK` excludes, is the source's
condition for `CORRUPT.1` (R184; log entry 8). -/
def decsymOwn (s : State) : Except ErrorCode State :=
  if s.bitlen.toNat < s.cursor.toNat then .error .corruptEnd
  else if s.v.toNat < s.l.toNat ∨ s.h.toNat < s.v.toNat then .error .corruptNoSegment
  else
    match segmentAt s (position (rangeSize s) s.v.toNat s.l.toNat s.h.toNat) with
    | none => .error .corruptNoSegment
    | some sym => .ok (decsymCommit sym s)

/-- `DECSYM` (44_decoder.md R182). -/
def execDecsym (s : State) : Host.Outcome State Fault Refusal := perform .decsym s (decsymOwn s)

end Sys2Proof.Machine
end

