-- ==== Sys2Proof/Machine/Dispatch.lean ====
section
/-! DEFINITION. The meaning of every command: one arm per constructor. -/

namespace Sys2Proof.Machine

def exec (i : Instr) (s : State) : Host.Outcome State Fault Refusal :=
  match i with
  | .nop => Sys2Proof.Machine.execNop s
  | .reset => Sys2Proof.Machine.execReset s
  | .clrerr => Sys2Proof.Machine.execClrerr s
  | .abort => Sys2Proof.Machine.execAbort s
  | .setw imm => Sys2Proof.Machine.execSetw imm s
  | .cntclr => Sys2Proof.Machine.execCntclr s
  | .cnt sym => Sys2Proof.Machine.execCnt sym s
  | .build => Sys2Proof.Machine.execBuild s
  | .segclr => Sys2Proof.Machine.execSegclr s
  | .seglo sym imm => Sys2Proof.Machine.execSeglo sym imm s
  | .seghi sym imm => Sys2Proof.Machine.execSeghi sym imm s
  | .bufclr => Sys2Proof.Machine.execBufclr s
  | .bufput n bits => Sys2Proof.Machine.execBufput n bits s
  | .encstart => Sys2Proof.Machine.execEncstart s
  | .encsym sym => Sys2Proof.Machine.execEncsym sym s
  | .encflush => Sys2Proof.Machine.execEncflush s
  | .decstart n => Sys2Proof.Machine.execDecstart n s
  | .decsym => Sys2Proof.Machine.execDecsym s

end Sys2Proof.Machine
end

