-- ==== Sys2Proof/Machine/Execute.lean ====
section
/-! DEFINITION. Executing one command word: decoding, the error-state gate, and lists of words (60_exceptions.md R230,
R233, R235). -/

namespace Sys2Proof.Machine

/-- `Execute(S, cmd)` (60_exceptions.md R235): decoding (steps 1 to 3), then the command's meaning (steps 3 to 6). -/
def execute (cmd : Word) (s : State) : Host.Outcome State Fault Refusal :=
  match decode cmd with
  | .error e => .next (raise (errorOfDecode e) cmd s)
  | .ok i => exec i s

/-- Whether the error-state gate ignores a word (60_exceptions.md R233): an error is recorded and the word is neither
the exact `RESET` nor the exact `CLRERR`. -/
def gated (cmd : Word) (s : State) : Bool := s.err != 0#4 && cmd != 0x01000000#32 && cmd != 0x02000000#32

/-- The core's reaction to an accepted word, less the index of the host's list (60_exceptions.md R230). -/
def issue (cmd : Word) (s : State) : Host.Outcome State Fault Refusal :=
  if gated cmd s then .next s else execute cmd s

/-- Words accepted one after another (20_memory.md R70), up to the first stop. -/
def issueAll : List Word → State → Host.Outcome State Fault Refusal
  | [], s => .next s
  | cmd :: rest, s =>
    match issue cmd s with
    | .next t => issueAll rest t
    | .fault f => .fault f
    | .refused r => .refused r

/-- The index moved past the command, whatever its outcome (60_exceptions.md R230). -/
def afterCommand : Host.Outcome State Fault Refusal → Host.Outcome State Fault Refusal
  | .next t => .next (advancePc t)
  | .fault f => .fault f
  | .refused r => .refused r

/-- One step (60_exceptions.md R230): the next command of the host's list is accepted. With no command offered the core
holds its state (60_exceptions.md R248; log entry 2). -/
def stepCommand (s : State) : Host.Outcome State Fault Refusal :=
  match nextCommand s with
  | none => .next s
  | some cmd => afterCommand (issue cmd s)

end Sys2Proof.Machine
end

