-- ==== Sys2Proof/Machine/Step.lean ====
section
/-! DEFINITION. The step of the machine (60_exceptions.md R230) and the placing of the next command. -/

namespace Sys2Proof.Machine

/-- One step of the core (60_exceptions.md R230). -/
def step (s : State) : Host.Outcome State Fault Refusal := stepCommand s

/-- The state with the opcode-table word `w` of `nbits` bits as the host's next command (log entry 1). -/
def State.withFetchWord (s : State) (nbits w : Nat) : State := placeCommand (BitVec.ofNat 32 (w % 2 ^ nbits)) s

end Sys2Proof.Machine
end

