-- ==== Sys2Proof/Machine/ReadPort.lean ====
section
/-! DEFINITION. The read port (10_state.md R47; 20_memory.md R64, R67): a function of the state, so a read changes
nothing. -/

namespace Sys2Proof.Machine

/-- `n` stream bits from index `i` as a number, the first bit most significant (20_memory.md R64). -/
def packBits (bit : Nat → Bool) (i : Nat) : Nat → Nat
  | 0 => 0
  | n + 1 => packBits bit i n * 2 + (bit (i + n)).toNat

/-- `BUFWORD[j]` (20_memory.md R64). -/
def bufWord (s : State) (j : Nat) : Word := BitVec.ofNat 32 (packBits (bitAt s) (32 * j) 32)

/-- The word at `0x200 + s`: `{SEGV[s], 15'b0, SEGLO[s]}` (10_state.md R30, R47). -/
def segloWord (e : Segment) : Word := BitVec.ofBool e.valid ++ 0#15 ++ e.lo

/-- The registers at `0x000..0x010`; the rest of the first page is reserved and reads 0 (10_state.md R47). -/
def readRegister (s : State) (a : Nat) : Word :=
  match a with
  | 0x000 => Config.idWord
  | 0x001 => statusWord s
  | 0x002 => s.errcmd
  | 0x003 => s.w.setWidth 32
  | 0x004 => s.l.setWidth 32
  | 0x005 => s.h.setWidth 32
  | 0x006 => s.v.setWidth 32
  | 0x007 => s.te
  | 0x008 => s.since.setWidth 32
  | 0x009 => s.nsym.setWidth 32
  | 0x00A => s.bitlen.setWidth 32
  | 0x00B => s.cursor
  | 0x00C => s.rdptr
  | 0x00D => s.drem.setWidth 32
  | 0x00E => dsymWord s
  | 0x00F => s.total.setWidth 32
  | 0x010 => Config.paramsWord
  | _ => 0#32

/-- The word at a read-port address (10_state.md R47). -/
def readPort (s : State) (addr : BitVec 12) : Word :=
  if addr.toNat < 0x100 then readRegister s addr.toNat
  else if addr.toNat < 0x200 then (count s (addr.setWidth 8)).setWidth 32
  else if addr.toNat < 0x300 then segloWord (segmentOf s (addr.setWidth 8))
  else if addr.toNat < 0x400 then (segmentOf s (addr.setWidth 8)).hi.setWidth 32
  else if addr.toNat < 0xC00 then bufWord s (addr.toNat - 0x400)
  else 0#32

end Sys2Proof.Machine
end

