-- ==== Sys2Proof/Machine/Port.lean ====
section
/-! DEFINITION. The two ports at the level of clock edges (20_memory.md R71, R72; 70_reset_and_hazards.md R260): the
command handshake with its open latency, the read data, and `rst`. The step of 60_exceptions.md R230 lies below it: a
command's whole effect takes place at its completion. -/

namespace Sys2Proof.Machine

/-- The inputs sampled at a rising edge of `clk` (20_memory.md R71). -/
structure PortInput where
  rst : Bool
  cmdValid : Bool
  cmdData : Word
  rdAddr : BitVec 12
deriving DecidableEq, Repr

/-- The core behind its ports. `inFlight` holds the command accepted and not completed, with the edges it still takes
before the one that completes it; `edges` is the model's own count of edges, the argument of the free values. -/
structure PortState where
  core : State
  inFlight : Option (Word × Nat)
  edges : Nat
deriving DecidableEq, Repr

/-- The ports right after a reset edge, with no edge counted. -/
def portReset : PortState := { core := State.reset, inFlight := none, edges := 0 }

/-- `cmd_ready`: 0 from a command's acceptance to its completion (20_memory.md R71) and only then (10_state.md R46),
whatever `rst` is. -/
def cmdReady (p : PortState) : Bool := p.inFlight.isNone

/-- `rd_data` (20_memory.md R72): the read port while `cmd_ready = 1`, any value while a command executes or
`rst = 1` (log entry 4). -/
def rdData (p : PortState) (i : PortInput) : Word :=
  if i.rst = false ∧ cmdReady p = true then readPort p.core i.rdAddr
  else Config.unspecifiedRead p.edges i.rdAddr

/-- Whether a command is accepted at this edge: `cmd_valid = 1`, `cmd_ready = 1` and `rst = 0` (20_memory.md R71). -/
def accepts (p : PortState) (i : PortInput) : Bool := i.cmdValid && cmdReady p && !i.rst

/-- The core after a word it accepted completes. -/
def completed (cmd : Word) (s : State) : State :=
  match issue cmd s with
  | .next t => t
  | .fault _ => s
  | .refused _ => s

/-- The ports after an edge at which an accepted command has the given number of edges left: with none it completes at
this edge, otherwise the core stays as it is. DESIGN CHOICE, log entry 3: `CMD_LATENCY` may be 0, and then the command
completes at the edge that accepts it and `cmd_ready` does not fall. -/
def progress (cmd : Word) (left : Nat) (core : State) (edges : Nat) : PortState :=
  match left with
  | 0 => { core := completed cmd core, inFlight := none, edges := edges }
  | n + 1 => { core := core, inFlight := some (cmd, n), edges := edges }

/-- One rising edge of `clk` (20_memory.md R71; 70_reset_and_hazards.md R260). `rst` resets the core and abandons a
command in flight, which otherwise progresses. A command accepted here completes `CMD_LATENCY` edges later, and the
host's index moves past it at once (10_state.md R23; log entry 18). -/
def clockEdge (p : PortState) (i : PortInput) : PortState :=
  if i.rst then { core := hardReset p.core, inFlight := none, edges := p.edges + 1 }
  else
    match p.inFlight with
    | some (cmd, left) => progress cmd left p.core (p.edges + 1)
    | none =>
      if accepts p i then
        progress i.cmdData (Config.cmdLatency p.edges i.cmdData) (advancePc p.core) (p.edges + 1)
      else { p with edges := p.edges + 1 }

/-- Several rising edges, one input each. -/
def clockEdges (p : PortState) : List PortInput → PortState
  | [] => p
  | i :: rest => clockEdges (clockEdge p i) rest

end Sys2Proof.Machine
end

