-- ==== Sys2Proof/Machine/Session.lean ====
section
/-! DEFINITION. The pseudo-commands of 30_encoding.md R91 as the commands they expand to, and whole sessions as lists of
command words (43_encoder.md R164; 44_decoder.md R188). The core never sees a pseudo-command. -/

namespace Sys2Proof.Machine

/-- `CNTS` (30_encoding.md R91). -/
def cnts (syms : List Symbol) : List Instr := syms.map .cnt

/-- `ENCS` (30_encoding.md R91). -/
def encs (syms : List Symbol) : List Instr := syms.map .encsym

/-- `SEG s, lo, hi` (30_encoding.md R91). -/
def loadSegment (sym : Symbol) (lo hi : Imm) : List Instr := [.seglo sym lo, .seghi sym hi]

/-- A chunk of at most 16 bits as a number, its first bit most significant (30_encoding.md R91). -/
def chunkValue : BitString → Nat
  | [] => 0
  | b :: rest => b.toNat * 2 ^ rest.length + chunkValue rest

/-- The `BUFPUT` of a chunk (30_encoding.md R91). -/
def putChunk (bits : BitString) : Instr := .bufput (BitVec.ofNat 8 bits.length) (BitVec.ofNat 16 (chunkValue bits))

/-- One `BUFPUT` for each full chunk of 16 bits and one for the rest (30_encoding.md R91). The first argument bounds the
number of chunks. -/
def putChunks : Nat → BitString → List Instr
  | 0, _ => []
  | fuel + 1, bits =>
    if bits.isEmpty then [] else putChunk (bits.take 16) :: putChunks fuel (bits.drop 16)

/-- `LOADBITS` (30_encoding.md R91; 45_bit_buffer.md R202). -/
def loadbits (bits : BitString) : List Instr := .bufclr :: putChunks bits.length bits

/-- `ENCODE w, "s"` (30_encoding.md R91; 43_encoder.md R164). -/
def encodeSequence (w : Imm) (syms : List Symbol) : List Instr :=
  [.setw w, .cntclr] ++ cnts syms ++ [.build, .encstart] ++ encs syms ++ [.encflush]

/-- `DECODE n` (30_encoding.md R91; 44_decoder.md R188). The count is a 16-bit value, `0..65535` as 44_decoder.md R181
bounds it; a host with a larger count is not modelled (DESIGN CHOICE, log entry 5). -/
def decodeSequence (n : Imm) : List Instr := .decstart n :: List.replicate n.toNat .decsym

/-- An encoding session over the table in place (43_encoder.md R160). -/
def encodingSession (syms : List Symbol) : List Instr := .encstart :: (encs syms ++ [.encflush])

/-- The command words of a list of commands (30_encoding.md R80). -/
def wordsOf (is : List Instr) : List Word := is.map encode

/-- `n` `DECSYM` commands one at a time, with `DSYM.SYM` read after each (44_decoder.md R188): the symbols in order and
the last state, or none where a command raised an error. -/
def decodedSymbols : Nat → State → Option (List Symbol × State)
  | 0, s => some ([], s)
  | n + 1, s =>
    match issue (encode .decsym) s with
    | .next t =>
      if t.err = 0#4 then
        match decodedSymbols n t with
        | some (syms, u) => some (t.dsymSym :: syms, u)
        | none => none
      else none
    | .fault _ => none
    | .refused _ => none

/-- The entries a host reads from a core's table, as the commands that load them elsewhere (40_segment_builder.md
R112, steps 2 and 3). -/
def loadTable (s : State) : List Instr :=
  .segclr :: (presentSymbols s).flatMap fun sym => loadSegment sym (segmentOf s sym).lo (segmentOf s sym).hi

/-- The commands that give another core the table and `W` of this one (40_segment_builder.md R112). -/
def transmitTable (s : State) : List Instr := loadTable s ++ [.setw (s.w.setWidth 16)]

/-- The source's `decode` as a host issues it (44_decoder.md R188): the window, the table read from another core, the
bitstring, then the decoding session. The table and the bitstring are always sent, although R188 lets a host omit them
where they are in place (DESIGN CHOICE, log entry 5). -/
def hostDecode (w : Imm) (tableOf : State) (bits : BitString) (n : Imm) : List Instr :=
  .setw w :: (loadTable tableOf ++ loadbits bits ++ decodeSequence n)

end Sys2Proof.Machine
end

