-- ==== Sys2Proof/Safety.lean ====
section
/-! DEFINITION. What holds of every state a run reaches from reset, as decidable predicates: the invariants the spec
states of the registers, the memories and the sessions. -/

namespace Sys2Proof.Machine

/-- `W` is legal (10_state.md R24: "`W` never holds an illegal value"). -/
abbrev WindowLegal (s : State) : Prop := Config.wMin ≤ s.w.toNat ∧ s.w.toNat ≤ Config.wMax

/-- The pairs of `ERR` and `SUB` that occur (60_exceptions.md R231). -/
def errorPairs : List (BitVec 4 × BitVec 4) :=
  [(0, 0), (1, 1), (1, 2), (1, 3), (1, 4), (2, 1), (2, 2), (3, 1), (3, 2), (4, 1), (4, 2), (4, 3), (5, 1), (6, 1),
    (6, 2)]

/-- The error registers hold a listed pair, and `ERRCMD` is 0 when `ERR` is (60_exceptions.md R231; 10_state.md R26). -/
abbrev ErrorRegistersLegal (s : State) : Prop := (s.err, s.sub) ∈ errorPairs ∧ (s.err = 0#4 → s.errcmd = 0#32)

/-- The three memories have their canonical form. -/
abbrev MemoriesCanonical (s : State) : Prop :=
  Memory.wf Config.nSyms 0#16 s.cnt ∧ Memory.wf Config.nSyms Segment.empty s.seg ∧
    Memory.wf Config.bufBits false s.buf

/-- The sum of all counts. -/
def sumOfCounts (s : State) : Nat := (symbolCodes.map fun sym => (count s sym).toNat).sum

/-- `TOTAL` is the sum of the counts (10_state.md R29). -/
abbrev TotalIsSum (s : State) : Prop := s.total.toNat = sumOfCounts s

/-- `0 <= BITLEN <= BUF_BITS` (10_state.md R42). -/
abbrev BufferBounded (s : State) : Prop := s.bitlen.toNat ≤ Config.bufBits

/-- In a session the table is a partition, the interval straddles the midpoint, and the counters keep the bounds of
10_state.md R33 to R35. -/
abbrev SessionLegal (s : State) : Prop :=
  s.phase ≠ .idle →
    tableOk s = true ∧ s.l.toNat < rangeSize s / 2 ∧ rangeSize s / 2 ≤ s.h.toNat ∧ s.h.toNat < rangeSize s ∧
      s.since.toNat ≤ s.nsym.toNat ∧ s.te.toNat ≤ (s.w.toNat - 1) * s.nsym.toNat

/-- In a decoding session symbols remain, `V < N`, and the cursors are tied by `RDPTR = W + CURSOR + TE` (10_state.md
R37, R39, R40). The last bound is the model's own: it keeps `RDPTR` from wrapping. -/
abbrev DecoderLegal (s : State) : Prop :=
  s.phase = .dec →
    0 < s.drem.toNat ∧ s.nsym.toNat + s.drem.toNat ≤ Config.nsymMax ∧ s.v.toNat < rangeSize s ∧
      s.rdptr.toNat = s.w.toNat + s.cursor.toNat + s.te.toNat ∧
      s.rdptr.toNat ≤ s.w.toNat + 2 * s.w.toNat * s.nsym.toNat

/-- The index lies in the host's command list or just past it (10_state.md R23). -/
abbrev IndexInProgram (s : State) : Prop := s.pc ≤ s.program.length

/-- Everything above together: what holds of every state a run reaches from reset. -/
abbrev Inv (s : State) : Prop :=
  WindowLegal s ∧ ErrorRegistersLegal s ∧ MemoriesCanonical s ∧ TotalIsSum s ∧ BufferBounded s ∧ SessionLegal s ∧
    DecoderLegal s ∧ IndexInProgram s

end Sys2Proof.Machine
end

