-- ==== Sys2Proof/Certificates/Slice0/Obligations.lean ====
section
/-! DEFINITION. The statements for the provers, from the numbered rules of spec/. `Claims` holds the words they share,
written from the spec's numbers and not from the model's definitions. -/

namespace Sys2Proof.Claims

open Sys2Proof.Machine

/-- The state after raising error `e.sub` for the word `cmd`: the error registers and nothing else
(60_exceptions.md R232). -/
def withError (s : State) (e sub : Nat) (cmd : Word) : State :=
  { s with err := BitVec.ofNat 4 e, sub := BitVec.ofNat 4 sub, errcmd := cmd }

/-- Outside phase `p` the command raises `SEQUENCE.1` and does nothing else (60_exceptions.md R236). -/
def OnlyIn (p : Phase) (i : Instr) : Prop :=
  ∀ s : State, s.phase ≠ p → exec i s = .next (withError s 5 1 (encode i))

/-- `OPC`, `SYM` and `IMM` of a word as numbers (30_encoding.md R80). -/
def opc (cmd : Word) : Nat := cmd.toNat / 2 ^ 24
def symBits (cmd : Word) : Nat := cmd.toNat / 2 ^ 16 % 2 ^ 8
def immBits (cmd : Word) : Nat := cmd.toNat % 2 ^ 16

/-- The opcodes of each format (30_encoding.md R81, R83). -/
def opcodesF0 : List Nat := [0x00, 0x01, 0x02, 0x03, 0x20, 0x22, 0x28, 0x30, 0x40, 0x42, 0x51]
def opcodesFS : List Nat := [0x21, 0x41]
def opcodesFI : List Nat := [0x10, 0x50]

/-- The reserved opcodes (30_encoding.md R85). -/
def ReservedOpcode (o : Nat) : Prop :=
  (0x04 ≤ o ∧ o ≤ 0x0F) ∨ (0x11 ≤ o ∧ o ≤ 0x1F) ∨ (0x23 ≤ o ∧ o ≤ 0x27) ∨ (0x2B ≤ o ∧ o ≤ 0x2F) ∨
    (0x32 ≤ o ∧ o ≤ 0x3F) ∨ (0x43 ≤ o ∧ o ≤ 0x4F) ∨ (0x52 ≤ o ∧ o ≤ 0xFF)

/-- A nonzero field that the opcode's format does not use (30_encoding.md R86). -/
def NonzeroUnusedField (w : Word) : Prop :=
  ((opc w ∈ opcodesF0 ∨ opc w ∈ opcodesFI) ∧ symBits w ≠ 0) ∨
    ((opc w ∈ opcodesF0 ∨ opc w ∈ opcodesFS) ∧ immBits w ≠ 0)

/-- An operand out of the ranges checked at decode (30_encoding.md R87). -/
def OperandOutOfRange (w : Word) : Prop :=
  (opc w = 0x10 ∧ symBits w = 0 ∧ (immBits w < 2 ∨ 16 < immBits w)) ∨
    (opc w = 0x31 ∧ (symBits w < 1 ∨ 16 < symBits w ∨ 2 ^ symBits w ≤ immBits w))

/-- The phases a command is legal in (60_exceptions.md R236). -/
def phasesOf : Instr → List Phase
  | .nop | .reset | .clrerr | .abort => [.idle, .enc, .dec]
  | .setw _ | .cntclr | .cnt _ | .build | .segclr | .seglo _ _ | .seghi _ _ | .bufclr | .bufput _ _
  | .encstart | .decstart _ => [.idle]
  | .encsym _ | .encflush => [.enc]
  | .decsym => [.dec]

/-- The count of code `o` and the table entry of code `o`, by number. -/
def countAt (s : State) (o : Nat) : Nat := (count s (BitVec.ofNat 8 o)).toNat
def entryAt (s : State) (o : Nat) : Segment := segmentOf s (BitVec.ofNat 8 o)

/-- The sum of the counts of the codes below `o`, and where that sum cuts `[0, N-1]`: the ceiling of
`sum * N / TOTAL` (40_segment_builder.md R103). -/
def countBelow (s : State) (o : Nat) : Nat := ((List.range o).map (countAt s)).sum
def cut (s : State) (o : Nat) : Nat := (countBelow s o * 2 ^ s.w.toNat + s.total.toNat - 1) / s.total.toNat

/-- The number of codes with a nonzero count (40_segment_builder.md R106). -/
def codesCounted (s : State) : Nat := ((List.range 256).filter fun o => decide (0 < countAt s o)).length

/-- The present codes in ascending order, and the bounds of the `i`-th of them (40_segment_builder.md R108). -/
def presentCodes (s : State) : List Nat := (List.range 256).filter fun o => (entryAt s o).valid
def lowOf (s : State) (i : Nat) : Nat := (entryAt s ((presentCodes s).getD i 0)).lo.toNat
def highOf (s : State) (i : Nat) : Nat := (entryAt s ((presentCodes s).getD i 0)).hi.toNat

/-- A stream bit as a number. -/
def bitVal (s : State) (i : Nat) : Nat := (bitAt s i).toNat

/-- A symbol's segment projected onto the state's interval, and the renormalization of that projection. -/
def projected (s : State) (sym : Symbol) : Nat × Nat :=
  project (2 ^ s.w.toNat) (segmentOf s sym).lo.toNat (segmentOf s sym).hi.toNat s.l.toNat s.h.toNat
def renormed (s : State) (sym : Symbol) : Renormed :=
  renorm s.w.toNat (projected s sym).1 (projected s sym).2 s.te.toNat s.since.toNat

/-- Two states that differ at most in cells of `BUF` at or past `BITLEN` (20_memory.md R62). -/
def SameStream (s s' : State) : Prop :=
  s' = { s with buf := s'.buf } ∧ ∀ i, i < s.bitlen.toNat → cell s' i = cell s i

end Sys2Proof.Claims

open Sys2Proof Sys2Proof.Machine Sys2Proof.Claims

/-! ### Encoding (30_encoding.md) -/

/-- 30_encoding.md R92: the example words decode to the commands they stand for. -/
def Obligations.DecodesTheExampleWords : Prop :=
  decode 0x10000008#32 = .ok (.setw 8) ∧ decode 0x21610000#32 = .ok (.cnt 0x61) ∧
  decode 0x22000000#32 = .ok .build ∧ decode 0x296200E4#32 = .ok (.seglo 0x62 228) ∧
  decode 0x2A6200FF#32 = .ok (.seghi 0x62 255) ∧ decode 0x31030003#32 = .ok (.bufput 3 3) ∧
  decode 0x40000000#32 = .ok .encstart ∧ decode 0x41740000#32 = .ok (.encsym 0x74) ∧
  decode 0x42000000#32 = .ok .encflush ∧ decode 0x5000000B#32 = .ok (.decstart 11) ∧
  decode 0x51000000#32 = .ok .decsym

/-- 30_encoding.md R80 to R84: no bit of an encoding is dropped. -/
def Obligations.DecodeOfEncodeIsTheCommand : Prop :=
  ∀ i : Instr, i.wellFormed = true → decode (encode i) = .ok i

/-- 30_encoding.md R84: a word that decodes is the one encoding of a well-formed command. -/
def Obligations.DecodedWordsAreTheirOwnEncoding : Prop :=
  ∀ (w : Word) (i : Instr), decode w = .ok i → encode i = w ∧ i.wellFormed = true

/-- 30_encoding.md R85. -/
def Obligations.ReservedOpcodesRaiseIllegalOne : Prop :=
  ∀ w : Word, (decode w = .error .reservedOpcode ↔ ReservedOpcode (opc w)) ∧
    ∀ s : State, s.err = 0#4 → ReservedOpcode (opc w) → issue w s = .next (withError s 4 1 w)

/-- 30_encoding.md R86. -/
def Obligations.NonzeroUnusedFieldsRaiseIllegalTwo : Prop :=
  ∀ w : Word, (decode w = .error .mustBeZero ↔ NonzeroUnusedField w) ∧
    ∀ s : State, s.err = 0#4 → NonzeroUnusedField w → issue w s = .next (withError s 4 2 w)

/-- 30_encoding.md R87, with the two checks it names as made at execution. -/
def Obligations.OutOfRangeOperandsRaiseIllegalThree : Prop :=
  (∀ w : Word, (decode w = .error .operandRange ↔ OperandOutOfRange w) ∧
    ∀ s : State, s.err = 0#4 → OperandOutOfRange w → issue w s = .next (withError s 4 3 w)) ∧
  (∀ s : State, s.phase = .idle → exec (.decstart 0) s = .next (withError s 1 1 0x50000000#32)) ∧
  (∀ (s : State) (sym : Symbol), s.phase = .enc → (segmentOf s sym).valid = false →
    exec (.encsym sym) s = .next (withError s 1 3 (encode (.encsym sym))))

/-! ### The step and the errors (60_exceptions.md) -/

/-- 60_exceptions.md R230: the step runs the command the next word decodes to and moves the index past it. The gate is
open when no error is recorded or the command is `RESET` or `CLRERR`. -/
def Obligations.StepRunsTheDecodedCommand : Prop :=
  ∀ (s t : State) (w : Word) (i : Instr), s.program[s.pc]? = some w → decode w = .ok i →
    (s.err = 0#4 ∨ i = .reset ∨ i = .clrerr) → exec i s = .next t → step s = .next { t with pc := t.pc + 1 }

/-- 60_exceptions.md R233. -/
def Obligations.ErrorStateIgnoresOtherWords : Prop :=
  ∀ s : State, s.err ≠ 0#4 →
    (∀ w : Word, w ≠ 0x01000000#32 → w ≠ 0x02000000#32 →
      issue w s = .next s ∧ (s.program[s.pc]? = some w → step s = .next { s with pc := s.pc + 1 })) ∧
    issue 0x01000000#32 s = .next { State.reset with program := s.program, pc := s.pc } ∧
    issue 0x02000000#32 s = .next { s with err := 0#4, sub := 0#4, errcmd := 0#32 }

/-- 10_state.md R23: every step answers a next state; the index advances by one for every command and by nothing else,
and with no command the state is held (the model's reading of 60_exceptions.md R248, log entry 2). -/
def Obligations.EveryStepMovesTheIndexByOne : Prop :=
  ∀ s : State, ∃ t, step s = .next t ∧ t.program = s.program ∧
    (s.pc < s.program.length → t.pc = s.pc + 1) ∧ (s.program.length ≤ s.pc → t = s)

/-- 60_exceptions.md R232: an error records its code and the word, and changes nothing else. -/
def Obligations.ErrorsChangeOnlyTheErrorRegisters : Prop :=
  ∀ (w : Word) (s t : State), s.err = 0#4 → issue w s = .next t → t.err ≠ 0#4 →
    t = { s with err := t.err, sub := t.sub, errcmd := w } ∧ (t.err, t.sub) ∈ errorPairs ∧ t.sub ≠ 0#4

/-- 60_exceptions.md R236. -/
def Obligations.CommandsAreLegalInTheirPhasesOnly : Prop :=
  ∀ (i : Instr) (s : State), i.wellFormed = true →
    (s.phase ∉ phasesOf i → exec i s = .next (withError s 5 1 (encode i))) ∧
    (s.phase ∈ phasesOf i → s.err = 0#4 → ∀ t, exec i s = .next t → t.err ≠ 5#4)

/-- 46_control.md R217: which completed command moves `PHASE` where, and that nothing else moves it. -/
def Obligations.OnlySessionCommandsMoveThePhase : Prop :=
  ∀ (i : Instr) (s t : State), s.err = 0#4 → exec i s = .next t →
    (t.phase ≠ s.phase → t.err = 0#4 ∧
      ((i = .encstart ∧ s.phase = .idle ∧ t.phase = .enc) ∨ (i = .encflush ∧ s.phase = .enc ∧ t.phase = .idle) ∨
       ((∃ n, i = .decstart n) ∧ s.phase = .idle ∧ t.phase = .dec) ∨
       (i = .decsym ∧ s.phase = .dec ∧ t.phase = .idle ∧ t.drem = 0#16) ∨
       (i = .abort ∧ t.phase = .idle) ∨ (i = .reset ∧ t.phase = .idle))) ∧
    (t.err = 0#4 →
      (i = .encstart → t.phase = .enc) ∧ (i = .encflush → t.phase = .idle) ∧
      ((∃ n, i = .decstart n) → t.phase = .dec) ∧ (i = .decsym → t.drem = 0#16 → t.phase = .idle) ∧
      (i = .abort → t.phase = .idle) ∧ (i = .reset → t.phase = .idle))

/-- 70_reset_and_hazards.md R267: while a session is active no command but `RESET` changes `W`, the counts or the table,
and the bits already in the buffer stay. -/
def Obligations.SessionsLockTheConfiguration : Prop :=
  ∀ (i : Instr) (s t : State), s.phase ≠ .idle → i ≠ .reset → exec i s = .next t →
    t.w = s.w ∧ t.cnt = s.cnt ∧ t.total = s.total ∧ t.seg = s.seg ∧ s.bitlen.toNat ≤ t.bitlen.toNat ∧
      ∀ a, a < s.bitlen.toNat → bitAt t a = bitAt s a

/-! ### Reset and control (46_control.md, 10_state.md) -/

/-- 10_state.md R48: every state element after reset, that `TableOK` is false, and that no session can start. -/
def Obligations.ResetStateHoldsTheStatedValues : Prop :=
  let s := State.reset
  s.w.toNat = 8 ∧ s.err = 0 ∧ s.sub = 0 ∧ s.phase = .idle ∧ s.errcmd = 0 ∧ (∀ sym, count s sym = 0) ∧ s.total = 0 ∧
    (∀ sym, (segmentOf s sym).valid = false ∧ (segmentOf s sym).lo = 0 ∧ (segmentOf s sym).hi = 0) ∧
    s.l = 0 ∧ s.h = 0 ∧ s.v = 0 ∧ s.te = 0 ∧ s.since = 0 ∧ s.nsym = 0 ∧ s.cursor = 0 ∧ s.rdptr = 0 ∧ s.drem = 0 ∧
    s.dsymSym = 0 ∧ s.dsymValid = false ∧ (∀ i, cell s i = false) ∧ s.bitlen = 0 ∧
    readPort s 0x000 = 0x41430001#32 ∧ readPort s 0x010 = 0x00101002#32 ∧ tableOk s = false ∧
    exec .encstart s = .next (withError s 1 4 0x40000000#32) ∧
    ∀ n : Imm, exec (.decstart n) s = .next (withError s 1 (if n.toNat = 0 then 1 else 4) (encode (.decstart n)))

/-- 46_control.md R211: the state of the core after `RESET`, which `rst` gives too; the host's list and index stay, as
10_state.md R23 says of every command. -/
def Obligations.ResetCommandRestoresTheResetState : Prop :=
  encode .reset = 0x01000000#32 ∧
  (∀ s : State, exec .reset s = .next { State.reset with program := s.program, pc := s.pc } ∧
    issue 0x01000000#32 s = .next { State.reset with program := s.program, pc := s.pc }) ∧
  (∀ (p : PortState) (i : PortInput), i.rst = true → ∃ t, exec .reset p.core = .next t ∧
    { (clockEdge p i).core with program := t.program, pc := t.pc } = t) ∧
  ∀ (s : State) (w : Word), opc w = 0x01 → w ≠ 0x01000000#32 →
    (s.err = 0#4 → issue w s = .next (withError s 4 2 w)) ∧ (s.err ≠ 0#4 → issue w s = .next s)

/-- 46_control.md R212. -/
def Obligations.ClrerrReturnsFromTheErrorState : Prop :=
  encode .clrerr = 0x02000000#32 ∧
  (∀ s : State, exec .clrerr s = .next { s with err := 0#4, sub := 0#4, errcmd := 0#32 } ∧
    issue 0x02000000#32 s = .next { s with err := 0#4, sub := 0#4, errcmd := 0#32 }) ∧
  (∀ (s : State) (w : Word), opc w = 0x02 → w ≠ 0x02000000#32 →
    (s.err = 0#4 → issue w s = .next (withError s 4 2 w)) ∧ (s.err ≠ 0#4 → issue w s = .next s)) ∧
  (∀ s : State, ErrorRegistersLegal s → s.err = 0#4 → exec .clrerr s = .next s)

/-- 46_control.md R210 and R213, with the one encoding of `NOP`. -/
def Obligations.NopChangesNothingAndAbortEndsTheSession : Prop :=
  encode .nop = 0x00000000#32 ∧ encode .abort = 0x03000000#32 ∧
  (∀ w : Word, decode w = .ok .nop → w = 0x00000000#32) ∧
  (∀ s : State, exec .nop s = .next s) ∧ (∀ s : State, exec .abort s = .next { s with phase := .idle }) ∧
  (∀ s : State, s.err ≠ 0#4 → issue 0x00000000#32 s = .next s ∧ issue 0x03000000#32 s = .next s) ∧
  (∀ s : State, s.err = 0#4 → issue 0x00000001#32 s = .next (withError s 4 2 0x00000001#32))

/-- 46_control.md R215. -/
def Obligations.SetwSetsTheWindow : Prop :=
  ∀ imm : Imm,
    (encode (.setw imm)).toNat = 0x10000000 + imm.toNat ∧
    (2 ≤ imm.toNat ∧ imm.toNat ≤ 16 → OnlyIn .idle (.setw imm) ∧
      ∀ s : State, s.phase = .idle →
        ∃ t, exec (.setw imm) s = .next t ∧ t.w.toNat = imm.toNat ∧ t = { s with w := t.w }) ∧
    (¬ (2 ≤ imm.toNat ∧ imm.toNat ≤ 16) → ∀ s : State, s.err = 0#4 →
      issue (encode (.setw imm)) s = .next (withError s 4 3 (encode (.setw imm))))

/-! ### Builder and table (40_segment_builder.md) -/

/-- 40_segment_builder.md R101. -/
def Obligations.CntclrClearsEveryCount : Prop :=
  encode .cntclr = 0x20000000#32 ∧ OnlyIn .idle .cntclr ∧
  ∀ s : State, s.phase = .idle →
    ∃ t, exec .cntclr s = .next t ∧ (∀ sym, count t sym = 0#16) ∧ t.total = 0#16 ∧
      t = { s with cnt := t.cnt, total := t.total }

/-- 40_segment_builder.md R102. -/
def Obligations.CntCountsOneOccurrence : Prop :=
  ∀ sym : Symbol,
    (encode (.cnt sym)).toNat = 0x21000000 + sym.toNat * 0x10000 ∧ OnlyIn .idle (.cnt sym) ∧
    ∀ s : State, s.phase = .idle →
      (s.total.toNat = 65535 → exec (.cnt sym) s = .next (withError s 6 2 (encode (.cnt sym)))) ∧
      (s.total.toNat < 65535 → MemoriesCanonical s → TotalIsSum s →
        ∃ t, exec (.cnt sym) s = .next t ∧ (count t sym).toNat = (count s sym).toNat + 1 ∧
          (∀ o, o ≠ sym → count t o = count s o) ∧ t.total.toNat = s.total.toNat + 1 ∧
          t = { s with cnt := t.cnt, total := t.total })

/-- 40_segment_builder.md R106, with the partition of R103 in closed form: the segment of a present code runs from the
cut below it to the cut above it. -/
def Obligations.BuildPartitionsByTheCounts : Prop :=
  encode .build = 0x22000000#32 ∧ OnlyIn .idle .build ∧
  ∀ s : State, s.phase = .idle → WindowLegal s → TotalIsSum s →
    (s.total.toNat = 0 → exec .build s = .next (withError s 1 1 0x22000000#32)) ∧
    (0 < s.total.toNat → 2 ^ s.w.toNat < codesCounted s →
      exec .build s = .next (withError s 2 1 0x22000000#32)) ∧
    (0 < s.total.toNat → codesCounted s ≤ 2 ^ s.w.toNat →
      (∃ o, o < 256 ∧ 0 < countAt s o ∧ cut s (o + 1) ≤ cut s o) →
      exec .build s = .next (withError s 1 2 0x22000000#32)) ∧
    (0 < s.total.toNat → codesCounted s ≤ 2 ^ s.w.toNat →
      (∀ o, o < 256 → 0 < countAt s o → cut s o < cut s (o + 1)) →
      ∃ t, exec .build s = .next t ∧ t = { s with seg := t.seg } ∧
        ∀ o, o < 256 →
          (countAt s o = 0 → entryAt t o = ⟨false, 0#16, 0#16⟩) ∧
          (0 < countAt s o → (entryAt t o).valid = true ∧ (entryAt t o).lo.toNat = cut s o ∧
            (entryAt t o).hi.toNat + 1 = cut s (o + 1)))

/-- 40_segment_builder.md R108: the five conditions of `TableOK`, and that a table `BUILD` produced meets them at the
same `W`. -/
def Obligations.TableOkIsTheFiveConditions : Prop :=
  (∀ s : State, tableOk s = true ↔
    1 ≤ (presentCodes s).length ∧ lowOf s 0 = 0 ∧
    (∀ i, i < (presentCodes s).length → lowOf s i ≤ highOf s i) ∧
    (∀ i, i + 1 < (presentCodes s).length → lowOf s (i + 1) = highOf s i + 1) ∧
    highOf s ((presentCodes s).length - 1) = 2 ^ s.w.toNat - 1) ∧
  ∀ s t : State, WindowLegal s → TotalIsSum s → s.err = 0#4 → exec .build s = .next t → t.err = 0#4 →
    tableOk t = true ∧ t.w = s.w

/-- 40_segment_builder.md R109. -/
def Obligations.SegclrEmptiesTheTable : Prop :=
  encode .segclr = 0x28000000#32 ∧ OnlyIn .idle .segclr ∧
  ∀ s : State, s.phase = .idle →
    ∃ t, exec .segclr s = .next t ∧
      (∀ sym, (segmentOf t sym).valid = false ∧ (segmentOf t sym).lo = 0#16 ∧ (segmentOf t sym).hi = 0#16) ∧
      tableOk t = false ∧ t = { s with seg := t.seg }

/-- 40_segment_builder.md R110 and R111: the entry written, an absent symbol left absent and unread by `SEGLO`, and the
only commands that make a present symbol absent. -/
def Obligations.SegloAndSeghiWriteOneEntry : Prop :=
  ∀ (sym : Symbol) (imm : Imm),
    (encode (.seglo sym imm)).toNat = 0x29000000 + sym.toNat * 0x10000 + imm.toNat ∧
    (encode (.seghi sym imm)).toNat = 0x2A000000 + sym.toNat * 0x10000 + imm.toNat ∧
    OnlyIn .idle (.seglo sym imm) ∧ OnlyIn .idle (.seghi sym imm) ∧
    ∀ s : State, s.phase = .idle → MemoriesCanonical s →
      (∃ t, exec (.seglo sym imm) s = .next t ∧ (segmentOf t sym).lo = imm ∧
        (segmentOf t sym).valid = (segmentOf s sym).valid ∧ (segmentOf t sym).hi = (segmentOf s sym).hi ∧
        (∀ o, o ≠ sym → segmentOf t o = segmentOf s o) ∧ t = { s with seg := t.seg } ∧
        ((segmentOf s sym).valid = false → tableOk t = tableOk s)) ∧
      (∃ t, exec (.seghi sym imm) s = .next t ∧ (segmentOf t sym).hi = imm ∧ (segmentOf t sym).valid = true ∧
        (segmentOf t sym).lo = (segmentOf s sym).lo ∧
        (∀ o, o ≠ sym → segmentOf t o = segmentOf s o) ∧ t = { s with seg := t.seg }) ∧
      ∀ (i : Instr) (t : State) (o : Symbol), exec i s = .next t → (segmentOf s o).valid = true →
        (segmentOf t o).valid = false → i = .segclr ∨ i = .build ∨ i = .reset

/-! ### Interval narrowing (41_interval_narrowing.md) -/

/-- 41_interval_narrowing.md R130: the projection, with the ceilings of the rationals and, for `N = 2^W`, as shifts. -/
def Obligations.ProjectScalesTheSegment : Prop :=
  ∀ n sl sh l h : Nat, 0 < n → sl ≤ sh → sh < n → l ≤ h → h < n →
    ((project n sl sh l h).1 : ℤ) = l + ⌈((sl : ℚ) * ((h : ℚ) - l + 1)) / n⌉ ∧
    ((project n sl sh l h).2 : ℤ) = l + ⌈(((sh : ℚ) + 1) * ((h : ℚ) - l + 1)) / n⌉ - 1 ∧
    ∀ w : Nat, n = 2 ^ w →
      (project n sl sh l h).1 = l + (sl * (h - l + 1) + n - 1) >>> w ∧
      (project n sl sh l h).2 + 1 = l + ((sh + 1) * (h - l + 1) + n - 1) >>> w

/-- 41_interval_narrowing.md R131: containment, consecutive pieces, the lower bound, when the piece is not empty, and the
identity on the full segment. -/
def Obligations.ProjectionsPartitionTheInterval : Prop :=
  ∀ n sl sh l h : Nat, sl ≤ sh → sh < n → l ≤ h → h < n →
    l ≤ (project n sl sh l h).1 ∧ (project n sl sh l h).2 ≤ h ∧
    (project n sl sh l h).1 ≤ (project n sl sh l h).2 + 1 ∧
    (n ≤ (sh - sl + 1) * (h - l + 1) → (project n sl sh l h).1 ≤ (project n sl sh l h).2) ∧
    project n 0 (n - 1) l h = (l, h) ∧ (project n 0 sh l h).1 = l ∧ (project n sl (n - 1) l h).2 = h ∧
    ∀ sh', sh < sh' → sh' < n → (project n (sh + 1) sh' l h).1 = (project n sl sh l h).2 + 1

/-- 41_interval_narrowing.md R133: the position is the exact floor, lies in range, and inverts the projection. -/
def Obligations.PositionInvertsTheProjection : Prop :=
  ∀ n v l h : Nat, 0 < n → l ≤ v → v ≤ h → h < n →
    (position n v l h : ℤ) = ⌊(((v : ℚ) - l) * n) / ((h : ℚ) - l + 1)⌋ ∧ position n v l h < n ∧
    ∀ sl sh : Nat, sl ≤ sh → sh < n →
      ((project n sl sh l h).1 ≤ v ∧ v ≤ (project n sl sh l h).2 ↔
        sl ≤ position n v l h ∧ position n v l h ≤ sh)

/-- 41_interval_narrowing.md R134. -/
def Obligations.SegmentAtFindsTheOneSegment : Prop :=
  ∀ (s : State) (pos : Nat), tableOk s = true → pos < 2 ^ s.w.toNat →
    ∃ sym, segmentAt s pos = some sym ∧ (segmentOf s sym).valid = true ∧ (segmentOf s sym).lo.toNat ≤ pos ∧
      pos ≤ (segmentOf s sym).hi.toNat ∧
      ∀ o, (segmentOf s o).valid = true → (segmentOf s o).lo.toNat ≤ pos → pos ≤ (segmentOf s o).hi.toNat → o = sym

/-- 41_interval_narrowing.md R135: the lookahead lies in the projection of the symbol found for it. -/
def Obligations.LookaheadLiesInItsSymbolsProjection : Prop :=
  ∀ (s : State) (sym : Symbol), tableOk s = true → s.l.toNat ≤ s.v.toNat → s.v.toNat ≤ s.h.toNat →
    s.h.toNat < 2 ^ s.w.toNat →
    segmentAt s (position (2 ^ s.w.toNat) s.v.toNat s.l.toNat s.h.toNat) = some sym →
    (projected s sym).1 ≤ s.v.toNat ∧ s.v.toNat ≤ (projected s sym).2

/-! ### Underflow renormalization (42_underflow_renormalization.md) -/

/-- 42_underflow_renormalization.md R141. -/
def Obligations.SharedRunIsTheLongestCommonRun : Prop :=
  ∀ w l h : Nat,
    sharedRun w l h ≤ w ∧
    (∀ j, j < sharedRun w l h → l.testBit (w - 1 - j) = h.testBit (w - 1 - j)) ∧
    (sharedRun w l h < w → l.testBit (w - 1 - sharedRun w l h) ≠ h.testBit (w - 1 - sharedRun w l h)) ∧
    (l ≤ h → h < 2 ^ w → (sharedRun w l h = w ↔ l = h) ∧
      (sharedRun w l h < w → l.testBit (w - 1 - sharedRun w l h) = false ∧
        h.testBit (w - 1 - sharedRun w l h) = true))

/-- 42_underflow_renormalization.md R147 and R151: the bits of a strip, and its value. -/
def Obligations.StripDropsTheSecondBit : Prop :=
  ∀ (w x : Nat) (f : Bool), 2 ≤ w → x < 2 ^ w →
    strip w x f < 2 ^ w ∧ (strip w x f).testBit (w - 1) = x.testBit (w - 1) ∧ (strip w x f).testBit 0 = f ∧
    (∀ i, 1 ≤ i → i < w - 1 → (strip w x f).testBit i = x.testBit (i - 1)) ∧
    strip w x f + ((x.testBit (w - 1)).toNat + (x.testBit (w - 2)).toNat) * 2 ^ (w - 1) = 2 * x + f.toNat

/-- 42_underflow_renormalization.md R150, from the bits emitted (R142, R143, R149), the shift (R144), the straddle count
(R146), the strips (R147) and the counters (R148). -/
def Obligations.RenormFollowsItsRule : Prop :=
  ∀ w l1 h1 te since : Nat, 2 ≤ w → l1 ≤ h1 → h1 < 2 ^ w →
    let r := renorm w l1 h1 te since
    let k := sharedRun w l1 h1
    let l2 := if 0 < k then (l1 <<< k) % 2 ^ w else l1
    let h2 := if 0 < k then ((h1 <<< k) + 2 ^ k - 1) % 2 ^ w else h1
    let c := ((Finset.range (w - 1)).filter fun i => l2.testBit i = true ∧ h2.testBit i = false).card
    r.k = k ∧ r.c = c ∧ c ≤ w - 1 ∧
    r.l = (fun x => strip w x false)^[c] l2 ∧ r.h = (fun x => strip w x true)^[c] h2 ∧
    (k = 0 → r.out = [] ∧ r.te = te + c ∧ r.since = since + 1) ∧
    (0 < k → r.te = c ∧ r.since = 0 ∧
      r.out = l1.testBit (w - 1) :: (List.replicate te (!l1.testBit (w - 1)) ++
        (List.range (k - 1)).map fun j => l1.testBit (w - 2 - j)))

/-- 42_underflow_renormalization.md R150, its output properties: the interval contains the midpoint, the number of bits
emitted, and the bound on the pending count. -/
def Obligations.RenormRestoresTheMidpoint : Prop :=
  ∀ w l1 h1 te since : Nat, 2 ≤ w → l1 ≤ h1 → h1 < 2 ^ w →
    let r := renorm w l1 h1 te since
    r.l < 2 ^ (w - 1) ∧ 2 ^ (w - 1) ≤ r.h ∧ r.h < 2 ^ w ∧
      r.out.length = (if 0 < r.k then r.k + te else 0) ∧ r.te ≤ te + (w - 1)

/-! ### Encoder (43_encoder.md) -/

/-- 43_encoder.md R161. -/
def Obligations.EncstartOpensASession : Prop :=
  encode .encstart = 0x40000000#32 ∧ OnlyIn .idle .encstart ∧
  ∀ s : State, s.phase = .idle →
    (tableOk s = false → exec .encstart s = .next (withError s 1 4 0x40000000#32)) ∧
    (tableOk s = true → WindowLegal s →
      ∃ t, exec .encstart s = .next t ∧ t.l = 0#16 ∧ t.h.toNat = 2 ^ s.w.toNat - 1 ∧ t.te = 0#32 ∧ t.since = 0#16 ∧
        t.nsym = 0#16 ∧ t.bitlen = 0#17 ∧ t.phase = .enc ∧
        t = { s with l := t.l, h := t.h, te := t.te, since := t.since, nsym := t.nsym, bitlen := t.bitlen,
                     phase := t.phase })

/-- 43_encoder.md R162: the errors in their order, and the commit with its frame. -/
def Obligations.EncsymEncodesOneSymbol : Prop :=
  ∀ sym : Symbol,
    (encode (.encsym sym)).toNat = 0x41000000 + sym.toNat * 0x10000 ∧ OnlyIn .enc (.encsym sym) ∧
    ∀ s : State, s.phase = .enc →
      let p := projected s sym
      let r := renormed s sym
      ((segmentOf s sym).valid = false → exec (.encsym sym) s = .next (withError s 1 3 (encode (.encsym sym)))) ∧
      ((segmentOf s sym).valid = true → s.nsym.toNat = 65535 →
        exec (.encsym sym) s = .next (withError s 6 2 (encode (.encsym sym)))) ∧
      ((segmentOf s sym).valid = true → s.nsym.toNat < 65535 → p.2 < p.1 →
        exec (.encsym sym) s = .next (withError s 2 2 (encode (.encsym sym)))) ∧
      ((segmentOf s sym).valid = true → s.nsym.toNat < 65535 → p.1 ≤ p.2 → 65536 < s.bitlen.toNat + r.out.length →
        exec (.encsym sym) s = .next (withError s 6 1 (encode (.encsym sym)))) ∧
      ((segmentOf s sym).valid = true → s.nsym.toNat < 65535 → p.1 ≤ p.2 → s.bitlen.toNat + r.out.length ≤ 65536 →
        WindowLegal s → MemoriesCanonical s → SessionLegal s →
        ∃ t, exec (.encsym sym) s = .next t ∧ t.l.toNat = r.l ∧ t.h.toNat = r.h ∧ t.te.toNat = r.te ∧
          t.since.toNat = r.since ∧ t.nsym.toNat = s.nsym.toNat + 1 ∧
          t.bitlen.toNat = s.bitlen.toNat + r.out.length ∧
          (∀ j (hj : j < r.out.length), cell t (s.bitlen.toNat + j) = r.out[j]) ∧
          (∀ a, a < s.bitlen.toNat ∨ s.bitlen.toNat + r.out.length ≤ a → cell t a = cell s a) ∧
          t = { s with l := t.l, h := t.h, te := t.te, since := t.since, nsym := t.nsym, bitlen := t.bitlen,
                       buf := t.buf })

/-- 43_encoder.md R165 and R166: the errors in their order, the terminator `1 0 ... 0`, and the frame. -/
def Obligations.EncflushEmitsTheTerminator : Prop :=
  encode .encflush = 0x42000000#32 ∧ OnlyIn .enc .encflush ∧
  ∀ s : State, s.phase = .enc →
    (s.nsym.toNat = 0 → exec .encflush s = .next (withError s 1 1 0x42000000#32)) ∧
    (0 < s.nsym.toNat → 65536 < s.bitlen.toNat + 1 + s.since.toNat →
      exec .encflush s = .next (withError s 6 1 0x42000000#32)) ∧
    (0 < s.nsym.toNat → s.bitlen.toNat + 1 + s.since.toNat ≤ 65536 → MemoriesCanonical s →
      ∃ t, exec .encflush s = .next t ∧ t.phase = .idle ∧ t.bitlen.toNat = s.bitlen.toNat + 1 + s.since.toNat ∧
        cell t s.bitlen.toNat = true ∧
        (∀ j, 1 ≤ j → j ≤ s.since.toNat → cell t (s.bitlen.toNat + j) = false) ∧
        (∀ a, a < s.bitlen.toNat ∨ s.bitlen.toNat + 1 + s.since.toNat ≤ a → cell t a = cell s a) ∧
        t = { s with phase := t.phase, bitlen := t.bitlen, buf := t.buf })

/-- 43_encoder.md R160, R169: the bitstring of a session depends on the table, `W` and the symbols alone. -/
def Obligations.EncodingDependsOnTableWindowAndSymbols : Prop :=
  ∀ (syms : List Symbol) (s s' t : State), s.w = s'.w → s.seg = s'.seg → s.phase = .idle → s'.phase = .idle →
    s.err = 0#4 → s'.err = 0#4 → MemoriesCanonical s → MemoriesCanonical s' →
    issueAll (wordsOf (encodingSession syms)) s = .next t →
    ∃ t', issueAll (wordsOf (encodingSession syms)) s' = .next t' ∧ t'.err = t.err ∧
      (t.err ≠ 0#4 → t'.sub = t.sub) ∧
      (t.err = 0#4 → t'.bitlen = t.bitlen ∧ t'.nsym = t.nsym ∧ ∀ i, bitAt t' i = bitAt t i)

/-! ### Decoder (44_decoder.md) -/

/-- 44_decoder.md R181. -/
def Obligations.DecstartLoadsTheLookahead : Prop :=
  ∀ n : Imm,
    (encode (.decstart n)).toNat = 0x50000000 + n.toNat ∧ OnlyIn .idle (.decstart n) ∧
    ∀ s : State, s.phase = .idle →
      (n.toNat = 0 → exec (.decstart n) s = .next (withError s 1 1 (encode (.decstart n)))) ∧
      (0 < n.toNat → tableOk s = false → exec (.decstart n) s = .next (withError s 1 4 (encode (.decstart n)))) ∧
      (0 < n.toNat → tableOk s = true → WindowLegal s →
        ∃ t, exec (.decstart n) s = .next t ∧ t.l = 0#16 ∧ t.h.toNat = 2 ^ s.w.toNat - 1 ∧ t.te = 0#32 ∧
          t.since = 0#16 ∧ t.nsym = 0#16 ∧ t.cursor = 0#32 ∧
          t.v.toNat = ∑ j ∈ Finset.range s.w.toNat, bitVal s j * 2 ^ (s.w.toNat - 1 - j) ∧
          t.rdptr.toNat = s.w.toNat ∧ t.drem = n ∧ t.dsymSym = 0#8 ∧ t.dsymValid = false ∧ t.phase = .dec ∧
          t = { s with l := t.l, h := t.h, te := t.te, since := t.since, nsym := t.nsym, cursor := t.cursor,
                       v := t.v, rdptr := t.rdptr, drem := t.drem, dsymSym := t.dsymSym,
                       dsymValid := t.dsymValid, phase := t.phase })

/-- 44_decoder.md R182, with R183, R184, R186 and R187: the errors in their order, and the commit with its frame. -/
def Obligations.DecsymDecodesOneSymbol : Prop :=
  encode .decsym = 0x51000000#32 ∧ OnlyIn .dec .decsym ∧
  ∀ s : State, s.phase = .dec →
    (s.bitlen.toNat < s.cursor.toNat → exec .decsym s = .next (withError s 3 2 0x51000000#32)) ∧
    (s.cursor.toNat ≤ s.bitlen.toNat → s.v.toNat < s.l.toNat ∨ s.h.toNat < s.v.toNat →
      exec .decsym s = .next (withError s 3 1 0x51000000#32)) ∧
    (s.cursor.toNat ≤ s.bitlen.toNat → s.l.toNat ≤ s.v.toNat → s.v.toNat ≤ s.h.toNat →
      WindowLegal s → SessionLegal s → DecoderLegal s →
      ∃ t sym,
        segmentAt s (position (2 ^ s.w.toNat) s.v.toNat s.l.toNat s.h.toNat) = some sym ∧
        exec .decsym s = .next t ∧
        t.l.toNat = (renormed s sym).l ∧ t.h.toNat = (renormed s sym).h ∧ t.te.toNat = (renormed s sym).te ∧
        t.since.toNat = (renormed s sym).since ∧
        (t.v.toNat, t.rdptr.toNat) =
          advance (bitAt s) s.w.toNat s.v.toNat s.rdptr.toNat (renormed s sym).k (renormed s sym).c ∧
        t.cursor.toNat =
          s.cursor.toNat + (if 0 < (renormed s sym).k then (renormed s sym).k + s.te.toNat else 0) ∧
        t.dsymSym = sym ∧ t.dsymValid = true ∧ t.nsym.toNat = s.nsym.toNat + 1 ∧
        t.drem.toNat + 1 = s.drem.toNat ∧ t.phase = (if s.drem.toNat = 1 then .idle else .dec) ∧
        t = { s with l := t.l, h := t.h, te := t.te, since := t.since, v := t.v, rdptr := t.rdptr,
                     cursor := t.cursor, dsymSym := t.dsymSym, dsymValid := t.dsymValid, nsym := t.nsym,
                     drem := t.drem, phase := t.phase })

/-- 44_decoder.md R185: all the shifts, then all the strips, each taking the next stream bit. -/
def Obligations.AdvanceShiftsThenStrips : Prop :=
  ∀ (bit : Nat → Bool) (w v p k c : Nat),
    let shift : Nat × Nat → Nat × Nat := fun q => ((q.1 <<< 1 ||| (bit q.2).toNat) % 2 ^ w, q.2 + 1)
    let strip1 : Nat × Nat → Nat × Nat := fun q => (strip w q.1 (bit q.2), q.2 + 1)
    advance bit w v p k c = strip1^[c] (shift^[k] (v, p)) ∧ (advance bit w v p k c).2 = p + k + c ∧
      (2 ≤ w → v < 2 ^ w → (advance bit w v p k c).1 < 2 ^ w)

/-- 44_decoder.md R190: the only errors of a legal `DECSYM` are `CORRUPT.1` and `CORRUPT.2`. In states no run from reset
reaches, where the table fails `TableOK`, that a position in no segment raises `CORRUPT.1` is the model's choice (log
entry 8). -/
def Obligations.DecsymRaisesOnlyCorrupt : Prop :=
  ∀ s t : State, s.phase = .dec → s.err = 0#4 → exec .decsym s = .next t → t.err ≠ 0#4 →
    t.err = 3#4 ∧ (t.sub = 1#4 ∨ t.sub = 2#4)

/-- 44_decoder.md R180, R186: when `DECSYM` decodes the symbol that `ENCSYM` encoded from the same coding registers, the
registers agree again and `CURSOR` grows by what `BITLEN` grew by. -/
def Obligations.DecoderMirrorsTheEncoder : Prop :=
  ∀ (s d s' d' : State) (sym : Symbol), s.phase = .enc → d.phase = .dec → s.err = 0#4 → d.err = 0#4 →
    WindowLegal s → SessionLegal s → SessionLegal d → DecoderLegal d →
    s.w = d.w → s.seg = d.seg → s.l = d.l → s.h = d.h → s.te = d.te → s.since = d.since →
    exec (.encsym sym) s = .next s' → s'.err = 0#4 → exec .decsym d = .next d' → d'.err = 0#4 → d'.dsymSym = sym →
    d'.l = s'.l ∧ d'.h = s'.h ∧ d'.te = s'.te ∧ d'.since = s'.since ∧
      d'.cursor.toNat + s.bitlen.toNat = d.cursor.toNat + s'.bitlen.toNat

/-- 20_memory.md R78, 44_decoder.md R188: what a session decodes depends on `W`, the table, the bitstring and the count
alone. -/
def Obligations.DecodingDependsOnWindowTableAndBits : Prop :=
  ∀ (n : Imm) (k : Nat) (s s' t : State), s.w = s'.w → s.seg = s'.seg → s.bitlen = s'.bitlen →
    (∀ i, bitAt s i = bitAt s' i) → s.phase = .idle → s'.phase = .idle → s.err = 0#4 → s'.err = 0#4 →
    issue (encode (.decstart n)) s = .next t →
    ∃ t', issue (encode (.decstart n)) s' = .next t' ∧ t'.err = t.err ∧
      (t.err = 0#4 → (decodedSymbols k t').map Prod.fst = (decodedSymbols k t).map Prod.fst)

/-- 44_decoder.md R189, which leaves it to the model to prove or refute: when an encoding session over any table
completes without error, the decoding session over the buffer it left gives back its symbols in order. -/
def Obligations.DecodingUndoesEncoding : Prop :=
  ∀ (syms : List Symbol) (s s1 : State), Inv s → s.phase = .idle → s.err = 0#4 →
    issueAll (wordsOf (encodingSession syms)) s = .next s1 → s1.err = 0#4 →
    ∃ s2 s3, issue (encode (.decstart (BitVec.ofNat 16 syms.length))) s1 = .next s2 ∧ s2.err = 0#4 ∧
      decodedSymbols syms.length s2 = some (syms, s3) ∧ s3.phase = .idle

/-! ### Bit buffer (20_memory.md, 45_bit_buffer.md) -/

/-- 20_memory.md R62 and R63: what `BitAt` reads after `Append`, at every index. -/
def Obligations.AppendWritesInEmissionOrder : Prop :=
  ∀ (s : State) (bits : BitString), MemoriesCanonical s → s.bitlen.toNat + bits.length ≤ 65536 →
    (appendBits bits s).bitlen.toNat = s.bitlen.toNat + bits.length ∧
    (∀ i, bitAt (appendBits bits s) i =
      if i < s.bitlen.toNat then bitAt s i else bits.getD (i - s.bitlen.toNat) false) ∧
    (∀ i, s.bitlen.toNat ≤ i → bitAt s i = false) ∧ (∀ i, i < s.bitlen.toNat → bitAt s i = cell s i)

/-- 45_bit_buffer.md R200. -/
def Obligations.BufclrEmptiesTheBuffer : Prop :=
  encode .bufclr = 0x30000000#32 ∧ OnlyIn .idle .bufclr ∧
  ∀ s : State, s.phase = .idle →
    ∃ t, exec .bufclr s = .next t ∧ t.bitlen = 0#17 ∧ (∀ i, cell t i = cell s i) ∧
      (∀ j : Nat, j < 2048 → readPort t (BitVec.ofNat 12 (0x400 + j)) = 0#32) ∧ t = { s with bitlen := t.bitlen }

/-- 45_bit_buffer.md R201. -/
def Obligations.BufputAppendsTheHighestBitFirst : Prop :=
  ∀ (n : BitVec 8) (bits : Imm),
    (encode (.bufput n bits)).toNat = 0x31000000 + n.toNat * 0x10000 + bits.toNat ∧
    (¬ (1 ≤ n.toNat ∧ n.toNat ≤ 16 ∧ bits.toNat < 2 ^ n.toNat) → ∀ s : State, s.err = 0#4 →
      issue (encode (.bufput n bits)) s = .next (withError s 4 3 (encode (.bufput n bits)))) ∧
    (1 ≤ n.toNat → n.toNat ≤ 16 → bits.toNat < 2 ^ n.toNat → OnlyIn .idle (.bufput n bits) ∧
      ∀ s : State, s.phase = .idle →
        (65536 < s.bitlen.toNat + n.toNat →
          exec (.bufput n bits) s = .next (withError s 6 1 (encode (.bufput n bits)))) ∧
        (s.bitlen.toNat + n.toNat ≤ 65536 → MemoriesCanonical s →
          ∃ t, exec (.bufput n bits) s = .next t ∧ t.bitlen.toNat = s.bitlen.toNat + n.toNat ∧
            (∀ j, j < n.toNat → cell t (s.bitlen.toNat + j) = bits.getLsbD (n.toNat - 1 - j)) ∧
            (∀ a, a < s.bitlen.toNat ∨ s.bitlen.toNat + n.toNat ≤ a → cell t a = cell s a) ∧
            t = { s with bitlen := t.bitlen, buf := t.buf }))

/-- 45_bit_buffer.md R202: `LOADBITS` loads the bitstring it is given. -/
def Obligations.LoadbitsLoadsTheBitstring : Prop :=
  ∀ (bits : BitString) (s : State), bits.length ≤ 65536 → s.phase = .idle → s.err = 0#4 → MemoriesCanonical s →
    ∃ t, issueAll (wordsOf (loadbits bits)) s = .next t ∧ t.err = 0#4 ∧ t.bitlen.toNat = bits.length ∧
      (∀ i (hi : i < bits.length), bitAt t i = bits[i]) ∧ t = { s with bitlen := t.bitlen, buf := t.buf }

/-! ### The ports (10_state.md, 20_memory.md) -/

/-- 10_state.md R47: the register map, that a read address changes nothing, and that with no command offered and none in
flight an edge leaves the core as it is. -/
def Obligations.ReadPortFollowsTheRegisterMap : Prop :=
  ∀ s : State,
    readPort s 0x000 = 0x41430001#32 ∧
    (readPort s 0x001).toNat =
      (match s.phase with | .idle => 0 | .enc => 1 | .dec => 2) * 256 + s.sub.toNat * 16 + s.err.toNat ∧
    readPort s 0x002 = s.errcmd ∧ (readPort s 0x003).toNat = s.w.toNat ∧ (readPort s 0x004).toNat = s.l.toNat ∧
    (readPort s 0x005).toNat = s.h.toNat ∧ (readPort s 0x006).toNat = s.v.toNat ∧ readPort s 0x007 = s.te ∧
    (readPort s 0x008).toNat = s.since.toNat ∧ (readPort s 0x009).toNat = s.nsym.toNat ∧
    (readPort s 0x00A).toNat = s.bitlen.toNat ∧ readPort s 0x00B = s.cursor ∧ readPort s 0x00C = s.rdptr ∧
    (readPort s 0x00D).toNat = s.drem.toNat ∧
    (readPort s 0x00E).toNat = s.dsymValid.toNat * 256 + s.dsymSym.toNat ∧
    (readPort s 0x00F).toNat = s.total.toNat ∧ readPort s 0x010 = 0x00101002#32 ∧
    (∀ a : Nat, 0x011 ≤ a ∧ a ≤ 0x0FF ∨ 0xC00 ≤ a ∧ a ≤ 0xFFF → readPort s (BitVec.ofNat 12 a) = 0#32) ∧
    (∀ o : Nat, o < 256 →
      (readPort s (BitVec.ofNat 12 (0x100 + o))).toNat = countAt s o ∧
      (readPort s (BitVec.ofNat 12 (0x200 + o))).toNat =
        (entryAt s o).valid.toNat * 2 ^ 31 + (entryAt s o).lo.toNat ∧
      (readPort s (BitVec.ofNat 12 (0x300 + o))).toNat = (entryAt s o).hi.toNat) ∧
    (∀ j : Nat, j < 2048 → readPort s (BitVec.ofNat 12 (0x400 + j)) = bufWord s j) ∧
    readPort State.reset 0x003 = 8#32 ∧
    (∀ a : BitVec 12, a ≠ 0x000 → a ≠ 0x003 → a ≠ 0x010 → readPort State.reset a = 0#32) ∧
    ∀ (p : PortState) (i : PortInput), (∀ a, clockEdge p { i with rdAddr := a } = clockEdge p i) ∧
      (p.inFlight = none → i.rst = false → i.cmdValid = false → (clockEdge p i).core = p.core)

/-- 20_memory.md R64: the read window packs the stream most significant bit first. -/
def Obligations.ReadWindowPacksTheStream : Prop :=
  ∀ (s : State) (j b : Nat), j < 2048 → b < 32 →
    (readPort s (BitVec.ofNat 12 (0x400 + j))).getLsbD (31 - b) = bitAt s (32 * j + b) ∧
      (s.bitlen.toNat ≤ 32 * j + b → (readPort s (BitVec.ofNat 12 (0x400 + j))).getLsbD (31 - b) = false)

/-- 10_state.md R42, 20_memory.md R62: cells at or past `BITLEN` are never observed, by a read or through a step. -/
def Obligations.CellsPastTheEndAreNeverObserved : Prop :=
  ∀ s s' : State, SameStream s s' → MemoriesCanonical s → MemoriesCanonical s' →
    (∀ addr, readPort s' addr = readPort s addr) ∧
    ∀ t, step s = .next t → ∃ t', step s' = .next t' ∧ SameStream t t'

/-- 20_memory.md R71, 70_reset_and_hazards.md R271, R272, 10_state.md R23, R46: a command offered with none in flight is accepted; before its
latency has passed the core is busy and its state, but for the host's index, is untouched; at the edge at which it has
passed the command has its whole effect and the core is ready. The latency is a free value. Two points are the model's
choice: that the latency may be 0 (log entry 3), and that the index moves at acceptance (log entry 18). -/
def Obligations.PortCompletesEveryAcceptedCommand : Prop :=
  ∀ (p : PortState) (i : PortInput), p.inFlight = none → i.rst = false → i.cmdValid = true →
    let n := Config.cmdLatency p.edges i.cmdData
    let s := { p.core with pc := p.core.pc + 1 }
    accepts p i = true ∧
    ∀ later : List PortInput, (∀ j ∈ later, j.rst = false) → later.length ≤ n →
      let q := clockEdges (clockEdge p i) later
      (later.length < n → q.core = s ∧ cmdReady q = false) ∧
      (later.length = n → issue i.cmdData s = .next q.core ∧ cmdReady q = true)

/-- 60_exceptions.md R230, 20_memory.md R70, R71, 10_state.md R46: a host that offers the next word of its list gets exactly one step. The
latency is a free value, and that it may be 0 is the model's choice (log entry 3). -/
def Obligations.PortRunsTheListAsSteps : Prop :=
  ∀ (p : PortState) (i : PortInput) (later : List PortInput), p.inFlight = none → i.rst = false → i.cmdValid = true →
    p.core.program[p.core.pc]? = some i.cmdData → (∀ j ∈ later, j.rst = false) →
    later.length = Config.cmdLatency p.edges i.cmdData →
    step p.core = .next (clockEdges (clockEdge p i) later).core

/-- 70_reset_and_hazards.md R260, 10_state.md R46: `rst` at an edge gives the reset state and a ready core, whatever
was in flight or offered. That the host's index stays there is the model's choice (log entry 6). -/
def Obligations.RstAbandonsTheCommandInFlight : Prop :=
  ∀ (p : PortState) (i : PortInput), i.rst = true →
    accepts p i = false ∧
    (clockEdge p i).core = { State.reset with program := p.core.program, pc := p.core.pc } ∧
    cmdReady (clockEdge p i) = true

/-! ### Invariants -/

/-- 10_state.md R48: the reset state meets the whole invariant. The clause on the memories' form speaks of the model's own
representation (log entry 15), and the clause on the index rests on the empty list and the index 0 the model chose (log
entry 1). -/
def Obligations.ResetMeetsTheInvariant : Prop := Inv State.reset

/-- 10_state.md R24, 60_exceptions.md R231: `W` stays legal, and `ERR`, `SUB` and `ERRCMD` stay a listed combination. -/
def Obligations.StepsKeepWindowAndErrorRegistersLegal : Prop :=
  ∀ s t : State, WindowLegal s → ErrorRegistersLegal s → step s = .next t → WindowLegal t ∧ ErrorRegistersLegal t

/-- The memories keep their canonical form, which is the model's own representation (log entry 15), and `BITLEN` keeps
its bound (10_state.md R42). -/
def Obligations.StepsKeepMemoriesCanonical : Prop :=
  ∀ s t : State, MemoriesCanonical s → BufferBounded s → step s = .next t → MemoriesCanonical t ∧ BufferBounded t

/-- 10_state.md R29: `TOTAL` stays the sum of the counts. -/
def Obligations.StepsKeepTotalTheSumOfCounts : Prop :=
  ∀ s t : State, MemoriesCanonical s → TotalIsSum s → step s = .next t → TotalIsSum t

/-- 10_state.md R33 to R39: a session keeps its table a partition, its interval around the midpoint, its counters in
bounds, and its cursors tied. The bound of `RDPTR` by `NSYM` is the model's own, to keep the register from wrapping. -/
def Obligations.StepsKeepSessionsLegal : Prop :=
  ∀ s t : State, WindowLegal s → SessionLegal s → DecoderLegal s → step s = .next t → SessionLegal t ∧ DecoderLegal t

/-- Every step keeps the whole invariant, from every state that meets it. Two of its clauses are the model's own: the
canonical form of the memories (log entry 15) and the index in the host's list (log entry 1; 10_state.md R23). So is the
bound of `RDPTR` by `NSYM`, which keeps the register from wrapping. -/
def Obligations.EveryStepKeepsTheInvariant : Prop :=
  ∀ s t : State, Inv s → step s = .next t → Inv t
end

