-- ==== Sys2Proof/Laws/Memory.lean ====
section
/-! SUPPORT. Memory cells: read after write, the canonical form, and the cells a bit string is written to. -/

namespace Sys2Proof.Machine

variable {α : Type}

@[simp] theorem read_nil (d : α) (a : Nat) : Memory.read d [] a = d := rfl

/-- A cell below every listed address is unlisted. -/
theorem read_of_lt (d : α) {m : Memory α} {a : Nat} (h : ∀ e ∈ m, a < e.1) : Memory.read d m a = d := by
  induction m with
  | nil => rfl
  | cons e m ih =>
    obtain ⟨b, x⟩ := e
    have hb : a < b := h (b, x) (by simp)
    simp only [Memory.read, if_neg (Nat.ne_of_lt hb)]
    exact ih fun e he => h e (by simp [he])

/-- What a cell reads as is a listed value or the reset contents. -/
theorem read_eq_of_mem (d : α) {m : Memory α} (hm : m.Pairwise fun x y => x.1 < y.1) {a : Nat} {v : α}
    (h : (a, v) ∈ m) : Memory.read d m a = v := by
  induction m with
  | nil => simp at h
  | cons e m ih =>
    obtain ⟨b, x⟩ := e
    rw [List.pairwise_cons] at hm
    rcases List.mem_cons.1 h with h | h
    · cases h; simp [Memory.read]
    · have hb : b < a := hm.1 (a, v) h
      simp only [Memory.read, if_neg (Nat.ne_of_gt hb)]
      exact ih hm.2 h

variable [DecidableEq α]

theorem read_write_same (d : α) {m : Memory α} (hm : m.Pairwise fun x y => x.1 < y.1) (a : Nat) (v : α) :
    Memory.read d (Memory.write d m a v) a = v := by
  induction m with
  | nil =>
    by_cases hv : v = d
    · simp [Memory.write, hv]
    · simp [Memory.write, Memory.read, hv]
  | cons e m ih =>
    obtain ⟨b, x⟩ := e
    have hm' := List.pairwise_cons.1 hm
    rcases Nat.lt_trichotomy a b with hab | rfl | hab
    · by_cases hv : v = d
      · simp only [Memory.write, if_pos hab, hv]
        refine read_of_lt d fun e he => ?_
        rcases List.mem_cons.1 he with rfl | he
        · exact hab
        · exact hab.trans (hm'.1 e he)
      · simp [Memory.write, Memory.read, hab, hv]
    · by_cases hv : v = d
      · simp only [Memory.write, Nat.lt_irrefl, if_false, if_true, hv]
        exact read_of_lt d hm'.1
      · simp [Memory.write, Memory.read, hv]
    · simp only [Memory.write, if_neg (Nat.lt_asymm hab), if_neg (Nat.ne_of_gt hab), Memory.read]
      exact ih hm'.2

theorem read_write_other (d : α) (m : Memory α) {a b : Nat} (v : α) (hab : b ≠ a) :
    Memory.read d (Memory.write d m a v) b = Memory.read d m b := by
  induction m with
  | nil => by_cases hv : v = d <;> simp [Memory.write, Memory.read, hv, hab]
  | cons e m ih =>
    obtain ⟨c, x⟩ := e
    rcases Nat.lt_trichotomy a c with hac | rfl | hac
    · by_cases hv : v = d <;> simp [Memory.write, Memory.read, hac, hv, hab]
    · by_cases hv : v = d <;> simp [Memory.write, Memory.read, hv, hab]
    · simp only [Memory.write, if_neg (Nat.lt_asymm hac), if_neg (Nat.ne_of_gt hac), Memory.read, ih]

/-- A listed cell of a written memory was listed before or is the written one. -/
theorem mem_write {d : α} {m : Memory α} {a : Nat} {v : α} {e : Nat × α} (h : e ∈ Memory.write d m a v) :
    e ∈ m ∨ (e = (a, v) ∧ v ≠ d) := by
  induction m with
  | nil =>
    by_cases hv : v = d
    · simp [Memory.write, hv] at h
    · simp only [Memory.write, if_neg hv, List.mem_singleton] at h
      exact .inr ⟨h, hv⟩
  | cons f m ih =>
    obtain ⟨c, x⟩ := f
    by_cases hv : v = d
    · simp only [Memory.write, if_pos hv] at h
      split at h
      · exact .inl h
      · split at h
        · exact .inl (List.mem_cons_of_mem _ h)
        · rcases List.mem_cons.1 h with rfl | h
          · exact .inl (by simp)
          · rcases ih h with h | h
            · exact .inl (List.mem_cons_of_mem _ h)
            · exact .inr h
    · simp only [Memory.write, if_neg hv] at h
      split at h
      · rcases List.mem_cons.1 h with h | h
        · exact .inr ⟨h, hv⟩
        · exact .inl h
      · split at h
        · rcases List.mem_cons.1 h with h | h
          · exact .inr ⟨h, hv⟩
          · exact .inl (List.mem_cons_of_mem _ h)
        · rcases List.mem_cons.1 h with rfl | h
          · exact .inl (by simp)
          · rcases ih h with h | h
            · exact .inl (List.mem_cons_of_mem _ h)
            · exact .inr h

theorem pairwise_write (d : α) {m : Memory α} (hm : m.Pairwise fun x y => x.1 < y.1) (a : Nat) (v : α) :
    (Memory.write d m a v).Pairwise fun x y => x.1 < y.1 := by
  induction m with
  | nil => by_cases hv : v = d <;> simp [Memory.write, hv]
  | cons e m ih =>
    obtain ⟨c, x⟩ := e
    have hm' := List.pairwise_cons.1 hm
    rcases Nat.lt_trichotomy a c with hac | rfl | hac
    · by_cases hv : v = d
      · simpa [Memory.write, hac, hv] using hm
      · simp only [Memory.write, if_pos hac, if_neg hv, List.pairwise_cons]
        refine ⟨fun e he => ?_, hm'⟩
        rcases List.mem_cons.1 he with rfl | he
        · exact hac
        · exact hac.trans (hm'.1 e he)
    · by_cases hv : v = d
      · simpa [Memory.write, hv] using hm'.2
      · simpa [Memory.write, hv] using hm'
    · simp only [Memory.write, if_neg (Nat.lt_asymm hac), if_neg (Nat.ne_of_gt hac), List.pairwise_cons]
      refine ⟨fun e he => ?_, ih hm'.2⟩
      rcases mem_write he with he | ⟨rfl, -⟩
      · exact hm'.1 e he
      · exact hac

/-- The canonical form holds of the memory after reset. -/
theorem wf_nil (size : Nat) (d : α) : Memory.wf size d [] := by simp [Memory.wf]

/-- A write in range keeps the canonical form. -/
theorem wf_write {size : Nat} {d : α} {m : Memory α} (hm : Memory.wf size d m) {a : Nat} (ha : a < size) (v : α) :
    Memory.wf size d (Memory.write d m a v) := by
  refine ⟨pairwise_write d hm.1 a v, fun e he => ?_⟩
  rcases mem_write he with he | ⟨rfl, hv⟩
  · exact hm.2 e he
  · exact ⟨ha, hv⟩

/-! ### Runs of bits -/

theorem wf_writeBits {size : Nat} {m : Memory Bool} (hm : Memory.wf size false m) (bits : BitString) {a : Nat}
    (ha : a + bits.length ≤ size) : Memory.wf size false (writeBits m a bits) := by
  induction bits generalizing m a with
  | nil => exact hm
  | cons b bits ih =>
    rw [List.length_cons] at ha
    exact ih (wf_write hm (by omega) b) (by omega)

/-- A cell outside the run written keeps its value. -/
theorem read_writeBits_outside (m : Memory Bool) (bits : BitString) {a i : Nat} (h : i < a ∨ a + bits.length ≤ i) :
    Memory.read false (writeBits m a bits) i = Memory.read false m i := by
  induction bits generalizing m a with
  | nil => rfl
  | cons b bits ih =>
    rw [List.length_cons] at h
    rw [writeBits, ih _ (by omega), read_write_other false m b (by omega)]

/-- The cells of the run written hold its bits, the first at the lowest index. -/
theorem read_writeBits_inside {m : Memory Bool} (hm : m.Pairwise fun x y => x.1 < y.1) (bits : BitString) (a j : Nat)
    (h : j < bits.length) : Memory.read false (writeBits m a bits) (a + j) = bits[j] := by
  induction bits generalizing m a j with
  | nil => simp at h
  | cons b bits ih =>
    cases j with
    | zero =>
      rw [writeBits, read_writeBits_outside _ _ (by omega), Nat.add_zero, read_write_same false hm a b]
      rfl
    | succ j =>
      rw [List.length_cons] at h
      rw [writeBits, show a + (j + 1) = a + 1 + j by omega, ih (pairwise_write false hm a b) (a + 1) j (by omega)]
      rfl

/-! ### The table `BUILD` writes -/

/-- Every entry of the partition is present and belongs to one of the symbols scanned. -/
theorem mem_segments {n t : Nat} {counts : Symbol → Nat} {syms : List Symbol} {left run : Nat} {m : Memory Segment}
    (h : segments n t counts syms left run = .ok m) {e : Nat × Segment} (he : e ∈ m) :
    e.2.valid = true ∧ ∃ sym ∈ syms, e.1 = symIndex sym := by
  induction syms generalizing left run m with
  | nil => simp only [segments, Except.ok.injEq] at h; subst h; simp at he
  | cons sym rest ih =>
    simp only [segments] at h
    split at h
    · obtain ⟨hv, o, ho, h1⟩ := ih h he
      exact ⟨hv, o, List.mem_cons_of_mem _ ho, h1⟩
    · split at h
      · cases h
      · split at h
        · rename_i m' hm'
          cases h
          rcases List.mem_cons.1 he with rfl | he
          · exact ⟨rfl, sym, by simp, rfl⟩
          · obtain ⟨hv, o, ho, h1⟩ := ih hm' he
            exact ⟨hv, o, List.mem_cons_of_mem _ ho, h1⟩
        · cases h

/-- The partition's entries are in ascending code order when the symbols scanned are. -/
theorem pairwise_segments {n t : Nat} {counts : Symbol → Nat} {syms : List Symbol}
    (hs : syms.Pairwise fun x y => symIndex x < symIndex y) {left run : Nat} {m : Memory Segment}
    (h : segments n t counts syms left run = .ok m) : m.Pairwise fun x y => x.1 < y.1 := by
  induction syms generalizing left run m with
  | nil => simp only [segments, Except.ok.injEq] at h; subst h; simp
  | cons sym rest ih =>
    have hs' := List.pairwise_cons.1 hs
    simp only [segments] at h
    split at h
    · exact ih hs'.2 h
    · split at h
      · cases h
      · split at h
        · rename_i m' hm'
          cases h
          refine List.pairwise_cons.2 ⟨fun e he => ?_, ih hs'.2 hm'⟩
          obtain ⟨-, o, ho, h1⟩ := mem_segments hm' he
          rw [h1]
          exact hs'.1 o ho
        · cases h

/-- The symbol codes are scanned in ascending order (40_segment_builder.md R100). -/
theorem pairwise_symbolCodes : symbolCodes.Pairwise fun x y => symIndex x < symIndex y := by
  rw [symbolCodes, List.pairwise_map]
  refine List.Pairwise.imp_of_mem (fun ha hb hlt => ?_) List.pairwise_lt_range
  rw [List.mem_range] at ha hb
  simp only [symIndex, BitVec.toNat_ofNat]
  have : Config.nSyms = 2 ^ 8 := rfl
  rwa [Nat.mod_eq_of_lt (by omega), Nat.mod_eq_of_lt (by omega)]

/-- Every symbol code is scanned. -/
theorem mem_symbolCodes (sym : Symbol) : sym ∈ symbolCodes := by
  rw [symbolCodes, List.mem_map]
  exact ⟨sym.toNat, List.mem_range.2 sym.isLt, by simp⟩

/-- The table `BUILD` writes has the canonical form. -/
theorem wf_segmentsOf {s : State} {m : Memory Segment} (h : segmentsOf s = .ok m) :
    Memory.wf Config.nSyms Segment.empty m := by
  refine ⟨pairwise_segments pairwise_symbolCodes h, fun e he => ?_⟩
  obtain ⟨hv, sym, -, h1⟩ := mem_segments h he
  exact ⟨h1 ▸ sym.isLt, fun hd => by rw [hd] at hv; cases hv⟩

end Sys2Proof.Machine
end

