-- ==== Sys2Proof/Laws/State.lean ====
section
/-! SUPPORT. One lemma per field and per named update of the state, each true by definition, so that no proof unfolds a
record update. -/

namespace Sys2Proof.Machine

/-! ### putSegment -/

@[simp] theorem putSegment_w (sym : Symbol) (e : Segment) (s : State) : (putSegment sym e s).w = s.w := rfl
@[simp] theorem putSegment_err (sym : Symbol) (e : Segment) (s : State) : (putSegment sym e s).err = s.err := rfl
@[simp] theorem putSegment_sub (sym : Symbol) (e : Segment) (s : State) : (putSegment sym e s).sub = s.sub := rfl
@[simp] theorem putSegment_phase (sym : Symbol) (e : Segment) (s : State) : (putSegment sym e s).phase = s.phase := rfl
@[simp] theorem putSegment_errcmd (sym : Symbol) (e : Segment) (s : State) : (putSegment sym e s).errcmd = s.errcmd := rfl
@[simp] theorem putSegment_cnt (sym : Symbol) (e : Segment) (s : State) : (putSegment sym e s).cnt = s.cnt := rfl
@[simp] theorem putSegment_total (sym : Symbol) (e : Segment) (s : State) : (putSegment sym e s).total = s.total := rfl
@[simp] theorem putSegment_seg (sym : Symbol) (e : Segment) (s : State) : (putSegment sym e s).seg = Memory.write Segment.empty s.seg (symIndex sym) e := rfl
@[simp] theorem putSegment_l (sym : Symbol) (e : Segment) (s : State) : (putSegment sym e s).l = s.l := rfl
@[simp] theorem putSegment_h (sym : Symbol) (e : Segment) (s : State) : (putSegment sym e s).h = s.h := rfl
@[simp] theorem putSegment_te (sym : Symbol) (e : Segment) (s : State) : (putSegment sym e s).te = s.te := rfl
@[simp] theorem putSegment_since (sym : Symbol) (e : Segment) (s : State) : (putSegment sym e s).since = s.since := rfl
@[simp] theorem putSegment_nsym (sym : Symbol) (e : Segment) (s : State) : (putSegment sym e s).nsym = s.nsym := rfl
@[simp] theorem putSegment_v (sym : Symbol) (e : Segment) (s : State) : (putSegment sym e s).v = s.v := rfl
@[simp] theorem putSegment_cursor (sym : Symbol) (e : Segment) (s : State) : (putSegment sym e s).cursor = s.cursor := rfl
@[simp] theorem putSegment_rdptr (sym : Symbol) (e : Segment) (s : State) : (putSegment sym e s).rdptr = s.rdptr := rfl
@[simp] theorem putSegment_drem (sym : Symbol) (e : Segment) (s : State) : (putSegment sym e s).drem = s.drem := rfl
@[simp] theorem putSegment_dsymSym (sym : Symbol) (e : Segment) (s : State) : (putSegment sym e s).dsymSym = s.dsymSym := rfl
@[simp] theorem putSegment_dsymValid (sym : Symbol) (e : Segment) (s : State) : (putSegment sym e s).dsymValid = s.dsymValid := rfl
@[simp] theorem putSegment_buf (sym : Symbol) (e : Segment) (s : State) : (putSegment sym e s).buf = s.buf := rfl
@[simp] theorem putSegment_bitlen (sym : Symbol) (e : Segment) (s : State) : (putSegment sym e s).bitlen = s.bitlen := rfl
@[simp] theorem putSegment_program (sym : Symbol) (e : Segment) (s : State) : (putSegment sym e s).program = s.program := rfl
@[simp] theorem putSegment_pc (sym : Symbol) (e : Segment) (s : State) : (putSegment sym e s).pc = s.pc := rfl

/-! ### setCounts -/

@[simp] theorem setCounts_w (m : Memory (BitVec 16)) (n : BitVec 16) (s : State) : (setCounts m n s).w = s.w := rfl
@[simp] theorem setCounts_err (m : Memory (BitVec 16)) (n : BitVec 16) (s : State) : (setCounts m n s).err = s.err := rfl
@[simp] theorem setCounts_sub (m : Memory (BitVec 16)) (n : BitVec 16) (s : State) : (setCounts m n s).sub = s.sub := rfl
@[simp] theorem setCounts_phase (m : Memory (BitVec 16)) (n : BitVec 16) (s : State) : (setCounts m n s).phase = s.phase := rfl
@[simp] theorem setCounts_errcmd (m : Memory (BitVec 16)) (n : BitVec 16) (s : State) : (setCounts m n s).errcmd = s.errcmd := rfl
@[simp] theorem setCounts_cnt (m : Memory (BitVec 16)) (n : BitVec 16) (s : State) : (setCounts m n s).cnt = m := rfl
@[simp] theorem setCounts_total (m : Memory (BitVec 16)) (n : BitVec 16) (s : State) : (setCounts m n s).total = n := rfl
@[simp] theorem setCounts_seg (m : Memory (BitVec 16)) (n : BitVec 16) (s : State) : (setCounts m n s).seg = s.seg := rfl
@[simp] theorem setCounts_l (m : Memory (BitVec 16)) (n : BitVec 16) (s : State) : (setCounts m n s).l = s.l := rfl
@[simp] theorem setCounts_h (m : Memory (BitVec 16)) (n : BitVec 16) (s : State) : (setCounts m n s).h = s.h := rfl
@[simp] theorem setCounts_te (m : Memory (BitVec 16)) (n : BitVec 16) (s : State) : (setCounts m n s).te = s.te := rfl
@[simp] theorem setCounts_since (m : Memory (BitVec 16)) (n : BitVec 16) (s : State) : (setCounts m n s).since = s.since := rfl
@[simp] theorem setCounts_nsym (m : Memory (BitVec 16)) (n : BitVec 16) (s : State) : (setCounts m n s).nsym = s.nsym := rfl
@[simp] theorem setCounts_v (m : Memory (BitVec 16)) (n : BitVec 16) (s : State) : (setCounts m n s).v = s.v := rfl
@[simp] theorem setCounts_cursor (m : Memory (BitVec 16)) (n : BitVec 16) (s : State) : (setCounts m n s).cursor = s.cursor := rfl
@[simp] theorem setCounts_rdptr (m : Memory (BitVec 16)) (n : BitVec 16) (s : State) : (setCounts m n s).rdptr = s.rdptr := rfl
@[simp] theorem setCounts_drem (m : Memory (BitVec 16)) (n : BitVec 16) (s : State) : (setCounts m n s).drem = s.drem := rfl
@[simp] theorem setCounts_dsymSym (m : Memory (BitVec 16)) (n : BitVec 16) (s : State) : (setCounts m n s).dsymSym = s.dsymSym := rfl
@[simp] theorem setCounts_dsymValid (m : Memory (BitVec 16)) (n : BitVec 16) (s : State) : (setCounts m n s).dsymValid = s.dsymValid := rfl
@[simp] theorem setCounts_buf (m : Memory (BitVec 16)) (n : BitVec 16) (s : State) : (setCounts m n s).buf = s.buf := rfl
@[simp] theorem setCounts_bitlen (m : Memory (BitVec 16)) (n : BitVec 16) (s : State) : (setCounts m n s).bitlen = s.bitlen := rfl
@[simp] theorem setCounts_program (m : Memory (BitVec 16)) (n : BitVec 16) (s : State) : (setCounts m n s).program = s.program := rfl
@[simp] theorem setCounts_pc (m : Memory (BitVec 16)) (n : BitVec 16) (s : State) : (setCounts m n s).pc = s.pc := rfl

/-! ### setTable -/

@[simp] theorem setTable_w (m : Memory Segment) (s : State) : (setTable m s).w = s.w := rfl
@[simp] theorem setTable_err (m : Memory Segment) (s : State) : (setTable m s).err = s.err := rfl
@[simp] theorem setTable_sub (m : Memory Segment) (s : State) : (setTable m s).sub = s.sub := rfl
@[simp] theorem setTable_phase (m : Memory Segment) (s : State) : (setTable m s).phase = s.phase := rfl
@[simp] theorem setTable_errcmd (m : Memory Segment) (s : State) : (setTable m s).errcmd = s.errcmd := rfl
@[simp] theorem setTable_cnt (m : Memory Segment) (s : State) : (setTable m s).cnt = s.cnt := rfl
@[simp] theorem setTable_total (m : Memory Segment) (s : State) : (setTable m s).total = s.total := rfl
@[simp] theorem setTable_seg (m : Memory Segment) (s : State) : (setTable m s).seg = m := rfl
@[simp] theorem setTable_l (m : Memory Segment) (s : State) : (setTable m s).l = s.l := rfl
@[simp] theorem setTable_h (m : Memory Segment) (s : State) : (setTable m s).h = s.h := rfl
@[simp] theorem setTable_te (m : Memory Segment) (s : State) : (setTable m s).te = s.te := rfl
@[simp] theorem setTable_since (m : Memory Segment) (s : State) : (setTable m s).since = s.since := rfl
@[simp] theorem setTable_nsym (m : Memory Segment) (s : State) : (setTable m s).nsym = s.nsym := rfl
@[simp] theorem setTable_v (m : Memory Segment) (s : State) : (setTable m s).v = s.v := rfl
@[simp] theorem setTable_cursor (m : Memory Segment) (s : State) : (setTable m s).cursor = s.cursor := rfl
@[simp] theorem setTable_rdptr (m : Memory Segment) (s : State) : (setTable m s).rdptr = s.rdptr := rfl
@[simp] theorem setTable_drem (m : Memory Segment) (s : State) : (setTable m s).drem = s.drem := rfl
@[simp] theorem setTable_dsymSym (m : Memory Segment) (s : State) : (setTable m s).dsymSym = s.dsymSym := rfl
@[simp] theorem setTable_dsymValid (m : Memory Segment) (s : State) : (setTable m s).dsymValid = s.dsymValid := rfl
@[simp] theorem setTable_buf (m : Memory Segment) (s : State) : (setTable m s).buf = s.buf := rfl
@[simp] theorem setTable_bitlen (m : Memory Segment) (s : State) : (setTable m s).bitlen = s.bitlen := rfl
@[simp] theorem setTable_program (m : Memory Segment) (s : State) : (setTable m s).program = s.program := rfl
@[simp] theorem setTable_pc (m : Memory Segment) (s : State) : (setTable m s).pc = s.pc := rfl

/-! ### setPhase -/

@[simp] theorem setPhase_w (p : Phase) (s : State) : (setPhase p s).w = s.w := rfl
@[simp] theorem setPhase_err (p : Phase) (s : State) : (setPhase p s).err = s.err := rfl
@[simp] theorem setPhase_sub (p : Phase) (s : State) : (setPhase p s).sub = s.sub := rfl
@[simp] theorem setPhase_phase (p : Phase) (s : State) : (setPhase p s).phase = p := rfl
@[simp] theorem setPhase_errcmd (p : Phase) (s : State) : (setPhase p s).errcmd = s.errcmd := rfl
@[simp] theorem setPhase_cnt (p : Phase) (s : State) : (setPhase p s).cnt = s.cnt := rfl
@[simp] theorem setPhase_total (p : Phase) (s : State) : (setPhase p s).total = s.total := rfl
@[simp] theorem setPhase_seg (p : Phase) (s : State) : (setPhase p s).seg = s.seg := rfl
@[simp] theorem setPhase_l (p : Phase) (s : State) : (setPhase p s).l = s.l := rfl
@[simp] theorem setPhase_h (p : Phase) (s : State) : (setPhase p s).h = s.h := rfl
@[simp] theorem setPhase_te (p : Phase) (s : State) : (setPhase p s).te = s.te := rfl
@[simp] theorem setPhase_since (p : Phase) (s : State) : (setPhase p s).since = s.since := rfl
@[simp] theorem setPhase_nsym (p : Phase) (s : State) : (setPhase p s).nsym = s.nsym := rfl
@[simp] theorem setPhase_v (p : Phase) (s : State) : (setPhase p s).v = s.v := rfl
@[simp] theorem setPhase_cursor (p : Phase) (s : State) : (setPhase p s).cursor = s.cursor := rfl
@[simp] theorem setPhase_rdptr (p : Phase) (s : State) : (setPhase p s).rdptr = s.rdptr := rfl
@[simp] theorem setPhase_drem (p : Phase) (s : State) : (setPhase p s).drem = s.drem := rfl
@[simp] theorem setPhase_dsymSym (p : Phase) (s : State) : (setPhase p s).dsymSym = s.dsymSym := rfl
@[simp] theorem setPhase_dsymValid (p : Phase) (s : State) : (setPhase p s).dsymValid = s.dsymValid := rfl
@[simp] theorem setPhase_buf (p : Phase) (s : State) : (setPhase p s).buf = s.buf := rfl
@[simp] theorem setPhase_bitlen (p : Phase) (s : State) : (setPhase p s).bitlen = s.bitlen := rfl
@[simp] theorem setPhase_program (p : Phase) (s : State) : (setPhase p s).program = s.program := rfl
@[simp] theorem setPhase_pc (p : Phase) (s : State) : (setPhase p s).pc = s.pc := rfl

/-! ### setWindow -/

@[simp] theorem setWindow_w (x : BitVec 5) (s : State) : (setWindow x s).w = x := rfl
@[simp] theorem setWindow_err (x : BitVec 5) (s : State) : (setWindow x s).err = s.err := rfl
@[simp] theorem setWindow_sub (x : BitVec 5) (s : State) : (setWindow x s).sub = s.sub := rfl
@[simp] theorem setWindow_phase (x : BitVec 5) (s : State) : (setWindow x s).phase = s.phase := rfl
@[simp] theorem setWindow_errcmd (x : BitVec 5) (s : State) : (setWindow x s).errcmd = s.errcmd := rfl
@[simp] theorem setWindow_cnt (x : BitVec 5) (s : State) : (setWindow x s).cnt = s.cnt := rfl
@[simp] theorem setWindow_total (x : BitVec 5) (s : State) : (setWindow x s).total = s.total := rfl
@[simp] theorem setWindow_seg (x : BitVec 5) (s : State) : (setWindow x s).seg = s.seg := rfl
@[simp] theorem setWindow_l (x : BitVec 5) (s : State) : (setWindow x s).l = s.l := rfl
@[simp] theorem setWindow_h (x : BitVec 5) (s : State) : (setWindow x s).h = s.h := rfl
@[simp] theorem setWindow_te (x : BitVec 5) (s : State) : (setWindow x s).te = s.te := rfl
@[simp] theorem setWindow_since (x : BitVec 5) (s : State) : (setWindow x s).since = s.since := rfl
@[simp] theorem setWindow_nsym (x : BitVec 5) (s : State) : (setWindow x s).nsym = s.nsym := rfl
@[simp] theorem setWindow_v (x : BitVec 5) (s : State) : (setWindow x s).v = s.v := rfl
@[simp] theorem setWindow_cursor (x : BitVec 5) (s : State) : (setWindow x s).cursor = s.cursor := rfl
@[simp] theorem setWindow_rdptr (x : BitVec 5) (s : State) : (setWindow x s).rdptr = s.rdptr := rfl
@[simp] theorem setWindow_drem (x : BitVec 5) (s : State) : (setWindow x s).drem = s.drem := rfl
@[simp] theorem setWindow_dsymSym (x : BitVec 5) (s : State) : (setWindow x s).dsymSym = s.dsymSym := rfl
@[simp] theorem setWindow_dsymValid (x : BitVec 5) (s : State) : (setWindow x s).dsymValid = s.dsymValid := rfl
@[simp] theorem setWindow_buf (x : BitVec 5) (s : State) : (setWindow x s).buf = s.buf := rfl
@[simp] theorem setWindow_bitlen (x : BitVec 5) (s : State) : (setWindow x s).bitlen = s.bitlen := rfl
@[simp] theorem setWindow_program (x : BitVec 5) (s : State) : (setWindow x s).program = s.program := rfl
@[simp] theorem setWindow_pc (x : BitVec 5) (s : State) : (setWindow x s).pc = s.pc := rfl

/-! ### setCoding -/

@[simp] theorem setCoding_w (a b : BitVec 16) (c : BitVec 32) (d e : BitVec 16) (s : State) : (setCoding a b c d e s).w = s.w := rfl
@[simp] theorem setCoding_err (a b : BitVec 16) (c : BitVec 32) (d e : BitVec 16) (s : State) : (setCoding a b c d e s).err = s.err := rfl
@[simp] theorem setCoding_sub (a b : BitVec 16) (c : BitVec 32) (d e : BitVec 16) (s : State) : (setCoding a b c d e s).sub = s.sub := rfl
@[simp] theorem setCoding_phase (a b : BitVec 16) (c : BitVec 32) (d e : BitVec 16) (s : State) : (setCoding a b c d e s).phase = s.phase := rfl
@[simp] theorem setCoding_errcmd (a b : BitVec 16) (c : BitVec 32) (d e : BitVec 16) (s : State) : (setCoding a b c d e s).errcmd = s.errcmd := rfl
@[simp] theorem setCoding_cnt (a b : BitVec 16) (c : BitVec 32) (d e : BitVec 16) (s : State) : (setCoding a b c d e s).cnt = s.cnt := rfl
@[simp] theorem setCoding_total (a b : BitVec 16) (c : BitVec 32) (d e : BitVec 16) (s : State) : (setCoding a b c d e s).total = s.total := rfl
@[simp] theorem setCoding_seg (a b : BitVec 16) (c : BitVec 32) (d e : BitVec 16) (s : State) : (setCoding a b c d e s).seg = s.seg := rfl
@[simp] theorem setCoding_l (a b : BitVec 16) (c : BitVec 32) (d e : BitVec 16) (s : State) : (setCoding a b c d e s).l = a := rfl
@[simp] theorem setCoding_h (a b : BitVec 16) (c : BitVec 32) (d e : BitVec 16) (s : State) : (setCoding a b c d e s).h = b := rfl
@[simp] theorem setCoding_te (a b : BitVec 16) (c : BitVec 32) (d e : BitVec 16) (s : State) : (setCoding a b c d e s).te = c := rfl
@[simp] theorem setCoding_since (a b : BitVec 16) (c : BitVec 32) (d e : BitVec 16) (s : State) : (setCoding a b c d e s).since = d := rfl
@[simp] theorem setCoding_nsym (a b : BitVec 16) (c : BitVec 32) (d e : BitVec 16) (s : State) : (setCoding a b c d e s).nsym = e := rfl
@[simp] theorem setCoding_v (a b : BitVec 16) (c : BitVec 32) (d e : BitVec 16) (s : State) : (setCoding a b c d e s).v = s.v := rfl
@[simp] theorem setCoding_cursor (a b : BitVec 16) (c : BitVec 32) (d e : BitVec 16) (s : State) : (setCoding a b c d e s).cursor = s.cursor := rfl
@[simp] theorem setCoding_rdptr (a b : BitVec 16) (c : BitVec 32) (d e : BitVec 16) (s : State) : (setCoding a b c d e s).rdptr = s.rdptr := rfl
@[simp] theorem setCoding_drem (a b : BitVec 16) (c : BitVec 32) (d e : BitVec 16) (s : State) : (setCoding a b c d e s).drem = s.drem := rfl
@[simp] theorem setCoding_dsymSym (a b : BitVec 16) (c : BitVec 32) (d e : BitVec 16) (s : State) : (setCoding a b c d e s).dsymSym = s.dsymSym := rfl
@[simp] theorem setCoding_dsymValid (a b : BitVec 16) (c : BitVec 32) (d e : BitVec 16) (s : State) : (setCoding a b c d e s).dsymValid = s.dsymValid := rfl
@[simp] theorem setCoding_buf (a b : BitVec 16) (c : BitVec 32) (d e : BitVec 16) (s : State) : (setCoding a b c d e s).buf = s.buf := rfl
@[simp] theorem setCoding_bitlen (a b : BitVec 16) (c : BitVec 32) (d e : BitVec 16) (s : State) : (setCoding a b c d e s).bitlen = s.bitlen := rfl
@[simp] theorem setCoding_program (a b : BitVec 16) (c : BitVec 32) (d e : BitVec 16) (s : State) : (setCoding a b c d e s).program = s.program := rfl
@[simp] theorem setCoding_pc (a b : BitVec 16) (c : BitVec 32) (d e : BitVec 16) (s : State) : (setCoding a b c d e s).pc = s.pc := rfl

/-! ### setLookahead -/

@[simp] theorem setLookahead_w (a : BitVec 16) (b c : BitVec 32) (d : BitVec 16) (s : State) : (setLookahead a b c d s).w = s.w := rfl
@[simp] theorem setLookahead_err (a : BitVec 16) (b c : BitVec 32) (d : BitVec 16) (s : State) : (setLookahead a b c d s).err = s.err := rfl
@[simp] theorem setLookahead_sub (a : BitVec 16) (b c : BitVec 32) (d : BitVec 16) (s : State) : (setLookahead a b c d s).sub = s.sub := rfl
@[simp] theorem setLookahead_phase (a : BitVec 16) (b c : BitVec 32) (d : BitVec 16) (s : State) : (setLookahead a b c d s).phase = s.phase := rfl
@[simp] theorem setLookahead_errcmd (a : BitVec 16) (b c : BitVec 32) (d : BitVec 16) (s : State) : (setLookahead a b c d s).errcmd = s.errcmd := rfl
@[simp] theorem setLookahead_cnt (a : BitVec 16) (b c : BitVec 32) (d : BitVec 16) (s : State) : (setLookahead a b c d s).cnt = s.cnt := rfl
@[simp] theorem setLookahead_total (a : BitVec 16) (b c : BitVec 32) (d : BitVec 16) (s : State) : (setLookahead a b c d s).total = s.total := rfl
@[simp] theorem setLookahead_seg (a : BitVec 16) (b c : BitVec 32) (d : BitVec 16) (s : State) : (setLookahead a b c d s).seg = s.seg := rfl
@[simp] theorem setLookahead_l (a : BitVec 16) (b c : BitVec 32) (d : BitVec 16) (s : State) : (setLookahead a b c d s).l = s.l := rfl
@[simp] theorem setLookahead_h (a : BitVec 16) (b c : BitVec 32) (d : BitVec 16) (s : State) : (setLookahead a b c d s).h = s.h := rfl
@[simp] theorem setLookahead_te (a : BitVec 16) (b c : BitVec 32) (d : BitVec 16) (s : State) : (setLookahead a b c d s).te = s.te := rfl
@[simp] theorem setLookahead_since (a : BitVec 16) (b c : BitVec 32) (d : BitVec 16) (s : State) : (setLookahead a b c d s).since = s.since := rfl
@[simp] theorem setLookahead_nsym (a : BitVec 16) (b c : BitVec 32) (d : BitVec 16) (s : State) : (setLookahead a b c d s).nsym = s.nsym := rfl
@[simp] theorem setLookahead_v (a : BitVec 16) (b c : BitVec 32) (d : BitVec 16) (s : State) : (setLookahead a b c d s).v = a := rfl
@[simp] theorem setLookahead_cursor (a : BitVec 16) (b c : BitVec 32) (d : BitVec 16) (s : State) : (setLookahead a b c d s).cursor = b := rfl
@[simp] theorem setLookahead_rdptr (a : BitVec 16) (b c : BitVec 32) (d : BitVec 16) (s : State) : (setLookahead a b c d s).rdptr = c := rfl
@[simp] theorem setLookahead_drem (a : BitVec 16) (b c : BitVec 32) (d : BitVec 16) (s : State) : (setLookahead a b c d s).drem = d := rfl
@[simp] theorem setLookahead_dsymSym (a : BitVec 16) (b c : BitVec 32) (d : BitVec 16) (s : State) : (setLookahead a b c d s).dsymSym = s.dsymSym := rfl
@[simp] theorem setLookahead_dsymValid (a : BitVec 16) (b c : BitVec 32) (d : BitVec 16) (s : State) : (setLookahead a b c d s).dsymValid = s.dsymValid := rfl
@[simp] theorem setLookahead_buf (a : BitVec 16) (b c : BitVec 32) (d : BitVec 16) (s : State) : (setLookahead a b c d s).buf = s.buf := rfl
@[simp] theorem setLookahead_bitlen (a : BitVec 16) (b c : BitVec 32) (d : BitVec 16) (s : State) : (setLookahead a b c d s).bitlen = s.bitlen := rfl
@[simp] theorem setLookahead_program (a : BitVec 16) (b c : BitVec 32) (d : BitVec 16) (s : State) : (setLookahead a b c d s).program = s.program := rfl
@[simp] theorem setLookahead_pc (a : BitVec 16) (b c : BitVec 32) (d : BitVec 16) (s : State) : (setLookahead a b c d s).pc = s.pc := rfl

/-! ### setDsym -/

@[simp] theorem setDsym_w (a : Symbol) (b : Bool) (s : State) : (setDsym a b s).w = s.w := rfl
@[simp] theorem setDsym_err (a : Symbol) (b : Bool) (s : State) : (setDsym a b s).err = s.err := rfl
@[simp] theorem setDsym_sub (a : Symbol) (b : Bool) (s : State) : (setDsym a b s).sub = s.sub := rfl
@[simp] theorem setDsym_phase (a : Symbol) (b : Bool) (s : State) : (setDsym a b s).phase = s.phase := rfl
@[simp] theorem setDsym_errcmd (a : Symbol) (b : Bool) (s : State) : (setDsym a b s).errcmd = s.errcmd := rfl
@[simp] theorem setDsym_cnt (a : Symbol) (b : Bool) (s : State) : (setDsym a b s).cnt = s.cnt := rfl
@[simp] theorem setDsym_total (a : Symbol) (b : Bool) (s : State) : (setDsym a b s).total = s.total := rfl
@[simp] theorem setDsym_seg (a : Symbol) (b : Bool) (s : State) : (setDsym a b s).seg = s.seg := rfl
@[simp] theorem setDsym_l (a : Symbol) (b : Bool) (s : State) : (setDsym a b s).l = s.l := rfl
@[simp] theorem setDsym_h (a : Symbol) (b : Bool) (s : State) : (setDsym a b s).h = s.h := rfl
@[simp] theorem setDsym_te (a : Symbol) (b : Bool) (s : State) : (setDsym a b s).te = s.te := rfl
@[simp] theorem setDsym_since (a : Symbol) (b : Bool) (s : State) : (setDsym a b s).since = s.since := rfl
@[simp] theorem setDsym_nsym (a : Symbol) (b : Bool) (s : State) : (setDsym a b s).nsym = s.nsym := rfl
@[simp] theorem setDsym_v (a : Symbol) (b : Bool) (s : State) : (setDsym a b s).v = s.v := rfl
@[simp] theorem setDsym_cursor (a : Symbol) (b : Bool) (s : State) : (setDsym a b s).cursor = s.cursor := rfl
@[simp] theorem setDsym_rdptr (a : Symbol) (b : Bool) (s : State) : (setDsym a b s).rdptr = s.rdptr := rfl
@[simp] theorem setDsym_drem (a : Symbol) (b : Bool) (s : State) : (setDsym a b s).drem = s.drem := rfl
@[simp] theorem setDsym_dsymSym (a : Symbol) (b : Bool) (s : State) : (setDsym a b s).dsymSym = a := rfl
@[simp] theorem setDsym_dsymValid (a : Symbol) (b : Bool) (s : State) : (setDsym a b s).dsymValid = b := rfl
@[simp] theorem setDsym_buf (a : Symbol) (b : Bool) (s : State) : (setDsym a b s).buf = s.buf := rfl
@[simp] theorem setDsym_bitlen (a : Symbol) (b : Bool) (s : State) : (setDsym a b s).bitlen = s.bitlen := rfl
@[simp] theorem setDsym_program (a : Symbol) (b : Bool) (s : State) : (setDsym a b s).program = s.program := rfl
@[simp] theorem setDsym_pc (a : Symbol) (b : Bool) (s : State) : (setDsym a b s).pc = s.pc := rfl

/-! ### appendBits -/

@[simp] theorem appendBits_w (bits : BitString) (s : State) : (appendBits bits s).w = s.w := rfl
@[simp] theorem appendBits_err (bits : BitString) (s : State) : (appendBits bits s).err = s.err := rfl
@[simp] theorem appendBits_sub (bits : BitString) (s : State) : (appendBits bits s).sub = s.sub := rfl
@[simp] theorem appendBits_phase (bits : BitString) (s : State) : (appendBits bits s).phase = s.phase := rfl
@[simp] theorem appendBits_errcmd (bits : BitString) (s : State) : (appendBits bits s).errcmd = s.errcmd := rfl
@[simp] theorem appendBits_cnt (bits : BitString) (s : State) : (appendBits bits s).cnt = s.cnt := rfl
@[simp] theorem appendBits_total (bits : BitString) (s : State) : (appendBits bits s).total = s.total := rfl
@[simp] theorem appendBits_seg (bits : BitString) (s : State) : (appendBits bits s).seg = s.seg := rfl
@[simp] theorem appendBits_l (bits : BitString) (s : State) : (appendBits bits s).l = s.l := rfl
@[simp] theorem appendBits_h (bits : BitString) (s : State) : (appendBits bits s).h = s.h := rfl
@[simp] theorem appendBits_te (bits : BitString) (s : State) : (appendBits bits s).te = s.te := rfl
@[simp] theorem appendBits_since (bits : BitString) (s : State) : (appendBits bits s).since = s.since := rfl
@[simp] theorem appendBits_nsym (bits : BitString) (s : State) : (appendBits bits s).nsym = s.nsym := rfl
@[simp] theorem appendBits_v (bits : BitString) (s : State) : (appendBits bits s).v = s.v := rfl
@[simp] theorem appendBits_cursor (bits : BitString) (s : State) : (appendBits bits s).cursor = s.cursor := rfl
@[simp] theorem appendBits_rdptr (bits : BitString) (s : State) : (appendBits bits s).rdptr = s.rdptr := rfl
@[simp] theorem appendBits_drem (bits : BitString) (s : State) : (appendBits bits s).drem = s.drem := rfl
@[simp] theorem appendBits_dsymSym (bits : BitString) (s : State) : (appendBits bits s).dsymSym = s.dsymSym := rfl
@[simp] theorem appendBits_dsymValid (bits : BitString) (s : State) : (appendBits bits s).dsymValid = s.dsymValid := rfl
@[simp] theorem appendBits_buf (bits : BitString) (s : State) : (appendBits bits s).buf = writeBits s.buf s.bitlen.toNat bits := rfl
@[simp] theorem appendBits_bitlen (bits : BitString) (s : State) : (appendBits bits s).bitlen = BitVec.ofNat 17 (s.bitlen.toNat + bits.length) := rfl
@[simp] theorem appendBits_program (bits : BitString) (s : State) : (appendBits bits s).program = s.program := rfl
@[simp] theorem appendBits_pc (bits : BitString) (s : State) : (appendBits bits s).pc = s.pc := rfl

/-! ### emptyBuffer -/

@[simp] theorem emptyBuffer_w (s : State) : (emptyBuffer s).w = s.w := rfl
@[simp] theorem emptyBuffer_err (s : State) : (emptyBuffer s).err = s.err := rfl
@[simp] theorem emptyBuffer_sub (s : State) : (emptyBuffer s).sub = s.sub := rfl
@[simp] theorem emptyBuffer_phase (s : State) : (emptyBuffer s).phase = s.phase := rfl
@[simp] theorem emptyBuffer_errcmd (s : State) : (emptyBuffer s).errcmd = s.errcmd := rfl
@[simp] theorem emptyBuffer_cnt (s : State) : (emptyBuffer s).cnt = s.cnt := rfl
@[simp] theorem emptyBuffer_total (s : State) : (emptyBuffer s).total = s.total := rfl
@[simp] theorem emptyBuffer_seg (s : State) : (emptyBuffer s).seg = s.seg := rfl
@[simp] theorem emptyBuffer_l (s : State) : (emptyBuffer s).l = s.l := rfl
@[simp] theorem emptyBuffer_h (s : State) : (emptyBuffer s).h = s.h := rfl
@[simp] theorem emptyBuffer_te (s : State) : (emptyBuffer s).te = s.te := rfl
@[simp] theorem emptyBuffer_since (s : State) : (emptyBuffer s).since = s.since := rfl
@[simp] theorem emptyBuffer_nsym (s : State) : (emptyBuffer s).nsym = s.nsym := rfl
@[simp] theorem emptyBuffer_v (s : State) : (emptyBuffer s).v = s.v := rfl
@[simp] theorem emptyBuffer_cursor (s : State) : (emptyBuffer s).cursor = s.cursor := rfl
@[simp] theorem emptyBuffer_rdptr (s : State) : (emptyBuffer s).rdptr = s.rdptr := rfl
@[simp] theorem emptyBuffer_drem (s : State) : (emptyBuffer s).drem = s.drem := rfl
@[simp] theorem emptyBuffer_dsymSym (s : State) : (emptyBuffer s).dsymSym = s.dsymSym := rfl
@[simp] theorem emptyBuffer_dsymValid (s : State) : (emptyBuffer s).dsymValid = s.dsymValid := rfl
@[simp] theorem emptyBuffer_buf (s : State) : (emptyBuffer s).buf = s.buf := rfl
@[simp] theorem emptyBuffer_bitlen (s : State) : (emptyBuffer s).bitlen = 0#17 := rfl
@[simp] theorem emptyBuffer_program (s : State) : (emptyBuffer s).program = s.program := rfl
@[simp] theorem emptyBuffer_pc (s : State) : (emptyBuffer s).pc = s.pc := rfl

/-! ### raise -/

@[simp] theorem raise_w (e : ErrorCode) (cmd : Word) (s : State) : (raise e cmd s).w = s.w := rfl
@[simp] theorem raise_err (e : ErrorCode) (cmd : Word) (s : State) : (raise e cmd s).err = e.errBits := rfl
@[simp] theorem raise_sub (e : ErrorCode) (cmd : Word) (s : State) : (raise e cmd s).sub = e.subBits := rfl
@[simp] theorem raise_phase (e : ErrorCode) (cmd : Word) (s : State) : (raise e cmd s).phase = s.phase := rfl
@[simp] theorem raise_errcmd (e : ErrorCode) (cmd : Word) (s : State) : (raise e cmd s).errcmd = cmd := rfl
@[simp] theorem raise_cnt (e : ErrorCode) (cmd : Word) (s : State) : (raise e cmd s).cnt = s.cnt := rfl
@[simp] theorem raise_total (e : ErrorCode) (cmd : Word) (s : State) : (raise e cmd s).total = s.total := rfl
@[simp] theorem raise_seg (e : ErrorCode) (cmd : Word) (s : State) : (raise e cmd s).seg = s.seg := rfl
@[simp] theorem raise_l (e : ErrorCode) (cmd : Word) (s : State) : (raise e cmd s).l = s.l := rfl
@[simp] theorem raise_h (e : ErrorCode) (cmd : Word) (s : State) : (raise e cmd s).h = s.h := rfl
@[simp] theorem raise_te (e : ErrorCode) (cmd : Word) (s : State) : (raise e cmd s).te = s.te := rfl
@[simp] theorem raise_since (e : ErrorCode) (cmd : Word) (s : State) : (raise e cmd s).since = s.since := rfl
@[simp] theorem raise_nsym (e : ErrorCode) (cmd : Word) (s : State) : (raise e cmd s).nsym = s.nsym := rfl
@[simp] theorem raise_v (e : ErrorCode) (cmd : Word) (s : State) : (raise e cmd s).v = s.v := rfl
@[simp] theorem raise_cursor (e : ErrorCode) (cmd : Word) (s : State) : (raise e cmd s).cursor = s.cursor := rfl
@[simp] theorem raise_rdptr (e : ErrorCode) (cmd : Word) (s : State) : (raise e cmd s).rdptr = s.rdptr := rfl
@[simp] theorem raise_drem (e : ErrorCode) (cmd : Word) (s : State) : (raise e cmd s).drem = s.drem := rfl
@[simp] theorem raise_dsymSym (e : ErrorCode) (cmd : Word) (s : State) : (raise e cmd s).dsymSym = s.dsymSym := rfl
@[simp] theorem raise_dsymValid (e : ErrorCode) (cmd : Word) (s : State) : (raise e cmd s).dsymValid = s.dsymValid := rfl
@[simp] theorem raise_buf (e : ErrorCode) (cmd : Word) (s : State) : (raise e cmd s).buf = s.buf := rfl
@[simp] theorem raise_bitlen (e : ErrorCode) (cmd : Word) (s : State) : (raise e cmd s).bitlen = s.bitlen := rfl
@[simp] theorem raise_program (e : ErrorCode) (cmd : Word) (s : State) : (raise e cmd s).program = s.program := rfl
@[simp] theorem raise_pc (e : ErrorCode) (cmd : Word) (s : State) : (raise e cmd s).pc = s.pc := rfl

/-! ### clearError -/

@[simp] theorem clearError_w (s : State) : (clearError s).w = s.w := rfl
@[simp] theorem clearError_err (s : State) : (clearError s).err = 0#4 := rfl
@[simp] theorem clearError_sub (s : State) : (clearError s).sub = 0#4 := rfl
@[simp] theorem clearError_phase (s : State) : (clearError s).phase = s.phase := rfl
@[simp] theorem clearError_errcmd (s : State) : (clearError s).errcmd = 0#32 := rfl
@[simp] theorem clearError_cnt (s : State) : (clearError s).cnt = s.cnt := rfl
@[simp] theorem clearError_total (s : State) : (clearError s).total = s.total := rfl
@[simp] theorem clearError_seg (s : State) : (clearError s).seg = s.seg := rfl
@[simp] theorem clearError_l (s : State) : (clearError s).l = s.l := rfl
@[simp] theorem clearError_h (s : State) : (clearError s).h = s.h := rfl
@[simp] theorem clearError_te (s : State) : (clearError s).te = s.te := rfl
@[simp] theorem clearError_since (s : State) : (clearError s).since = s.since := rfl
@[simp] theorem clearError_nsym (s : State) : (clearError s).nsym = s.nsym := rfl
@[simp] theorem clearError_v (s : State) : (clearError s).v = s.v := rfl
@[simp] theorem clearError_cursor (s : State) : (clearError s).cursor = s.cursor := rfl
@[simp] theorem clearError_rdptr (s : State) : (clearError s).rdptr = s.rdptr := rfl
@[simp] theorem clearError_drem (s : State) : (clearError s).drem = s.drem := rfl
@[simp] theorem clearError_dsymSym (s : State) : (clearError s).dsymSym = s.dsymSym := rfl
@[simp] theorem clearError_dsymValid (s : State) : (clearError s).dsymValid = s.dsymValid := rfl
@[simp] theorem clearError_buf (s : State) : (clearError s).buf = s.buf := rfl
@[simp] theorem clearError_bitlen (s : State) : (clearError s).bitlen = s.bitlen := rfl
@[simp] theorem clearError_program (s : State) : (clearError s).program = s.program := rfl
@[simp] theorem clearError_pc (s : State) : (clearError s).pc = s.pc := rfl

/-! ### hardReset -/

@[simp] theorem hardReset_w (s : State) : (hardReset s).w = State.reset.w := rfl
@[simp] theorem hardReset_err (s : State) : (hardReset s).err = State.reset.err := rfl
@[simp] theorem hardReset_sub (s : State) : (hardReset s).sub = State.reset.sub := rfl
@[simp] theorem hardReset_phase (s : State) : (hardReset s).phase = State.reset.phase := rfl
@[simp] theorem hardReset_errcmd (s : State) : (hardReset s).errcmd = State.reset.errcmd := rfl
@[simp] theorem hardReset_cnt (s : State) : (hardReset s).cnt = State.reset.cnt := rfl
@[simp] theorem hardReset_total (s : State) : (hardReset s).total = State.reset.total := rfl
@[simp] theorem hardReset_seg (s : State) : (hardReset s).seg = State.reset.seg := rfl
@[simp] theorem hardReset_l (s : State) : (hardReset s).l = State.reset.l := rfl
@[simp] theorem hardReset_h (s : State) : (hardReset s).h = State.reset.h := rfl
@[simp] theorem hardReset_te (s : State) : (hardReset s).te = State.reset.te := rfl
@[simp] theorem hardReset_since (s : State) : (hardReset s).since = State.reset.since := rfl
@[simp] theorem hardReset_nsym (s : State) : (hardReset s).nsym = State.reset.nsym := rfl
@[simp] theorem hardReset_v (s : State) : (hardReset s).v = State.reset.v := rfl
@[simp] theorem hardReset_cursor (s : State) : (hardReset s).cursor = State.reset.cursor := rfl
@[simp] theorem hardReset_rdptr (s : State) : (hardReset s).rdptr = State.reset.rdptr := rfl
@[simp] theorem hardReset_drem (s : State) : (hardReset s).drem = State.reset.drem := rfl
@[simp] theorem hardReset_dsymSym (s : State) : (hardReset s).dsymSym = State.reset.dsymSym := rfl
@[simp] theorem hardReset_dsymValid (s : State) : (hardReset s).dsymValid = State.reset.dsymValid := rfl
@[simp] theorem hardReset_buf (s : State) : (hardReset s).buf = State.reset.buf := rfl
@[simp] theorem hardReset_bitlen (s : State) : (hardReset s).bitlen = State.reset.bitlen := rfl
@[simp] theorem hardReset_program (s : State) : (hardReset s).program = s.program := rfl
@[simp] theorem hardReset_pc (s : State) : (hardReset s).pc = s.pc := rfl

/-! ### advancePc -/

@[simp] theorem advancePc_w (s : State) : (advancePc s).w = s.w := rfl
@[simp] theorem advancePc_err (s : State) : (advancePc s).err = s.err := rfl
@[simp] theorem advancePc_sub (s : State) : (advancePc s).sub = s.sub := rfl
@[simp] theorem advancePc_phase (s : State) : (advancePc s).phase = s.phase := rfl
@[simp] theorem advancePc_errcmd (s : State) : (advancePc s).errcmd = s.errcmd := rfl
@[simp] theorem advancePc_cnt (s : State) : (advancePc s).cnt = s.cnt := rfl
@[simp] theorem advancePc_total (s : State) : (advancePc s).total = s.total := rfl
@[simp] theorem advancePc_seg (s : State) : (advancePc s).seg = s.seg := rfl
@[simp] theorem advancePc_l (s : State) : (advancePc s).l = s.l := rfl
@[simp] theorem advancePc_h (s : State) : (advancePc s).h = s.h := rfl
@[simp] theorem advancePc_te (s : State) : (advancePc s).te = s.te := rfl
@[simp] theorem advancePc_since (s : State) : (advancePc s).since = s.since := rfl
@[simp] theorem advancePc_nsym (s : State) : (advancePc s).nsym = s.nsym := rfl
@[simp] theorem advancePc_v (s : State) : (advancePc s).v = s.v := rfl
@[simp] theorem advancePc_cursor (s : State) : (advancePc s).cursor = s.cursor := rfl
@[simp] theorem advancePc_rdptr (s : State) : (advancePc s).rdptr = s.rdptr := rfl
@[simp] theorem advancePc_drem (s : State) : (advancePc s).drem = s.drem := rfl
@[simp] theorem advancePc_dsymSym (s : State) : (advancePc s).dsymSym = s.dsymSym := rfl
@[simp] theorem advancePc_dsymValid (s : State) : (advancePc s).dsymValid = s.dsymValid := rfl
@[simp] theorem advancePc_buf (s : State) : (advancePc s).buf = s.buf := rfl
@[simp] theorem advancePc_bitlen (s : State) : (advancePc s).bitlen = s.bitlen := rfl
@[simp] theorem advancePc_program (s : State) : (advancePc s).program = s.program := rfl
@[simp] theorem advancePc_pc (s : State) : (advancePc s).pc = s.pc + 1 := rfl

/-! ### startCoding -/

@[simp] theorem startCoding_w (s : State) : (startCoding s).w = s.w := rfl
@[simp] theorem startCoding_err (s : State) : (startCoding s).err = s.err := rfl
@[simp] theorem startCoding_sub (s : State) : (startCoding s).sub = s.sub := rfl
@[simp] theorem startCoding_phase (s : State) : (startCoding s).phase = s.phase := rfl
@[simp] theorem startCoding_errcmd (s : State) : (startCoding s).errcmd = s.errcmd := rfl
@[simp] theorem startCoding_cnt (s : State) : (startCoding s).cnt = s.cnt := rfl
@[simp] theorem startCoding_total (s : State) : (startCoding s).total = s.total := rfl
@[simp] theorem startCoding_seg (s : State) : (startCoding s).seg = s.seg := rfl
@[simp] theorem startCoding_l (s : State) : (startCoding s).l = 0#16 := rfl
@[simp] theorem startCoding_h (s : State) : (startCoding s).h = BitVec.ofNat 16 (rangeSize s - 1) := rfl
@[simp] theorem startCoding_te (s : State) : (startCoding s).te = 0#32 := rfl
@[simp] theorem startCoding_since (s : State) : (startCoding s).since = 0#16 := rfl
@[simp] theorem startCoding_nsym (s : State) : (startCoding s).nsym = 0#16 := rfl
@[simp] theorem startCoding_v (s : State) : (startCoding s).v = s.v := rfl
@[simp] theorem startCoding_cursor (s : State) : (startCoding s).cursor = s.cursor := rfl
@[simp] theorem startCoding_rdptr (s : State) : (startCoding s).rdptr = s.rdptr := rfl
@[simp] theorem startCoding_drem (s : State) : (startCoding s).drem = s.drem := rfl
@[simp] theorem startCoding_dsymSym (s : State) : (startCoding s).dsymSym = s.dsymSym := rfl
@[simp] theorem startCoding_dsymValid (s : State) : (startCoding s).dsymValid = s.dsymValid := rfl
@[simp] theorem startCoding_buf (s : State) : (startCoding s).buf = s.buf := rfl
@[simp] theorem startCoding_bitlen (s : State) : (startCoding s).bitlen = s.bitlen := rfl
@[simp] theorem startCoding_program (s : State) : (startCoding s).program = s.program := rfl
@[simp] theorem startCoding_pc (s : State) : (startCoding s).pc = s.pc := rfl

end Sys2Proof.Machine
end

