-- ==== Sys2Proof/Laws/Ops.lean ====
section
/-! SUPPORT. What the shared operations can do, one lemma each: the end of a command, the table and buffer accessors
after an update, and the numbers of the error codes. -/

namespace Sys2Proof.Machine

variable {i : Instr} {s t : State} {own : Except ErrorCode State}

/-! ### The end of a command -/

/-- Everything a command can answer: one of the two common errors, an error of its own, or its committed state
(60_exceptions.md R230, R235). -/
theorem perform_cases (h : perform i s own = .next t) :
    (operandInRange i = false ∧ t = raise .illegalOperand (encode i) s) ∨
    (operandInRange i = true ∧ legalIn i s.phase = false ∧ t = raise .sequencePhase (encode i) s) ∨
    (operandInRange i = true ∧ legalIn i s.phase = true ∧
      ((∃ e, own = .error e ∧ t = raise e (encode i) s) ∨ own = .ok t)) := by
  unfold perform checked at h
  split at h
  · next hr => cases h; exact .inl ⟨hr, rfl⟩
  · next hr =>
    rw [Bool.not_eq_false] at hr
    split at h
    · next hl => cases h; exact .inr (.inl ⟨hr, hl, rfl⟩)
    · next hl =>
      rw [Bool.not_eq_false] at hl
      refine .inr (.inr ⟨hr, hl, ?_⟩)
      cases own with
      | ok u => cases h; exact .inr rfl
      | error e => cases h; exact .inl ⟨e, rfl, rfl⟩

theorem perform_ok (hr : operandInRange i = true) (hl : legalIn i s.phase = true) (h : own = .ok t) :
    perform i s own = .next t := by
  simp [perform, checked, hr, hl, h, conclude]

theorem perform_error {e : ErrorCode} (hr : operandInRange i = true) (hl : legalIn i s.phase = true)
    (h : own = .error e) : perform i s own = .next (raise e (encode i) s) := by
  simp [perform, checked, hr, hl, h, conclude]

theorem perform_outside_phase (hr : operandInRange i = true) (hl : legalIn i s.phase = false) :
    perform i s own = .next (raise .sequencePhase (encode i) s) := by
  simp [perform, checked, hr, hl, conclude]

theorem perform_out_of_range (hr : operandInRange i = false) :
    perform i s own = .next (raise .illegalOperand (encode i) s) := by
  simp [perform, checked, hr, conclude]

/-- A command always answers a next state. -/
theorem perform_answers_next (i : Instr) (s : State) (own : Except ErrorCode State) :
    ∃ t, perform i s own = .next t := by
  unfold perform conclude
  split
  · exact ⟨_, rfl⟩
  · exact ⟨_, rfl⟩

/-- No command stops the machine (60_exceptions.md R230). -/
theorem exec_answers_next (i : Instr) (s : State) : ∃ t, exec i s = .next t := by
  cases i <;>
    simp only [exec, execNop, execReset, execClrerr, execAbort, execSetw, execCntclr, execCnt, execBuild, execSegclr,
      execSeglo, execSeghi, execBufclr, execBufput, execEncstart, execEncsym, execEncflush, execDecstart, execDecsym,
      perform_answers_next]

/-- No accepted word stops the machine (60_exceptions.md R230, R233). -/
theorem issue_answers_next (cmd : Word) (s : State) : ∃ t, issue cmd s = .next t := by
  unfold issue execute
  split
  · exact ⟨s, rfl⟩
  · split
    · exact ⟨_, rfl⟩
    · exact exec_answers_next _ s

/-- Every error has a nonzero code and a nonzero sub-code (60_exceptions.md R231). -/
theorem errBits_ne_zero (e : ErrorCode) : e.errBits ≠ 0#4 := by cases e <;> decide

theorem subBits_ne_zero (e : ErrorCode) : e.subBits ≠ 0#4 := by cases e <;> decide

/-! ### Tables -/

@[simp] theorem rangeSize_pos (s : State) : 0 < rangeSize s := Nat.two_pow_pos _

theorem symIndex_lt (sym : Symbol) : symIndex sym < Config.nSyms := sym.isLt

theorem symIndex_inj {a b : Symbol} : symIndex a = symIndex b ↔ a = b := BitVec.toNat_inj

theorem count_setCounts_write (hm : Memory.wf Config.nSyms 0#16 s.cnt) (sym o : Symbol) (x n : BitVec 16) :
    count (setCounts (Memory.write 0#16 s.cnt (symIndex sym) x) n s) o = if o = sym then x else count s o := by
  unfold count
  split
  · next h => subst h; simpa using read_write_same 0#16 hm.1 _ x
  · next h => simpa using read_write_other 0#16 s.cnt x (mt symIndex_inj.1 h)

theorem segmentOf_putSegment (hm : Memory.wf Config.nSyms Segment.empty s.seg) (sym o : Symbol) (e : Segment) :
    segmentOf (putSegment sym e s) o = if o = sym then e else segmentOf s o := by
  unfold segmentOf
  split
  · next h => subst h; simpa using read_write_same Segment.empty hm.1 _ e
  · next h => simpa using read_write_other Segment.empty s.seg e (mt symIndex_inj.1 h)

@[simp] theorem segmentOf_setTable_nil (sym : Symbol) : segmentOf (setTable [] s) sym = Segment.empty := rfl

@[simp] theorem count_setCounts_nil (n : BitVec 16) (sym : Symbol) : count (setCounts [] n s) sym = 0#16 := rfl

/-- The table entries and what is computed from them depend on the table and `W` alone. -/
theorem segmentOf_congr (h : s.seg = t.seg) : segmentOf s = segmentOf t := by
  funext sym; simp only [segmentOf, h]

theorem count_congr (h : s.cnt = t.cnt) : count s = count t := by
  funext sym; simp only [count, h]

theorem rangeSize_congr (h : s.w = t.w) : rangeSize s = rangeSize t := by simp only [rangeSize, h]

theorem presentSymbols_congr (h : s.seg = t.seg) : presentSymbols s = presentSymbols t := by
  simp only [presentSymbols, segmentOf_congr h]

theorem tableOk_congr (h : s.seg = t.seg) (hw : s.w = t.w) : tableOk s = tableOk t := by
  simp only [tableOk, segmentOf_congr h, presentSymbols_congr h, rangeSize_congr hw]

theorem segmentAt_congr (h : s.seg = t.seg) (pos : Nat) : segmentAt s pos = segmentAt t pos := by
  simp only [segmentAt, segmentOf_congr h]

/-! ### The bit buffer -/

theorem cell_congr (h : s.buf = t.buf) : cell s = cell t := by funext a; simp only [cell, h]

theorem bitAt_congr (h : s.buf = t.buf) (hl : s.bitlen = t.bitlen) : bitAt s = bitAt t := by
  funext a; simp only [bitAt, cell_congr h, hl]

/-- `Append` adds its length to `BITLEN` when the bits fit (20_memory.md R63). -/
theorem bitlen_appendBits {bits : BitString} (h : s.bitlen.toNat + bits.length ≤ Config.bufBits) :
    (appendBits bits s).bitlen.toNat = s.bitlen.toNat + bits.length := by
  have : Config.bufBits < 2 ^ 17 := by decide
  rw [appendBits_bitlen, BitVec.toNat_ofNat, Nat.mod_eq_of_lt (by omega)]

/-- `Append` leaves every cell outside its run alone. -/
theorem cell_appendBits_outside {bits : BitString} {a : Nat}
    (h : a < s.bitlen.toNat ∨ s.bitlen.toNat + bits.length ≤ a) : cell (appendBits bits s) a = cell s a := by
  unfold cell
  rw [appendBits_buf, read_writeBits_outside _ _ h]

/-- `Append` writes its bits upwards from `BITLEN`, the first at the lowest index. -/
theorem cell_appendBits_inside (hm : Memory.wf Config.bufBits false s.buf) {bits : BitString} {j : Nat}
    (h : j < bits.length) : cell (appendBits bits s) (s.bitlen.toNat + j) = bits[j] := by
  unfold cell
  rw [appendBits_buf, read_writeBits_inside hm.1 bits _ j h]

theorem wf_appendBits (hm : Memory.wf Config.bufBits false s.buf) {bits : BitString}
    (h : s.bitlen.toNat + bits.length ≤ Config.bufBits) : Memory.wf Config.bufBits false (appendBits bits s).buf := by
  rw [appendBits_buf]
  exact wf_writeBits hm bits h

theorem fits_iff (n : Nat) : fits s n = true ↔ s.bitlen.toNat + n ≤ Config.bufBits := by simp [fits]

@[simp] theorem length_bitsMsbFirst (x n : Nat) : (bitsMsbFirst x n).length = n := by
  induction n with
  | zero => rfl
  | succ n ih => simp [bitsMsbFirst, ih]

/-! ### Canonical memories

Every operation on a memory keeps its canonical form: `wf_write`, `wf_appendBits`, `wf_segmentsOf`, `wf_nil`, and the
two below. -/

theorem wf_putSegment (hm : Memory.wf Config.nSyms Segment.empty s.seg) (sym : Symbol) (e : Segment) :
    Memory.wf Config.nSyms Segment.empty (putSegment sym e s).seg := by
  rw [putSegment_seg]
  exact wf_write hm (symIndex_lt sym) e

theorem wf_countWrite (hm : Memory.wf Config.nSyms 0#16 s.cnt) (sym : Symbol) (x n : BitVec 16) :
    Memory.wf Config.nSyms 0#16 (setCounts (Memory.write 0#16 s.cnt (symIndex sym) x) n s).cnt := by
  rw [setCounts_cnt]
  exact wf_write hm (symIndex_lt sym) x

end Sys2Proof.Machine
end

