-- ==== Sys2Proof/Laws/PerInstr.lean ====
section
/-! SUPPORT. Statements made once per command: the fields of an encoded word (30_encoding.md R80 to R83). -/

namespace Sys2Proof

theorem opcField_append (o : BitVec 8) (a : BitVec 8) (b : BitVec 16) : opcField (o ++ a ++ b) = o := by
  apply BitVec.eq_of_getLsbD_eq
  intro j hj
  simp only [opcField, BitVec.getLsbD_extractLsb', BitVec.getLsbD_append]
  simp [show ¬ 24 + j < 16 by omega, show ¬ 24 + j - 16 < 8 by omega, show 24 + j - 16 - 8 = j by omega, hj]

theorem symField_append (o : BitVec 8) (a : BitVec 8) (b : BitVec 16) : symField (o ++ a ++ b) = a := by
  apply BitVec.eq_of_getLsbD_eq
  intro j hj
  simp only [symField, BitVec.getLsbD_extractLsb', BitVec.getLsbD_append]
  simp [show ¬ 16 + j < 16 by omega, show 16 + j - 16 = j by omega, hj]

theorem immField_append (o : BitVec 8) (a : BitVec 8) (b : BitVec 16) : immField (o ++ a ++ b) = b := by
  apply BitVec.eq_of_getLsbD_eq
  intro j hj
  simp only [immField, BitVec.getLsbD_extractLsb', BitVec.getLsbD_append]
  simp [hj]

namespace Laws.EncodedFields

/-- The three fields of a command's word are its opcode and its operands (30_encoding.md R80, R82). -/
def Statement (i : Instr) : Prop :=
  opcField (encode i) = opcodeOf i ∧ symField (encode i) = symOf i ∧ immField (encode i) = immOf i

theorem of_append (i : Instr) : Statement i :=
  ⟨opcField_append _ _ _, symField_append _ _ _, immField_append _ _ _⟩

theorem nop : Statement .nop := of_append _
theorem reset : Statement .reset := of_append _
theorem clrerr : Statement .clrerr := of_append _
theorem abort : Statement .abort := of_append _
theorem setw (imm : Imm) : Statement (.setw imm) := of_append _
theorem cntclr : Statement .cntclr := of_append _
theorem cnt (sym : Symbol) : Statement (.cnt sym) := of_append _
theorem build : Statement .build := of_append _
theorem segclr : Statement .segclr := of_append _
theorem seglo (sym : Symbol) (imm : Imm) : Statement (.seglo sym imm) := of_append _
theorem seghi (sym : Symbol) (imm : Imm) : Statement (.seghi sym imm) := of_append _
theorem bufclr : Statement .bufclr := of_append _
theorem bufput (n : BitVec 8) (bits : Imm) : Statement (.bufput n bits) := of_append _
theorem encstart : Statement .encstart := of_append _
theorem encsym (sym : Symbol) : Statement (.encsym sym) := of_append _
theorem encflush : Statement .encflush := of_append _
theorem decstart (n : Imm) : Statement (.decstart n) := of_append _
theorem decsym : Statement .decsym := of_append _

end Laws.EncodedFields

end Sys2Proof
end

