-- ==== Sys2Proof/Laws/Port.lean ====
section
/-! SUPPORT. What one edge at the ports can do, case by case (20_memory.md R71; 70_reset_and_hazards.md R260). -/

namespace Sys2Proof.Machine

variable {p : PortState} {i : PortInput}

@[simp] theorem progress_zero (cmd : Word) (s : State) (e : Nat) :
    progress cmd 0 s e = { core := completed cmd s, inFlight := none, edges := e } := rfl

@[simp] theorem progress_succ (cmd : Word) (n : Nat) (s : State) (e : Nat) :
    progress cmd (n + 1) s e = { core := s, inFlight := some (cmd, n), edges := e } := rfl

/-- The core is ready exactly when no command is in flight (10_state.md R46). -/
theorem cmdReady_iff : cmdReady p = true ↔ p.inFlight = none := by simp [cmdReady]

/-- A command is accepted exactly when it is offered, none is in flight and `rst = 0`. -/
theorem accepts_iff : accepts p i = true ↔ i.cmdValid = true ∧ p.inFlight = none ∧ i.rst = false := by
  simp [accepts, cmdReady_iff, and_assoc]

theorem clockEdge_rst (h : i.rst = true) :
    clockEdge p i = { core := hardReset p.core, inFlight := none, edges := p.edges + 1 } := by
  simp [clockEdge, h]

theorem clockEdge_busy {cmd : Word} {left : Nat} (h : i.rst = false) (hf : p.inFlight = some (cmd, left)) :
    clockEdge p i = progress cmd left p.core (p.edges + 1) := by
  simp [clockEdge, h, hf]

theorem clockEdge_accept (h : i.rst = false) (hf : p.inFlight = none) (hv : i.cmdValid = true) :
    clockEdge p i =
      progress i.cmdData (Config.cmdLatency p.edges i.cmdData) (advancePc p.core) (p.edges + 1) := by
  simp [clockEdge, h, hf, accepts_iff.2 ⟨hv, hf, h⟩]

theorem clockEdge_idle (h : i.rst = false) (hf : p.inFlight = none) (hv : i.cmdValid = false) :
    clockEdge p i = { p with edges := p.edges + 1 } := by
  have : accepts p i = false := by simp [accepts, hv]
  simp [clockEdge, h, hf, this]

@[simp] theorem clockEdges_nil : clockEdges p [] = p := rfl

@[simp] theorem clockEdges_cons (rest : List PortInput) :
    clockEdges p (i :: rest) = clockEdges (clockEdge p i) rest := rfl

end Sys2Proof.Machine
end

