-- ==== Sys2Proof/Machine/Assembly.lean ====
section
/-! DEFINITION. The assembly language of 30_encoding.md R90 and R91, over characters: one line gives the commands it
stands for. It is the host's notation; the core sees command words alone. What R90 does not say of a line is log entry
16. -/

namespace Sys2Proof.Machine

/-- The tokens of a line. -/
inductive AsmToken where
  /-- A mnemonic or a number, as written. -/
  | name (text : List Char)
  /-- A character literal, by its code. -/
  | literal (code : Nat)
  /-- A quoted string. -/
  | text (chars : List Char)
  | comma
deriving DecidableEq, Repr

/-- Whether a string is being read, and the characters read so far, the last one first. -/
inductive AsmMode where
  | plain (read : List Char)
  | quoted (read : List Char)
deriving DecidableEq, Repr

/-- The name read so far as a token, in front of the later ones. -/
def endName (read : List Char) (later : List AsmToken) : List AsmToken :=
  if read.isEmpty then later else .name read.reverse :: later

/-- A line as tokens. A comment starts with `;` (30_encoding.md R90). DESIGN CHOICE, log entry 16: a `;` inside a
character literal or a quoted string is an ordinary character there and starts no comment; a character literal needs no
separator before it, while a quoted string right after a name is refused; and a quoted string ends at the next `"`, with
no escape, so it cannot hold that character. -/
def tokens : List Char → AsmMode → Option (List AsmToken)
  | [], .plain read => some (endName read [])
  | [], .quoted _ => none
  | '\'' :: c :: '\'' :: rest, .plain read =>
    if c.toNat < 128 then (tokens rest (.plain [])).map fun later => endName read (.literal c.toNat :: later) else none
  | c :: rest, .plain read =>
    if c = ';' then some (endName read [])
    else if c = ' ' ∨ c = '\t' then (tokens rest (.plain [])).map (endName read)
    else if c = ',' then (tokens rest (.plain [])).map fun later => endName read (.comma :: later)
    else if c = '"' then if read.isEmpty then tokens rest (.quoted []) else none
    else tokens rest (.plain (c :: read))
  | c :: rest, .quoted read =>
    if c = '"' then (tokens rest (.plain [])).map (.text read.reverse :: ·) else tokens rest (.quoted (c :: read))

/-- The value of a digit. -/
def digitValue (c : Char) : Option Nat :=
  if '0' ≤ c ∧ c ≤ '9' then some (c.toNat - '0'.toNat)
  else if 'a' ≤ c ∧ c ≤ 'f' then some (c.toNat - 'a'.toNat + 10)
  else if 'A' ≤ c ∧ c ≤ 'F' then some (c.toNat - 'A'.toNat + 10)
  else none

/-- The digits of a number after a value read so far. -/
def digitsFrom (base : Nat) : List Char → Nat → Option Nat
  | [], read => some read
  | c :: rest, read =>
    match digitValue c with
    | some d => if d < base then digitsFrom base rest (read * base + d) else none
    | none => none

/-- A number with at least one digit. -/
def digits (base : Nat) (text : List Char) : Option Nat := if text.isEmpty then none else digitsFrom base text 0

/-- A numeric operand: decimal, hexadecimal, binary, or a character literal (30_encoding.md R90). -/
def operandValue : AsmToken → Option Nat
  | .literal code => some code
  | .name ('0' :: 'x' :: text) => digits 16 text
  | .name ('0' :: 'b' :: text) => digits 2 text
  | .name text => digits 10 text
  | .text _ | .comma => none

/-- An operand for the field `SYM`: a value that fits 8 bits. -/
def symOperand (t : AsmToken) : Option (BitVec 8) :=
  (operandValue t).bind fun x => if x < 2 ^ 8 then some (BitVec.ofNat 8 x) else none

/-- An operand for the field `IMM`: a value that fits 16 bits. -/
def immOperand (t : AsmToken) : Option Imm :=
  (operandValue t).bind fun x => if x < 2 ^ 16 then some (BitVec.ofNat 16 x) else none

/-- The symbols of a quoted string: one character code each (30_encoding.md R90, R91). DESIGN CHOICE, log entry 16: an
empty string is accepted and has no symbols, so `CNTS ""` and `ENCS ""` expand to no command. -/
def symbolsOf : List Char → Option (List Symbol)
  | [] => some []
  | c :: rest =>
    if c.toNat < 128 then (symbolsOf rest).map (BitVec.ofNat 8 c.toNat :: ·) else none

/-- The bits of a quoted string of `0` and `1` (30_encoding.md R91). -/
def bitsOfText : List Char → Option BitString
  | [] => some []
  | c :: rest =>
    if c = '0' then (bitsOfText rest).map (false :: ·)
    else if c = '1' then (bitsOfText rest).map (true :: ·)
    else none

/-- The formats by operand: `F0`, `FS`, `FI` and `FSI` (30_encoding.md R81, R90). -/
def asmF0 (i : Instr) : List AsmToken → Option (List Instr)
  | [] => some [i]
  | _ => none

def asmFS (i : BitVec 8 → Instr) : List AsmToken → Option (List Instr)
  | [a] => (symOperand a).map fun sym => [i sym]
  | _ => none

def asmFI (i : Imm → Instr) : List AsmToken → Option (List Instr)
  | [a] => (immOperand a).map fun imm => [i imm]
  | _ => none

def asmFSI (i : BitVec 8 → Imm → Instr) : List AsmToken → Option (List Instr)
  | [a, .comma, b] => (symOperand a).bind fun sym => (immOperand b).map fun imm => [i sym imm]
  | _ => none

/-- `CNTS` and `ENCS` (30_encoding.md R91). -/
def asmSymbols (f : List Symbol → List Instr) : List AsmToken → Option (List Instr)
  | [.text chars] => (symbolsOf chars).map f
  | _ => none

/-- `SEG` (30_encoding.md R91). -/
def asmSeg : List AsmToken → Option (List Instr)
  | [a, .comma, b, .comma, c] =>
    (symOperand a).bind fun sym => (immOperand b).bind fun lo => (immOperand c).map fun hi => loadSegment sym lo hi
  | _ => none

/-- `LOADBITS` (30_encoding.md R91). -/
def asmLoadbits : List AsmToken → Option (List Instr)
  | [.text chars] => (bitsOfText chars).map loadbits
  | _ => none

/-- `ENCODE` (30_encoding.md R91). -/
def asmEncode : List AsmToken → Option (List Instr)
  | [a, .comma, .text chars] => (immOperand a).bind fun w => (symbolsOf chars).map (encodeSequence w)
  | _ => none

/-- `DECODE` (30_encoding.md R91). -/
def asmDecode : List AsmToken → Option (List Instr)
  | [a] => (immOperand a).map decodeSequence
  | _ => none

/-- The commands of one mnemonic, in capitals, and its operands (30_encoding.md R83, R90, R91). -/
def asmCommand (mnemonic : List Char) (args : List AsmToken) : Option (List Instr) :=
  match mnemonic with
  | ['N', 'O', 'P'] => asmF0 .nop args
  | ['R', 'E', 'S', 'E', 'T'] => asmF0 .reset args
  | ['C', 'L', 'R', 'E', 'R', 'R'] => asmF0 .clrerr args
  | ['A', 'B', 'O', 'R', 'T'] => asmF0 .abort args
  | ['S', 'E', 'T', 'W'] => asmFI .setw args
  | ['C', 'N', 'T', 'C', 'L', 'R'] => asmF0 .cntclr args
  | ['C', 'N', 'T'] => asmFS .cnt args
  | ['B', 'U', 'I', 'L', 'D'] => asmF0 .build args
  | ['S', 'E', 'G', 'C', 'L', 'R'] => asmF0 .segclr args
  | ['S', 'E', 'G', 'L', 'O'] => asmFSI .seglo args
  | ['S', 'E', 'G', 'H', 'I'] => asmFSI .seghi args
  | ['B', 'U', 'F', 'C', 'L', 'R'] => asmF0 .bufclr args
  | ['B', 'U', 'F', 'P', 'U', 'T'] => asmFSI .bufput args
  | ['E', 'N', 'C', 'S', 'T', 'A', 'R', 'T'] => asmF0 .encstart args
  | ['E', 'N', 'C', 'S', 'Y', 'M'] => asmFS .encsym args
  | ['E', 'N', 'C', 'F', 'L', 'U', 'S', 'H'] => asmF0 .encflush args
  | ['D', 'E', 'C', 'S', 'T', 'A', 'R', 'T'] => asmFI .decstart args
  | ['D', 'E', 'C', 'S', 'Y', 'M'] => asmF0 .decsym args
  | ['C', 'N', 'T', 'S'] => asmSymbols cnts args
  | ['E', 'N', 'C', 'S'] => asmSymbols encs args
  | ['S', 'E', 'G'] => asmSeg args
  | ['L', 'O', 'A', 'D', 'B', 'I', 'T', 'S'] => asmLoadbits args
  | ['E', 'N', 'C', 'O', 'D', 'E'] => asmEncode args
  | ['D', 'E', 'C', 'O', 'D', 'E'] => asmDecode args
  | _ => none

/-- One line of assembly (30_encoding.md R90): the commands it stands for, or none where it is no line of the language.
Mnemonics are case-insensitive; an empty line or a comment stands for no command. -/
def assembleLine (line : List Char) : Option (List Instr) :=
  match tokens line (.plain []) with
  | some [] => some []
  | some (.name mnemonic :: args) => asmCommand (mnemonic.map Char.toUpper) args
  | _ => none

end Sys2Proof.Machine
end

