-- ==== Sys2Proof/Tests/Slice0.lean ====
section
/-! SUPPORT. The model's own tests: the well-formedness smoke, decoding by words written out from 30_encoding.md, the
vectors of 95_test_vectors.md one command at a time, and for each statement with hypotheses a state that meets them. -/

/- One theorem after another: many kernel evaluations at once would share the check's memory limit. -/
set_option Elab.async false

namespace Sys2Proof.Tests

open Sys2Proof.Machine Sys2Proof.Claims

/-- The state after some command words from reset. -/
def after (words : List Word) : State :=
  match issueAll words State.reset with
  | .next t => t
  | .fault _ => State.reset
  | .refused _ => State.reset

/-- What `exec` answers, where it is a next state. -/
def nextOf (i : Instr) (s : State) : State :=
  match exec i s with
  | .next t => t
  | .fault _ => s
  | .refused _ => s

theorem exec_eq_nextOf (i : Instr) (s : State) : exec i s = .next (nextOf i s) := by
  obtain ⟨t, h⟩ := exec_answers_next i s
  simp only [nextOf, h]

/-- Whether a command answers a next state with a given `STATUS` (95_test_vectors.md). -/
def statusAfter (words : List Word) : Nat := (readPort (after words) 0x001).toNat

/-! ### Well-formedness smoke (30_encoding.md R87) -/

theorem test_setw_below_range_is_ill_formed : (Instr.setw 1).wellFormed = false := by decide
theorem test_setw_above_range_is_ill_formed : (Instr.setw 17).wellFormed = false := by decide
theorem test_bufput_no_bits_is_ill_formed : (Instr.bufput 0 0).wellFormed = false := by decide
theorem test_bufput_17_bits_is_ill_formed : (Instr.bufput 17 0).wellFormed = false := by decide
theorem test_bufput_wide_value_is_ill_formed : (Instr.bufput 2 4).wellFormed = false := by decide
theorem test_bounds_are_well_formed :
    (Instr.setw 2).wellFormed = true ∧ (Instr.setw 16).wellFormed = true ∧ (Instr.bufput 1 1).wellFormed = true ∧
    (Instr.bufput 16 0xFFFF).wellFormed = true := by decide

/-! ### Decoding: each constructor from its word, `OPC` `SYM` `IMM` written out (30_encoding.md R80, R83) -/

theorem test_decode_nop : decode 0b00000000_00000000_0000000000000000#32 = .ok .nop := by decide
theorem test_decode_reset : decode 0b00000001_00000000_0000000000000000#32 = .ok .reset := by decide
theorem test_decode_clrerr : decode 0b00000010_00000000_0000000000000000#32 = .ok .clrerr := by decide
theorem test_decode_abort : decode 0b00000011_00000000_0000000000000000#32 = .ok .abort := by decide
theorem test_decode_setw : decode 0b00010000_00000000_0000000000001000#32 = .ok (.setw 8) := by decide
theorem test_decode_cntclr : decode 0b00100000_00000000_0000000000000000#32 = .ok .cntclr := by decide
theorem test_decode_cnt : decode 0b00100001_01100001_0000000000000000#32 = .ok (.cnt 0x61) := by decide
theorem test_decode_build : decode 0b00100010_00000000_0000000000000000#32 = .ok .build := by decide
theorem test_decode_segclr : decode 0b00101000_00000000_0000000000000000#32 = .ok .segclr := by decide
theorem test_decode_seglo : decode 0b00101001_01100010_0000000011100100#32 = .ok (.seglo 0x62 228) := by decide
theorem test_decode_seghi : decode 0b00101010_01100010_0000000011111111#32 = .ok (.seghi 0x62 255) := by decide
theorem test_decode_bufclr : decode 0b00110000_00000000_0000000000000000#32 = .ok .bufclr := by decide
theorem test_decode_bufput : decode 0b00110001_00000011_0000000000000011#32 = .ok (.bufput 3 3) := by decide
theorem test_decode_encstart : decode 0b01000000_00000000_0000000000000000#32 = .ok .encstart := by decide
theorem test_decode_encsym : decode 0b01000001_01110100_0000000000000000#32 = .ok (.encsym 0x74) := by decide
theorem test_decode_encflush : decode 0b01000010_00000000_0000000000000000#32 = .ok .encflush := by decide
theorem test_decode_decstart : decode 0b01010000_00000000_0000000000001011#32 = .ok (.decstart 11) := by decide
theorem test_decode_decsym : decode 0b01010001_00000000_0000000000000000#32 = .ok .decsym := by decide

/-- 95_test_vectors.md X1, X3, X5, X6, X7, X12. -/
theorem test_decode_refuses :
    decode 0x04000000#32 = .error .reservedOpcode ∧ decode 0x00000001#32 = .error .mustBeZero ∧
    decode 0x21610001#32 = .error .mustBeZero ∧ decode 0x10610008#32 = .error .mustBeZero ∧
    decode 0x10000001#32 = .error .operandRange ∧ decode 0x31020004#32 = .error .operandRange := by decide

/-! ### Vectors of 95_test_vectors.md, one command each -/

/-- The table of `"aaagggcacat"` at `W = 8` (B1), loaded by hand, and the coding state before step 5 of E2. -/
def tableB1 : List Word :=
  [0x29610000, 0x2A610074, 0x29630075, 0x2A6300A2, 0x296700A3, 0x2A6700E8, 0x297400E9, 0x2A7400FF]
def beforeE2Step5 : State :=
  { after (tableB1 ++ [0x40000000]) with l := 80, h := 175, te := 4, since := 1, nsym := 4, bitlen := 3 }

/-- X27, X28. -/
theorem test_nop_in_error_state_is_ignored : nextOf .nop (after [0x40000000]) = after [0x40000000] := by
  decide +kernel
/-- 46_control.md R211. -/
theorem test_reset_restores_w : (after [0x10000004, 0x01000000]).w = 8 := by decide +kernel
/-- X27. -/
theorem test_clrerr_clears_status : statusAfter [0x40000000, 0x02000000] = 0 := by decide +kernel
/-- X24. -/
theorem test_abort_goes_idle : statusAfter [0x21610000, 0x22000000, 0x40000000, 0x03000000] = 0 := by decide +kernel
/-- X9, and X22: the range is checked before the phase. -/
theorem test_setw : (after [0x10000002]).w = 2 := by decide +kernel
theorem test_setw_range_before_phase : statusAfter [0x21610000, 0x22000000, 0x40000000, 0x10000028] = 0x134 := by
  decide +kernel
/-- 40_segment_builder.md R101. -/
theorem test_cntclr : (after [0x21610000, 0x20000000]).total = 0 := by decide +kernel
/-- 40_segment_builder.md R102. -/
theorem test_cnt : (readPort (after [0x21610000, 0x21610000]) 0x161).toNat = 2 := by decide +kernel
/-- B11: `K = N` gives every symbol width 1. -/
theorem test_build_unit_widths :
    (entryAt (after [0x10000002, 0x21610000, 0x21620000, 0x21630000, 0x21640000, 0x22000000]) 0x63) =
      ⟨true, 2, 2⟩ := by decide +kernel
/-- B7: `K > N`. -/
theorem test_build_alphabet_too_large :
    statusAfter [0x10000002, 0x21610000, 0x21620000, 0x21630000, 0x21640000, 0x21650000, 0x22000000] = 0x012 := by
  decide +kernel
/-- 40_segment_builder.md R109. -/
theorem test_segclr : statusAfter [0x2A6100FF, 0x28000000, 0x40000000] = 0x041 := by decide +kernel
/-- B6. -/
theorem test_seglo_leaves_absent : (readPort (after [0x296200E4]) 0x262).toNat = 0x000000E4 := by decide +kernel
theorem test_seghi_makes_present : (readPort (after [0x296200E4, 0x2A6200FF]) 0x262).toNat = 0x800000E4 := by
  decide +kernel
/-- BB5. -/
theorem test_bufclr : (readPort (after [0x3110104B, 0x30000000]) 0x400).toNat = 0 := by decide +kernel
/-- BB1, BB3. -/
theorem test_bufput : (readPort (after [0x31030003]) 0x400).toNat = 0x60000000 := by decide +kernel
/-- B15, B18. -/
theorem test_encstart_overlap : statusAfter [0x29610000, 0x2A610064, 0x29620064, 0x2A6200FF, 0x40000000] = 0x041 := by
  decide +kernel
theorem test_encstart_accepts : statusAfter [0x2A61000F, 0x10000004, 0x40000000] = 0x100 := by decide +kernel
/-- E2 step 5: `ENCSYM 'g'` emits `100000`. -/
theorem test_encsym :
    let t := nextOf (.encsym 0x67) beforeE2Step5
    (t.l, t.h, t.te, t.since, t.bitlen) = (112, 191, 1, 0, 9) ∧
      (List.range 6).map (fun j => bitAt t (3 + j)) = [true, false, false, false, false, false] := by decide +kernel
/-- E7: the projection is empty. -/
theorem test_encsym_collapse :
    statusAfter [0x10000004, 0x2A61000E, 0x2962000F, 0x2A62000F, 0x40000000, 0x41610000, 0x41620000] = 0x122 := by
  decide +kernel
/-- E1, shortened to one symbol: the terminator is `10`. -/
theorem test_encflush :
    (readPort (after [0x2A6100FF, 0x40000000, 0x41610000, 0x42000000]) 0x400).toNat = 0x80000000 := by decide +kernel
/-- DC1: `V = 16`, `RDPTR = 8`. -/
theorem test_decstart :
    let t := after (tableB1 ++ [0x3110104B, 0x3110FD61, 0x5000000B])
    (t.v, t.rdptr, t.drem) = (16, 8, 11) := by decide +kernel
/-- DC1 step 1. -/
theorem test_decsym :
    let t := after (tableB1 ++ [0x3110104B, 0x3110FD61, 0x5000000B, 0x51000000])
    (t.h, t.v, t.cursor, t.rdptr, t.drem, t.dsymSym) = (233, 32, 1, 9, 10, 0x61) := by decide +kernel
/-- DC8: the stream ended. -/
theorem test_decsym_past_end : statusAfter (tableB1 ++ [0x5000000B, 0x51000000, 0x51000000]) = 0x223 := by
  decide +kernel

/-- PJ2, PJ6, PJ10. -/
theorem test_project :
    project 256 163 232 80 175 = (142, 167) ∧ project 16 15 15 0 14 = (15, 14) ∧
      project 65536 65535 65535 0 65535 = (65535, 65535) := by decide
/-- RN1, RN4, RN8. -/
theorem test_renorm :
    renorm 8 125 178 0 0 = ⟨80, 175, 4, 1, [], 0, 4⟩ ∧
    renorm 8 64 107 7 1 = ⟨0, 175, 0, 0, [false, true, true, true, true, true, true, true, true], 2, 0⟩ ∧
    renorm 2 1 2 0 0 = ⟨0, 3, 1, 1, [], 0, 1⟩ := by decide +kernel
/-- The forms of 30_encoding.md R90: decimal, binary and character operands, a comment, lower-case mnemonics. -/
theorem test_assembly_forms :
    assembleLine "SETW 8".toList = some [.setw 8] ∧ assembleLine "cnt 'a' ; one more".toList = some [.cnt 0x61] ∧
    assembleLine "BUFPUT 3, 0b011".toList = some [.bufput 3 3] ∧
    assembleLine "SEGLO 'b', 228".toList = some [.seglo 0x62 228] ∧ assembleLine "NOP 3".toList = none := by
  decide +kernel
/-- The expansions of R91, with the `LOADBITS` example of 45_bit_buffer.md R202. -/
theorem test_assembly_expansions :
    assembleLine "SEG 'a', 0, 227".toList = some [.seglo 0x61 0, .seghi 0x61 227] ∧
    assembleLine "LOADBITS \"00010000010010111111110101100001\"".toList =
      some [.bufclr, .bufput 16 0x104B, .bufput 16 0xFD61] ∧
    assembleLine "DECODE 2".toList = some [.decstart 2, .decsym, .decsym] ∧
    assembleLine "ENCODE 8, \"aa\"".toList = some [.setw 8, .cntclr, .cnt 0x61, .cnt 0x61, .build, .encstart,
      .encsym 0x61, .encsym 0x61, .encflush] := by decide +kernel
/-- The first step after reset runs the word placed for it. -/
theorem test_first_step :
    step (State.reset.withFetchWord 32 0x10000004) =
      .next { State.reset with w := 4, program := [0x10000004], pc := 1 } := by rfl

/-! ### Witnesses: for each statement with hypotheses, states and operands that meet them together, clause by clause -/

/-- The table `a [0,1]`, `b [2,3]` at `W = 2` (B5), then an encoding session, its end, and a decoding session of one
symbol over its bitstring. -/
def loadWords : List Word := [0x10000002, 0x2A610001, 0x29620002, 0x2A620003]
def loaded : State := after loadWords
def encoding : State := after (loadWords ++ [0x40000000])
def encodedOne : State := after (loadWords ++ [0x40000000, 0x41620000])
def finished : State := after (loadWords ++ [0x40000000, 0x41620000, 0x42000000])
def decoding : State := after (loadWords ++ [0x40000000, 0x41620000, 0x42000000, 0x50000001])
/-- The counts `a 1`, `b 1` at `W = 2`; an error state; a full buffer. -/
def counted : State := after [0x10000002, 0x21610000, 0x21620000]
def errorState : State := after [0x40000000]
def fullBuffer : State := { State.reset with bitlen := 65536 }

theorem witness_wellFormed :
    (Instr.setw 2).wellFormed = true ∧ (Instr.setw 16).wellFormed = true ∧ (Instr.bufput 1 1).wellFormed = true ∧
    (Instr.bufput 16 0xFFFF).wellFormed = true ∧ Instr.nop.wellFormed = true := by decide
theorem witness_decodedWord : decode 0x31100000#32 = .ok (.bufput 16 0) := by decide
theorem witness_reservedOpcode :
    State.reset.err = 0#4 ∧
    (∀ w ∈ ([0x04000000, 0x0F000000, 0x11000000, 0x1F000000, 0x23000000, 0x27000000, 0x2B000000, 0x2F000000, 0x32000000,
      0x3F000000, 0x43000000, 0x4F000000, 0x52000000, 0xFF000000] : List Nat), ReservedOpcode (opc (BitVec.ofNat 32 w))) ∧
    ∀ w ∈ ([0x03000000, 0x10000000, 0x22000000, 0x28000000, 0x2A000000, 0x31000000, 0x42000000, 0x51000000] : List Nat),
      ¬ ReservedOpcode (opc (BitVec.ofNat 32 w)) := by
  refine ⟨rfl, ?_, ?_⟩ <;> unfold ReservedOpcode <;> decide +kernel
theorem witness_unusedField :
    State.reset.err = 0#4 ∧
    (∀ w ∈ ([0x00010000, 0x00000001, 0x21610001, 0x10610008] : List Nat), NonzeroUnusedField (BitVec.ofNat 32 w)) ∧
    ¬ NonzeroUnusedField 0x21FF0000#32 ∧ ¬ NonzeroUnusedField 0x5000FFFF#32 := by
  refine ⟨rfl, ?_, ?_, ?_⟩ <;> unfold NonzeroUnusedField <;> decide +kernel
theorem witness_outOfRange :
    State.reset.err = 0#4 ∧
    (∀ w ∈ ([0x10000001, 0x10000011, 0x31000000, 0x31110000, 0x31020004] : List Nat), OperandOutOfRange (BitVec.ofNat 32 w)) ∧
    (∀ w ∈ ([0x10000002, 0x10000010, 0x31010001, 0x3110FFFF, 0x31020003] : List Nat), ¬ OperandOutOfRange (BitVec.ofNat 32 w)) ∧
    State.reset.phase = .idle ∧ encoding.phase = .enc ∧ (segmentOf encoding 0x63).valid = false := by
  refine ⟨rfl, ?_, ?_, rfl, ?_, ?_⟩
  · unfold OperandOutOfRange; decide +kernel
  · unfold OperandOutOfRange; decide +kernel
  · decide +kernel
  · decide +kernel

/-- The three ways past the gate: no error, `RESET` and `CLRERR` in the error state. -/
def offered (w : Word) (s : State) : State := placeCommand w s
theorem witness_step_runs :
    (∃ s t, s.err = 0#4 ∧ s.program[s.pc]? = some 0x10000004#32 ∧ decode 0x10000004#32 = .ok (.setw 4) ∧
      exec (.setw 4) s = .next t) ∧
    (∃ s t, s.err ≠ 0#4 ∧ s.program[s.pc]? = some 0x01000000#32 ∧ decode 0x01000000#32 = .ok .reset ∧
      exec .reset s = .next t) ∧
    (∃ s t, s.err ≠ 0#4 ∧ s.program[s.pc]? = some 0x02000000#32 ∧ decode 0x02000000#32 = .ok .clrerr ∧
      exec .clrerr s = .next t) :=
  ⟨⟨offered 0x10000004 State.reset, _, rfl, rfl, by decide, rfl⟩,
    ⟨offered 0x01000000 errorState, _, by decide +kernel, rfl, by decide, rfl⟩,
    ⟨offered 0x02000000 errorState, _, by decide +kernel, rfl, by decide, rfl⟩⟩
theorem witness_error_state :
    errorState.err ≠ 0#4 ∧ (0#32 : Word) ≠ 0x01000000#32 ∧ (0#32 : Word) ≠ 0x02000000#32 ∧
    (offered 0#32 errorState).program[(offered 0#32 errorState).pc]? = some 0#32 := by decide +kernel
theorem witness_index :
    (offered 0#32 State.reset).pc < (offered 0#32 State.reset).program.length ∧
    State.reset.program.length ≤ State.reset.pc := by decide
theorem witness_raised :
    ∃ t, issue 0x40000000#32 State.reset = .next t ∧ State.reset.err = 0#4 ∧ t.err ≠ 0#4 :=
  ⟨raise .invalidTable 0x40000000#32 State.reset, by rfl, rfl, by decide⟩
theorem witness_phases :
    State.reset.phase ∉ phasesOf (.encsym 0) ∧ State.reset.phase ∉ phasesOf .decsym ∧
    encoding.phase ∉ phasesOf .build ∧ encoding.phase ∈ phasesOf .encflush ∧ decoding.phase ∈ phasesOf .decsym ∧
    decoding.phase ∈ phasesOf .nop ∧ encoding.err = 0#4 ∧ decoding.err = 0#4 := by decide +kernel

/-- Each of the six moves of `PHASE` (46_control.md R217). -/
theorem witness_phase_moves :
    (nextOf .encstart loaded).phase = .enc ∧ loaded.phase = .idle ∧ (nextOf .encflush encodedOne).phase = .idle ∧
    encodedOne.phase = .enc ∧ (nextOf (.decstart 1) finished).phase = .dec ∧ finished.phase = .idle ∧
    (nextOf .decsym decoding).phase = .idle ∧ (nextOf .decsym decoding).drem = 0 ∧ decoding.phase = .dec ∧
    (nextOf .abort encoding).phase = .idle ∧ (nextOf .reset encoding).phase = .idle ∧ loaded.err = 0#4 ∧
    encodedOne.err = 0#4 ∧ finished.err = 0#4 ∧ decoding.err = 0#4 := by decide +kernel
theorem witness_session_lock :
    ∃ t, encoding.phase ≠ .idle ∧ Instr.encsym 0x62 ≠ .reset ∧ exec (.encsym 0x62) encoding = .next t :=
  ⟨nextOf (.encsym 0x62) encoding, by decide +kernel, by decide, by rfl⟩
theorem witness_reset_variants :
    opc 0x01000001#32 = 0x01 ∧ (0x01000001#32 : Word) ≠ 0x01000000#32 ∧ opc 0x02010000#32 = 0x02 ∧
    (0x02010000#32 : Word) ≠ 0x02000000#32 ∧ State.reset.err = 0#4 ∧ errorState.err ≠ 0#4 ∧
    ErrorRegistersLegal State.reset := by decide +kernel
theorem witness_only_in :
    encoding.phase ≠ .idle ∧ State.reset.phase ≠ .enc ∧ State.reset.phase ≠ .dec := by decide +kernel
theorem witness_setw :
    State.reset.phase = .idle ∧ (2 ≤ (2#16).toNat ∧ (2#16).toNat ≤ 16) ∧ (2 ≤ (16#16).toNat ∧ (16#16).toNat ≤ 16) ∧
    ¬ (2 ≤ (1#16).toNat ∧ (1#16).toNat ≤ 16) ∧ ¬ (2 ≤ (17#16).toNat ∧ (17#16).toNat ≤ 16) ∧
    State.reset.err = 0#4 := by decide

/-- One count below the limit, and the limit (X26). -/
def countLimit : State := { State.reset with cnt := [(0x61, 65534)], total := 65534 }
theorem witness_cnt :
    countLimit.phase = .idle ∧ countLimit.total.toNat < 65535 ∧ MemoriesCanonical countLimit ∧ TotalIsSum countLimit ∧
    { countLimit with total := 65535 }.total.toNat = 65535 := by decide +kernel
/-- The four clauses of `BUILD` at the edges of their ranges: no count, `K = N + 1`, a zero width with `K <= N` (B8), and
`K = N` (B11). -/
def zeroWidth : State := { State.reset with w := 2, cnt := [(0x61, 1), (0x62, 1), (0x63, 100)], total := 102 }
def alphabetTooLarge : State :=
  { State.reset with w := 2, cnt := [(0x61, 1), (0x62, 1), (0x63, 1), (0x64, 1), (0x65, 1)], total := 5 }
def alphabetFits : State :=
  { State.reset with w := 2, cnt := [(0x61, 1), (0x62, 1), (0x63, 1), (0x64, 1)], total := 4 }
theorem witness_build_errors :
    State.reset.phase = .idle ∧ WindowLegal State.reset ∧ TotalIsSum State.reset ∧ State.reset.total.toNat = 0 ∧
    alphabetTooLarge.phase = .idle ∧ WindowLegal alphabetTooLarge ∧ TotalIsSum alphabetTooLarge ∧
    0 < alphabetTooLarge.total.toNat ∧ 2 ^ alphabetTooLarge.w.toNat < codesCounted alphabetTooLarge ∧
    zeroWidth.phase = .idle ∧ WindowLegal zeroWidth ∧ TotalIsSum zeroWidth ∧ 0 < zeroWidth.total.toNat ∧
    codesCounted zeroWidth ≤ 2 ^ zeroWidth.w.toNat ∧ 0 < countAt zeroWidth 0x62 ∧
    cut zeroWidth (0x62 + 1) ≤ cut zeroWidth 0x62 := by decide +kernel
theorem witness_build :
    alphabetFits.phase = .idle ∧ WindowLegal alphabetFits ∧ TotalIsSum alphabetFits ∧ 0 < alphabetFits.total.toNat ∧
    codesCounted alphabetFits ≤ 2 ^ alphabetFits.w.toNat ∧
    ∀ o, o < 256 → 0 < countAt alphabetFits o → cut alphabetFits o < cut alphabetFits (o + 1) := by decide +kernel
theorem witness_build_succeeds :
    ∃ t, WindowLegal alphabetFits ∧ TotalIsSum alphabetFits ∧ alphabetFits.err = 0#4 ∧
      exec .build alphabetFits = .next t ∧ t.err = 0#4 :=
  ⟨nextOf .build alphabetFits, by decide +kernel, by decide +kernel, rfl, exec_eq_nextOf _ _, by decide +kernel⟩
theorem witness_table_commands :
    loaded.phase = .idle ∧ MemoriesCanonical loaded ∧ (0x62 : Symbol) ≠ 0x61 ∧ (segmentOf loaded 0x63).valid = false ∧
    (segmentOf loaded 0x61).valid = true ∧ (segmentOf (nextOf .segclr loaded) 0x61).valid = false := by decide +kernel

theorem witness_project :
    (0 < 65536 ∧ 65535 ≤ 65535 ∧ 65535 < 65536 ∧ 0 ≤ 65535) ∧ 4 ≤ (1 - 0 + 1) * (3 - 0 + 1) ∧ (0 < 3 ∧ 3 < 4) := by
  decide
theorem witness_position : 0 < 256 ∧ 80 ≤ 165 ∧ 165 ≤ 175 ∧ 175 < 256 ∧ 163 ≤ 232 ∧ 232 < 256 := by decide
theorem witness_segmentAt : tableOk loaded = true ∧ 0 < 2 ^ loaded.w.toNat ∧ 3 < 2 ^ loaded.w.toNat := by
  decide +kernel
theorem witness_lookahead :
    tableOk decoding = true ∧ decoding.l.toNat ≤ decoding.v.toNat ∧ decoding.v.toNat ≤ decoding.h.toNat ∧
    decoding.h.toNat < 2 ^ decoding.w.toNat ∧
    segmentAt decoding (position (2 ^ decoding.w.toNat) decoding.v.toNat decoding.l.toNat decoding.h.toNat) =
      some 0x62 := by decide +kernel
theorem witness_sharedRun :
    sharedRun 4 8 8 = 4 ∧ 8 ≤ 8 ∧ 8 < 2 ^ 4 ∧ sharedRun 8 142 167 < 8 ∧ 142 ≤ 167 ∧ 167 < 2 ^ 8 := by decide
theorem witness_strip : 2 ≤ 2 ∧ 3 < 2 ^ 2 ∧ 2 ≤ 8 ∧ 159 < 2 ^ 8 ∧ 1 ≤ 6 ∧ 6 < 8 - 1 := by decide
/-- Both branches of the rule: no shared run (RN10) and the full run (RN5). -/
theorem witness_renorm :
    2 ≤ 8 ∧ 127 ≤ 128 ∧ 128 < 2 ^ 8 ∧ sharedRun 8 127 128 = 0 ∧ 2 ≤ 4 ∧ 8 ≤ 8 ∧ 8 < 2 ^ 4 ∧ 0 < sharedRun 4 8 8 := by
  decide

theorem witness_encstart :
    State.reset.phase = .idle ∧ tableOk State.reset = false ∧ loaded.phase = .idle ∧ tableOk loaded = true ∧
    WindowLegal loaded := by decide +kernel
/-- The five clauses of `ENCSYM`: absent symbol, count limit, empty projection (E7), no room for one bit, and room for
exactly one. -/
def collapsed : State := after [0x10000004, 0x2A61000E, 0x2962000F, 0x2A62000F, 0x40000000, 0x41610000]
theorem witness_encsym_errors :
    encoding.phase = .enc ∧ (segmentOf encoding 0x63).valid = false ∧ (segmentOf encoding 0x62).valid = true ∧
    { encoding with nsym := 65535 }.nsym.toNat = 65535 ∧ collapsed.phase = .enc ∧
    (segmentOf collapsed 0x62).valid = true ∧ collapsed.nsym.toNat < 65535 ∧
    (projected collapsed 0x62).2 < (projected collapsed 0x62).1 ∧ (projected encoding 0x62).1 ≤ (projected encoding 0x62).2 ∧
    65536 < { encoding with bitlen := 65536 }.bitlen.toNat + (renormed encoding 0x62).out.length := by decide +kernel
theorem witness_encsym :
    { encoding with bitlen := 65535, nsym := 65534 }.phase = .enc ∧ (segmentOf encoding 0x62).valid = true ∧
    { encoding with bitlen := 65535, nsym := 65534 }.nsym.toNat < 65535 ∧
    (projected encoding 0x62).1 ≤ (projected encoding 0x62).2 ∧
    { encoding with bitlen := 65535, nsym := 65534 }.bitlen.toNat + (renormed encoding 0x62).out.length ≤ 65536 ∧
    WindowLegal encoding ∧ MemoriesCanonical { encoding with bitlen := 65535, nsym := 65534 } ∧
    SessionLegal { encoding with bitlen := 65535, nsym := 65534 } := by decide +kernel
theorem witness_encflush :
    encoding.phase = .enc ∧ encoding.nsym.toNat = 0 ∧ encodedOne.phase = .enc ∧ 0 < encodedOne.nsym.toNat ∧
    65536 < { encodedOne with bitlen := 65536 }.bitlen.toNat + 1 + encodedOne.since.toNat ∧
    { encodedOne with bitlen := 65535 }.bitlen.toNat + 1 + encodedOne.since.toNat ≤ 65536 ∧
    MemoriesCanonical { encodedOne with bitlen := 65535 } := by decide +kernel
/-- The state at the end of the encoding session of `"ba"`. -/
def encodedBoth : State := after (loadWords ++ wordsOf (encodingSession [0x62, 0x61]))
theorem witness_encodedBoth : issueAll (wordsOf (encodingSession [0x62, 0x61])) loaded = .next encodedBoth := by rfl
theorem witness_encoding_session :
    loaded.w = finished.w ∧ loaded.seg = finished.seg ∧ loaded.phase = .idle ∧ finished.phase = .idle ∧
    loaded.err = 0#4 ∧ finished.err = 0#4 ∧ MemoriesCanonical loaded ∧ MemoriesCanonical finished ∧
    encodedBoth.err = 0#4 := by decide +kernel

theorem witness_decstart :
    State.reset.phase = .idle ∧ (0#16).toNat = 0 ∧ 0 < (1#16).toNat ∧ 0 < (65535#16).toNat ∧
    tableOk State.reset = false ∧ finished.phase = .idle ∧ tableOk finished = true ∧ WindowLegal finished := by
  decide +kernel
/-- The clauses of `DECSYM`: the stream ended, `V` below and above the interval, and a symbol decoded with one and with
two symbols left. -/
theorem witness_decsym :
    decoding.phase = .dec ∧ { decoding with bitlen := 0, cursor := 1 }.bitlen.toNat <
      { decoding with bitlen := 0, cursor := 1 }.cursor.toNat ∧
    { decoding with l := 1, v := 0 }.v.toNat < { decoding with l := 1, v := 0 }.l.toNat ∧
    { decoding with h := 2, v := 3 }.h.toNat < { decoding with h := 2, v := 3 }.v.toNat ∧
    decoding.cursor.toNat ≤ decoding.bitlen.toNat ∧ decoding.l.toNat ≤ decoding.v.toNat ∧
    decoding.v.toNat ≤ decoding.h.toNat ∧ WindowLegal decoding ∧ SessionLegal decoding ∧ DecoderLegal decoding ∧
    decoding.drem.toNat = 1 ∧ DecoderLegal { decoding with drem := 2 } := by decide +kernel
theorem witness_advance : 2 ≤ 2 ∧ 3 < 2 ^ 2 := by decide
theorem witness_decsym_raises :
    { decoding with bitlen := 0, cursor := 1 }.phase = .dec ∧ { decoding with bitlen := 0, cursor := 1 }.err = 0#4 ∧
      exec .decsym { decoding with bitlen := 0, cursor := 1 } =
        .next (nextOf .decsym { decoding with bitlen := 0, cursor := 1 }) ∧
      (nextOf .decsym { decoding with bitlen := 0, cursor := 1 }).err ≠ 0#4 :=
  ⟨by decide +kernel, by decide +kernel, exec_eq_nextOf _ _, by decide +kernel⟩
/-- The two commands answer these states by `exec_eq_nextOf`. -/
theorem witness_mirror :
    let s' := nextOf (.encsym 0x62) encoding
    let d' := nextOf .decsym decoding
    encoding.phase = .enc ∧ decoding.phase = .dec ∧ encoding.err = 0#4 ∧ decoding.err = 0#4 ∧
    WindowLegal encoding ∧ SessionLegal encoding ∧ SessionLegal decoding ∧ DecoderLegal decoding ∧
    encoding.w = decoding.w ∧ encoding.seg = decoding.seg ∧
    (encoding.l, encoding.h, encoding.te, encoding.since) = (decoding.l, decoding.h, decoding.te, decoding.since) ∧
    s'.err = 0#4 ∧ d'.err = 0#4 ∧ d'.dsymSym = 0x62 := by decide +kernel
theorem witness_decoding_session :
    ∃ t, finished.phase = .idle ∧ finished.err = 0#4 ∧ issue (encode (.decstart 1)) finished = .next t ∧ t.err = 0#4 ∧
      { finished with total := 5 }.w = finished.w ∧ ∀ i, bitAt { finished with total := 5 } i = bitAt finished i :=
  ⟨nextOf (.decstart 1) finished, by decide +kernel, by decide +kernel, by rfl, by decide +kernel, rfl, fun _ => rfl⟩
/-- The invariant holds of a loaded table, of both kinds of session and of an error state. -/
theorem witness_invariant : Inv loaded ∧ Inv encodedOne ∧ Inv decoding ∧ Inv errorState := by
  refine ⟨?_, ?_, ?_, ?_⟩ <;> decide +kernel
/-- With `witness_encodedBoth`. -/
theorem witness_round_trip : Inv loaded ∧ loaded.phase = .idle ∧ loaded.err = 0#4 ∧ encodedBoth.err = 0#4 :=
  ⟨witness_invariant.1, by decide +kernel⟩

theorem witness_append :
    MemoriesCanonical { State.reset with bitlen := 65533 } ∧
    { State.reset with bitlen := 65533 }.bitlen.toNat + [true, false, true].length ≤ 65536 := by decide +kernel
theorem witness_bufput :
    (¬ (1 ≤ (0#8).toNat ∧ (0#8).toNat ≤ 16 ∧ (0#16).toNat < 2 ^ (0#8).toNat)) ∧
    (¬ (1 ≤ (17#8).toNat ∧ (17#8).toNat ≤ 16 ∧ (0#16).toNat < 2 ^ (17#8).toNat)) ∧
    (¬ (1 ≤ (2#8).toNat ∧ (2#8).toNat ≤ 16 ∧ (4#16).toNat < 2 ^ (2#8).toNat)) ∧
    (1 ≤ (16#8).toNat ∧ (16#8).toNat ≤ 16 ∧ (65535#16).toNat < 2 ^ (16#8).toNat) ∧ State.reset.err = 0#4 ∧
    fullBuffer.phase = .idle ∧ 65536 < fullBuffer.bitlen.toNat + (1#8).toNat ∧
    { fullBuffer with bitlen := 65520 }.bitlen.toNat + (16#8).toNat ≤ 65536 ∧ MemoriesCanonical fullBuffer := by
  decide +kernel
theorem witness_loadbits :
    [true, false, true].length ≤ 65536 ∧ State.reset.phase = .idle ∧ State.reset.err = 0#4 ∧
    MemoriesCanonical State.reset := by decide +kernel
theorem witness_reserved_addresses :
    (0x011 ≤ 0x011 ∧ 0x011 ≤ 0x0FF) ∧ (0x011 ≤ 0x0FF ∧ 0x0FF ≤ 0x0FF) ∧ (0xC00 ≤ 0xC00 ∧ 0xC00 ≤ 0xFFF) ∧
    (0xC00 ≤ 0xFFF ∧ 0xFFF ≤ 0xFFF) ∧ 255 < 256 ∧ 2047 < 2048 ∧ 31 < 32 := by decide
/-- Two states that differ in a cell past the end of the stream. -/
theorem witness_same_stream :
    ∃ t, SameStream State.reset { State.reset with buf := [(0, true)] } ∧ MemoriesCanonical State.reset ∧
      MemoriesCanonical { State.reset with buf := [(0, true)] } ∧ step State.reset = .next t :=
  ⟨State.reset, ⟨rfl, fun _ h => absurd h (Nat.not_lt_zero _)⟩, by decide +kernel, by decide +kernel, rfl⟩

/-- An offered `SETW 4` at ready ports. -/
def offer : PortInput := { rst := false, cmdValid := true, cmdData := 0x10000004, rdAddr := 0x003 }
def idleEdge : PortInput := { rst := false, cmdValid := false, cmdData := 0, rdAddr := 0x003 }
/-- As many later edges as the latency. -/
def laterEdges : List PortInput := List.replicate (Config.cmdLatency portReset.edges offer.cmdData) idleEdge
theorem witness_port :
    portReset.inFlight = none ∧ offer.rst = false ∧ offer.cmdValid = true ∧ (∀ j ∈ laterEdges, j.rst = false) ∧
    laterEdges.length = Config.cmdLatency portReset.edges offer.cmdData :=
  ⟨rfl, rfl, rfl, fun _ hj => List.eq_of_mem_replicate hj ▸ rfl, List.length_replicate⟩
theorem witness_port_idle : portReset.inFlight = none ∧ idleEdge.rst = false ∧ idleEdge.cmdValid = false := by decide
/-- 20_memory.md R71: `cmd_ready` is 0 with a command in flight, and 1 after a completion and after `rst`. -/
theorem test_cmd_ready (edges left : Nat) (cmd : Word) (s : State) :
    cmdReady (progress cmd (left + 1) s edges) = false ∧ cmdReady (progress cmd 0 s edges) = true ∧
    cmdReady (clockEdge (progress cmd (left + 1) s edges) { offer with rst := true }) = true := ⟨rfl, rfl, rfl⟩
theorem witness_port_list :
    ({ portReset with core := offered 0x10000004 State.reset } : PortState).inFlight = none ∧
    (offered 0x10000004 State.reset).program[(offered 0x10000004 State.reset).pc]? = some offer.cmdData := by decide
theorem witness_rst : { offer with rst := true }.rst = true := rfl

theorem witness_invariant_step :
    ∃ t, Inv (offered 0x51000000 decoding) ∧ step (offered 0x51000000 decoding) = .next t :=
  ⟨advancePc (nextOf .decsym (offered 0x51000000 decoding)), by decide +kernel, by rfl⟩

end Sys2Proof.Tests
end

section
/-! PROOFS. What one step can do, said once: every command is the common checks around a part of its own, and a step
holds the state, ignores the word, records an error, or commits one command. Each invariant below is a case analysis on
that. -/

namespace Sys2Proof.Machine

variable {i : Instr} {s t u : State} {cmd : Word}

/-! ### The coding registers after a symbol, and what `DECSYM` commits, field by field -/

@[simp] theorem codeSymbol_w (r : Renormed) (s : State) : (codeSymbol r s).w = s.w := rfl
@[simp] theorem codeSymbol_err (r : Renormed) (s : State) : (codeSymbol r s).err = s.err := rfl
@[simp] theorem codeSymbol_sub (r : Renormed) (s : State) : (codeSymbol r s).sub = s.sub := rfl
@[simp] theorem codeSymbol_phase (r : Renormed) (s : State) : (codeSymbol r s).phase = s.phase := rfl
@[simp] theorem codeSymbol_errcmd (r : Renormed) (s : State) : (codeSymbol r s).errcmd = s.errcmd := rfl
@[simp] theorem codeSymbol_cnt (r : Renormed) (s : State) : (codeSymbol r s).cnt = s.cnt := rfl
@[simp] theorem codeSymbol_total (r : Renormed) (s : State) : (codeSymbol r s).total = s.total := rfl
@[simp] theorem codeSymbol_seg (r : Renormed) (s : State) : (codeSymbol r s).seg = s.seg := rfl
@[simp] theorem codeSymbol_v (r : Renormed) (s : State) : (codeSymbol r s).v = s.v := rfl
@[simp] theorem codeSymbol_cursor (r : Renormed) (s : State) : (codeSymbol r s).cursor = s.cursor := rfl
@[simp] theorem codeSymbol_rdptr (r : Renormed) (s : State) : (codeSymbol r s).rdptr = s.rdptr := rfl
@[simp] theorem codeSymbol_drem (r : Renormed) (s : State) : (codeSymbol r s).drem = s.drem := rfl
@[simp] theorem codeSymbol_dsymSym (r : Renormed) (s : State) : (codeSymbol r s).dsymSym = s.dsymSym := rfl
@[simp] theorem codeSymbol_dsymValid (r : Renormed) (s : State) : (codeSymbol r s).dsymValid = s.dsymValid := rfl
@[simp] theorem codeSymbol_buf (r : Renormed) (s : State) : (codeSymbol r s).buf = s.buf := rfl
@[simp] theorem codeSymbol_bitlen (r : Renormed) (s : State) : (codeSymbol r s).bitlen = s.bitlen := rfl
@[simp] theorem codeSymbol_program (r : Renormed) (s : State) : (codeSymbol r s).program = s.program := rfl
@[simp] theorem codeSymbol_pc (r : Renormed) (s : State) : (codeSymbol r s).pc = s.pc := rfl

@[simp] theorem decsymCommit_w (sym : Symbol) (s : State) : (decsymCommit sym s).w = s.w := by
  simp [decsymCommit]
@[simp] theorem decsymCommit_err (sym : Symbol) (s : State) : (decsymCommit sym s).err = s.err := by
  simp [decsymCommit]
@[simp] theorem decsymCommit_sub (sym : Symbol) (s : State) : (decsymCommit sym s).sub = s.sub := by
  simp [decsymCommit]
@[simp] theorem decsymCommit_errcmd (sym : Symbol) (s : State) : (decsymCommit sym s).errcmd = s.errcmd := by
  simp [decsymCommit]
@[simp] theorem decsymCommit_cnt (sym : Symbol) (s : State) : (decsymCommit sym s).cnt = s.cnt := by
  simp [decsymCommit]
@[simp] theorem decsymCommit_total (sym : Symbol) (s : State) : (decsymCommit sym s).total = s.total := by
  simp [decsymCommit]
@[simp] theorem decsymCommit_seg (sym : Symbol) (s : State) : (decsymCommit sym s).seg = s.seg := by
  simp [decsymCommit]
@[simp] theorem decsymCommit_buf (sym : Symbol) (s : State) : (decsymCommit sym s).buf = s.buf := by
  simp [decsymCommit]
@[simp] theorem decsymCommit_bitlen (sym : Symbol) (s : State) : (decsymCommit sym s).bitlen = s.bitlen := by
  simp [decsymCommit]
@[simp] theorem decsymCommit_program (sym : Symbol) (s : State) : (decsymCommit sym s).program = s.program := by
  simp [decsymCommit]
@[simp] theorem decsymCommit_pc (sym : Symbol) (s : State) : (decsymCommit sym s).pc = s.pc := by
  simp [decsymCommit]
@[simp] theorem decsymCommit_l (sym : Symbol) (s : State) :
    (decsymCommit sym s).l = (codeSymbol (renormSymbol s sym) s).l := by simp [decsymCommit]
@[simp] theorem decsymCommit_h (sym : Symbol) (s : State) :
    (decsymCommit sym s).h = (codeSymbol (renormSymbol s sym) s).h := by simp [decsymCommit]
@[simp] theorem decsymCommit_te (sym : Symbol) (s : State) :
    (decsymCommit sym s).te = (codeSymbol (renormSymbol s sym) s).te := by simp [decsymCommit]
@[simp] theorem decsymCommit_since (sym : Symbol) (s : State) :
    (decsymCommit sym s).since = (codeSymbol (renormSymbol s sym) s).since := by simp [decsymCommit]
@[simp] theorem decsymCommit_nsym (sym : Symbol) (s : State) :
    (decsymCommit sym s).nsym = (codeSymbol (renormSymbol s sym) s).nsym := by simp [decsymCommit]
@[simp] theorem decsymCommit_drem (sym : Symbol) (s : State) : (decsymCommit sym s).drem = s.drem - 1#16 := by
  simp [decsymCommit]

/-! ### Commands -/

/-- The part of a command that follows the common checks: its own errors, and its commit (60_exceptions.md R235). -/
def ownPart (i : Instr) (s : State) : Except ErrorCode State :=
  match i with
  | .nop => .ok s
  | .reset => .ok (hardReset s)
  | .clrerr => .ok (clearError s)
  | .abort => .ok (setPhase .idle s)
  | .setw imm => .ok (setWindow (windowOperand imm) s)
  | .cntclr => .ok (setCounts [] 0#16 s)
  | .cnt sym => cntOwn sym s
  | .build => buildOwn s
  | .segclr => .ok (setTable [] s)
  | .seglo sym imm => .ok (putSegment sym { segmentOf s sym with lo := imm } s)
  | .seghi sym imm => .ok (putSegment sym { segmentOf s sym with valid := true, hi := imm } s)
  | .bufclr => .ok (emptyBuffer s)
  | .bufput n bits => bufputOwn n bits s
  | .encstart => encstartOwn s
  | .encsym sym => encsymOwn sym s
  | .encflush => encflushOwn s
  | .decstart n => decstartOwn n s
  | .decsym => decsymOwn s

theorem exec_eq_perform (i : Instr) (s : State) : exec i s = perform i s (ownPart i s) := by cases i <;> rfl

/-- The commit of `DECSTART` (44_decoder.md R181). -/
def decstartCommit (n : Imm) (s : State) : State :=
  setPhase .dec (setDsym 0#8 false
    (setLookahead (BitVec.ofNat 16 (firstWindow (bitAt s) s.w.toNat)) 0#32 (BitVec.ofNat 32 s.w.toNat) n
      (startCoding s)))

/-! ### What `DECSTART` commits, field by field -/

@[simp] theorem decstartCommit_w (n : Imm) (s : State) : (decstartCommit n s).w = s.w := by
  simp [decstartCommit]
@[simp] theorem decstartCommit_err (n : Imm) (s : State) : (decstartCommit n s).err = s.err := by
  simp [decstartCommit]
@[simp] theorem decstartCommit_sub (n : Imm) (s : State) : (decstartCommit n s).sub = s.sub := by
  simp [decstartCommit]
@[simp] theorem decstartCommit_errcmd (n : Imm) (s : State) : (decstartCommit n s).errcmd = s.errcmd := by
  simp [decstartCommit]
@[simp] theorem decstartCommit_cnt (n : Imm) (s : State) : (decstartCommit n s).cnt = s.cnt := by
  simp [decstartCommit]
@[simp] theorem decstartCommit_total (n : Imm) (s : State) : (decstartCommit n s).total = s.total := by
  simp [decstartCommit]
@[simp] theorem decstartCommit_seg (n : Imm) (s : State) : (decstartCommit n s).seg = s.seg := by
  simp [decstartCommit]
@[simp] theorem decstartCommit_buf (n : Imm) (s : State) : (decstartCommit n s).buf = s.buf := by
  simp [decstartCommit]
@[simp] theorem decstartCommit_bitlen (n : Imm) (s : State) : (decstartCommit n s).bitlen = s.bitlen := by
  simp [decstartCommit]
@[simp] theorem decstartCommit_program (n : Imm) (s : State) : (decstartCommit n s).program = s.program := by
  simp [decstartCommit]
@[simp] theorem decstartCommit_pc (n : Imm) (s : State) : (decstartCommit n s).pc = s.pc := by
  simp [decstartCommit]

/-- The commands that complete without error, each with the guards it has passed and the state it commits. -/
inductive Commits (s : State) : Instr → State → Prop
  | nop : Commits s .nop s
  | reset : Commits s .reset (hardReset s)
  | clrerr : Commits s .clrerr (clearError s)
  | abort : Commits s .abort (setPhase .idle s)
  | setw {imm : Imm} (idle : s.phase = .idle) (low : Config.wMin ≤ imm.toNat) (high : imm.toNat ≤ Config.wMax) :
      Commits s (.setw imm) (setWindow (windowOperand imm) s)
  | cntclr (idle : s.phase = .idle) : Commits s .cntclr (setCounts [] 0#16 s)
  | cnt {sym : Symbol} (idle : s.phase = .idle) (room : s.total.toNat ≠ Config.cntMax) :
      Commits s (.cnt sym)
        (setCounts (Memory.write 0#16 s.cnt (symIndex sym) (count s sym + 1#16)) (s.total + 1#16) s)
  | build {table : Memory Segment} (idle : s.phase = .idle) (counted : s.total.toNat ≠ 0)
      (alphabet : alphabetSize s ≤ rangeSize s) (partition : segmentsOf s = .ok table) :
      Commits s .build (setTable table s)
  | segclr (idle : s.phase = .idle) : Commits s .segclr (setTable [] s)
  | seglo {sym : Symbol} {imm : Imm} (idle : s.phase = .idle) :
      Commits s (.seglo sym imm) (putSegment sym { segmentOf s sym with lo := imm } s)
  | seghi {sym : Symbol} {imm : Imm} (idle : s.phase = .idle) :
      Commits s (.seghi sym imm) (putSegment sym { segmentOf s sym with valid := true, hi := imm } s)
  | bufclr (idle : s.phase = .idle) : Commits s .bufclr (emptyBuffer s)
  | bufput {n : BitVec 8} {bits : Imm} (idle : s.phase = .idle)
      (operands : operandInRange (.bufput n bits) = true) (room : s.bitlen.toNat + n.toNat ≤ Config.bufBits) :
      Commits s (.bufput n bits) (appendBits (bitsMsbFirst bits.toNat n.toNat) s)
  | encstart (idle : s.phase = .idle) (table : tableOk s = true) :
      Commits s .encstart (setPhase .enc (emptyBuffer (startCoding s)))
  | encsym {sym : Symbol} (enc : s.phase = .enc) (present : (segmentOf s sym).valid = true)
      (fewer : s.nsym.toNat ≠ Config.nsymMax) (nonempty : (projectSymbol s sym).1 ≤ (projectSymbol s sym).2)
      (room : s.bitlen.toNat + (renormSymbol s sym).out.length ≤ Config.bufBits) :
      Commits s (.encsym sym) (codeSymbol (renormSymbol s sym) (appendBits (renormSymbol s sym).out s))
  | encflush (enc : s.phase = .enc) (coded : s.nsym.toNat ≠ 0)
      (room : s.bitlen.toNat + (terminator s).length ≤ Config.bufBits) :
      Commits s .encflush (setPhase .idle (appendBits (terminator s) s))
  | decstart {n : Imm} (idle : s.phase = .idle) (wanted : n.toNat ≠ 0) (table : tableOk s = true) :
      Commits s (.decstart n) (decstartCommit n s)
  | decsym {sym : Symbol} (dec : s.phase = .dec) (stream : s.cursor.toNat ≤ s.bitlen.toNat)
      (low : s.l.toNat ≤ s.v.toNat) (high : s.v.toNat ≤ s.h.toNat)
      (found : segmentAt s (position (rangeSize s) s.v.toNat s.l.toNat s.h.toNat) = some sym) :
      Commits s .decsym (decsymCommit sym s)

theorem phase_of_legalIn {p q : Phase} (hl : legalIn i p = true) (hq : requiredPhase i = some q) : p = q := by
  simpa [legalIn, hq] using hl

/-- A command that passes the common checks and has no error of its own commits. -/
theorem commits_of_ownPart (hr : operandInRange i = true) (hl : legalIn i s.phase = true) (h : ownPart i s = .ok t) :
    Commits s i t := by
  cases i with
  | nop => cases h; exact .nop
  | reset => cases h; exact .reset
  | clrerr => cases h; exact .clrerr
  | abort => cases h; exact .abort
  | setw imm =>
    simp only [operandInRange, Bool.and_eq_true, decide_eq_true_eq] at hr
    cases h; exact .setw (phase_of_legalIn hl rfl) hr.1 hr.2
  | cntclr => cases h; exact .cntclr (phase_of_legalIn hl rfl)
  | cnt sym =>
    simp only [ownPart, cntOwn] at h
    split at h <;> cases h
    next hc => exact .cnt (phase_of_legalIn hl rfl) hc
  | build =>
    simp only [ownPart, buildOwn] at h
    split at h <;> [cases h; split at h <;> [cases h; split at h <;> cases h]]
    next hc ha _ table hm => exact .build (phase_of_legalIn hl rfl) hc (Nat.le_of_not_lt ha) hm
  | segclr => cases h; exact .segclr (phase_of_legalIn hl rfl)
  | seglo sym imm => cases h; exact .seglo (phase_of_legalIn hl rfl)
  | seghi sym imm => cases h; exact .seghi (phase_of_legalIn hl rfl)
  | bufclr => cases h; exact .bufclr (phase_of_legalIn hl rfl)
  | bufput n bits =>
    simp only [ownPart, bufputOwn] at h
    split at h <;> cases h
    next hf => exact .bufput (phase_of_legalIn hl rfl) hr ((fits_iff _).1 hf)
  | encstart =>
    simp only [ownPart, encstartOwn] at h
    split at h <;> cases h
    next hk => exact .encstart (phase_of_legalIn hl rfl) hk
  | encsym sym =>
    simp only [ownPart, encsymOwn] at h
    split at h <;> [cases h; split at h <;> [cases h; split at h <;> [cases h; split at h <;> cases h]]]
    next hv hn hp hf =>
      rw [Bool.not_eq_false] at hv hf
      exact .encsym (phase_of_legalIn hl rfl) hv hn (Nat.le_of_not_lt hp) ((fits_iff _).1 hf)
  | encflush =>
    simp only [ownPart, encflushOwn] at h
    split at h <;> [cases h; split at h <;> cases h]
    next hn hf =>
      rw [Bool.not_eq_false] at hf
      exact .encflush (phase_of_legalIn hl rfl) hn ((fits_iff _).1 hf)
  | decstart n =>
    simp only [ownPart, decstartOwn] at h
    split at h <;> [cases h; split at h <;> cases h]
    next hn hk => exact .decstart (phase_of_legalIn hl rfl) hn ((Bool.not_eq_false _).mp hk)
  | decsym =>
    simp only [ownPart, decsymOwn] at h
    split at h <;> [cases h; split at h <;> [cases h; split at h <;> cases h]]
    next hc hv _ sym hf =>
      rw [not_or, Nat.not_lt, Nat.not_lt] at hv
      exact .decsym (phase_of_legalIn hl rfl) (Nat.le_of_not_lt hc) hv.1 hv.2 hf

/-- A command records an error or commits (60_exceptions.md R230). -/
theorem exec_cases (h : exec i s = .next t) : (∃ e, t = raise e (encode i) s) ∨ Commits s i t := by
  rw [exec_eq_perform] at h
  rcases perform_cases h with ⟨-, rfl⟩ | ⟨-, -, rfl⟩ | ⟨hr, hl, ⟨e, -, rfl⟩ | ho⟩
  · exact .inl ⟨_, rfl⟩
  · exact .inl ⟨_, rfl⟩
  · exact .inl ⟨e, rfl⟩
  · exact .inr (commits_of_ownPart hr hl ho)

/-- An accepted word is ignored, records an error, or commits the command it decodes to (60_exceptions.md R233,
R235). -/
theorem issue_cases (h : issue cmd s = .next t) :
    (gated cmd s = true ∧ t = s) ∨
    (gated cmd s = false ∧ ((∃ e w, t = raise e w s) ∨ ∃ i, decode cmd = .ok i ∧ Commits s i t)) := by
  unfold issue execute at h
  split at h
  · next hg => cases h; exact .inl ⟨hg, rfl⟩
  · next hg =>
    refine .inr ⟨(Bool.not_eq_true _).mp hg, ?_⟩
    split at h
    · cases h; exact .inl ⟨_, _, rfl⟩
    · next i hi =>
      rcases exec_cases h with ⟨e, rfl⟩ | hc
      · exact .inl ⟨e, _, rfl⟩
      · exact .inr ⟨i, hi, hc⟩

/-- A step takes the next command of the host's list, and with none left holds the state (60_exceptions.md R230,
R248). -/
theorem step_cases (h : step s = .next t) :
    (s.program[s.pc]? = none ∧ t = s) ∨
    ∃ cmd u, s.program[s.pc]? = some cmd ∧ issue cmd s = .next u ∧ t = advancePc u := by
  unfold step stepCommand nextCommand at h
  split at h
  · next hn => cases h; exact .inl ⟨hn, rfl⟩
  · next cmd hn =>
    obtain ⟨u, hu⟩ := issue_answers_next cmd s
    rw [hu] at h
    cases h; exact .inr ⟨cmd, u, hn, hu, rfl⟩

/-- What holds of a state is kept by a step when recording an error, committing a command and moving the host's index
keep it. -/
theorem step_preserves {P : State → Prop} (hs : P s) (hraise : ∀ e w, P (raise e w s))
    (hcommit : ∀ i u, Commits s i u → P u) (hpc : ∀ u, P u → P (advancePc u)) (h : step s = .next t) : P t := by
  obtain ⟨-, rfl⟩ | ⟨cmd, u, -, hu, rfl⟩ := step_cases h
  · exact hs
  · refine hpc u ?_
    obtain ⟨-, rfl⟩ | ⟨-, ⟨e, w, rfl⟩ | ⟨i, -, hc⟩⟩ := issue_cases hu
    · exact hs
    · exact hraise e w
    · exact hcommit i u hc

/-! ### The host's list and its index -/

/-- No command changes the host's list or its index (10_state.md R23). -/
theorem commits_host (h : Commits s i t) : t.program = s.program ∧ t.pc = s.pc := by cases h <;> simp

theorem issue_host (h : issue cmd s = .next t) : t.program = s.program ∧ t.pc = s.pc := by
  obtain ⟨-, rfl⟩ | ⟨-, ⟨e, w, rfl⟩ | ⟨i, -, hc⟩⟩ := issue_cases h
  · exact ⟨rfl, rfl⟩
  · exact ⟨rfl, rfl⟩
  · exact commits_host hc

theorem step_of_command (h : s.program[s.pc]? = some cmd) : step s = afterCommand (issue cmd s) := by
  simp only [step, stepCommand, nextCommand, h]

theorem step_of_no_command (h : s.program[s.pc]? = none) : step s = .next s := by
  simp only [step, stepCommand, nextCommand, h]

theorem step_answers_next (s : State) : ∃ t, step s = .next t := by
  cases h : s.program[s.pc]? with
  | none => exact ⟨s, step_of_no_command h⟩
  | some cmd =>
    obtain ⟨u, hu⟩ := issue_answers_next cmd s
    exact ⟨advancePc u, by rw [step_of_command h, hu]; rfl⟩

/-- A step keeps the host's list and moves its index past the command, if one is left. -/
theorem step_host (h : step s = .next t) :
    t.program = s.program ∧ (s.pc < s.program.length → t.pc = s.pc + 1) ∧ (s.program.length ≤ s.pc → t = s) := by
  obtain ⟨hn, rfl⟩ | ⟨cmd, u, hn, hu, rfl⟩ := step_cases h
  · rw [List.getElem?_eq_none_iff] at hn
    exact ⟨rfl, fun hlt => absurd hn (Nat.not_le_of_lt hlt), fun _ => rfl⟩
  · obtain ⟨hprog, hpc⟩ := issue_host hu
    obtain ⟨hlt, -⟩ := List.getElem?_eq_some_iff.1 hn
    exact ⟨hprog, fun _ => congrArg (· + 1) hpc, fun hle => absurd hlt (Nat.not_lt_of_le hle)⟩

/-- Settles O9: the step is total, and each of its cases keeps the list and moves the index by one. -/
theorem everyStepMovesTheIndexByOne : Obligations.EveryStepMovesTheIndexByOne := by
  intro s
  obtain ⟨t, h⟩ := step_answers_next s
  exact ⟨t, h, step_host h⟩

theorem step_keeps_indexInProgram (hs : IndexInProgram s) (h : step s = .next t) : IndexInProgram t := by
  obtain ⟨hprog, hmove, hhold⟩ := step_host h
  rcases Nat.lt_or_ge s.pc s.program.length with hlt | hge
  · rw [IndexInProgram, hprog, hmove hlt]; exact hlt
  · rwa [hhold hge]

end Sys2Proof.Machine
end

section
/-! PROOFS. The interval arithmetic a session's invariant rests on: the projection and the position (41), the bounds of
a table's segments (40), and what `Renorm` and `Advance` keep (42, 44). -/

namespace Sys2Proof.Machine

/-! ### Projection and position (41_interval_narrowing.md) -/

theorem ceilDiv_le_iff {a b c : Nat} (hb : 0 < b) : ceilDiv a b ≤ c ↔ a ≤ c * b := by
  rw [ceilDiv, ← Nat.lt_succ_iff, Nat.div_lt_iff_lt_mul hb, Nat.succ_mul]
  omega

theorem intervalWidth_pos (l h : Nat) : 0 < intervalWidth l h := Nat.succ_pos _

/-- A value at or above `L` lies at or above the projection's low end exactly when its position lies at or above the
segment's (41_interval_narrowing.md R133). -/
theorem project_fst_le_iff {n sl sh l h v : Nat} (hn : 0 < n) (hv : l ≤ v) :
    (project n sl sh l h).1 ≤ v ↔ sl ≤ position n v l h := by
  rw [position, Nat.le_div_iff_mul_le (intervalWidth_pos l h), ← ceilDiv_le_iff hn, project]
  omega

/-- The same of the high ends (41_interval_narrowing.md R133). -/
theorem le_project_snd_iff {n sl sh l h v : Nat} (hn : 0 < n) (hv : l ≤ v) :
    v ≤ (project n sl sh l h).2 ↔ position n v l h ≤ sh := by
  have hpos : ¬ ceilDiv ((sh + 1) * intervalWidth l h) n ≤ 0 := by
    rw [ceilDiv_le_iff hn, Nat.zero_mul, Nat.not_le]
    exact Nat.mul_pos sh.succ_pos (intervalWidth_pos l h)
  have hlt : v - l < ceilDiv ((sh + 1) * intervalWidth l h) n ↔ position n v l h < sh + 1 := by
    rw [position, Nat.div_lt_iff_lt_mul (intervalWidth_pos l h), ← Nat.not_le, ceilDiv_le_iff hn, Nat.not_le]
  rw [← Nat.lt_succ_iff (n := sh), ← hlt, project]
  omega

/-- A segment of `[0, n-1]` projects at or below the high end (41_interval_narrowing.md R131). -/
theorem project_snd_le {n sl sh l h : Nat} (hsh : sh < n) (hlh : l ≤ h) : (project n sl sh l h).2 ≤ h := by
  have hc : ceilDiv ((sh + 1) * intervalWidth l h) n ≤ intervalWidth l h := by
    rw [ceilDiv_le_iff (Nat.zero_lt_of_lt hsh), Nat.mul_comm]
    exact Nat.mul_le_mul_left _ hsh
  simp only [project, intervalWidth] at hc ⊢
  omega

/-! ### The segments of a table (40_segment_builder.md R108) -/

theorem coversFrom_bounds {n start : Nat} {table : List Segment} (h : coversFrom n start table = true) :
    start ≤ n ∧ ∀ e ∈ table, e.lo.toNat ≤ e.hi.toNat ∧ e.hi.toNat < n := by
  induction table generalizing start with
  | nil => simpa [coversFrom] using (beq_iff_eq.1 h).le
  | cons e rest ih =>
    simp only [coversFrom, Bool.and_eq_true, beq_iff_eq, decide_eq_true_eq] at h
    obtain ⟨⟨hlo, hle⟩, hrest⟩ := h
    obtain ⟨hn, hall⟩ := ih hrest
    refine ⟨by omega, List.forall_mem_cons.2 ⟨⟨hle, hn⟩, hall⟩⟩

variable {s : State} {sym : Symbol}

/-- A present segment of a partition lies in `[0, N-1]`. -/
theorem segment_bounds_of_tableOk (h : tableOk s = true) (hv : (segmentOf s sym).valid = true) :
    (segmentOf s sym).lo.toNat ≤ (segmentOf s sym).hi.toNat ∧ (segmentOf s sym).hi.toNat < rangeSize s := by
  simp only [tableOk, Bool.and_eq_true] at h
  refine (coversFrom_bounds h.2).2 _ (List.mem_map_of_mem ?_)
  exact List.mem_filter.2 ⟨mem_symbolCodes sym, hv⟩

/-- The symbol looked up is present and its segment holds the position (41_interval_narrowing.md R134). -/
theorem holds_of_segmentAt {pos : Nat} (h : segmentAt s pos = some sym) :
    (segmentOf s sym).valid = true ∧ (segmentOf s sym).lo.toNat ≤ pos ∧ pos ≤ (segmentOf s sym).hi.toNat := by
  simpa [Segment.holds, and_assoc] using List.find?_some h

/-- The lookahead lies in the projection of the symbol found for it (41_interval_narrowing.md R135). -/
theorem lookahead_in_projectSymbol (hl : s.l.toNat ≤ s.v.toNat)
    (h : segmentAt s (position (rangeSize s) s.v.toNat s.l.toNat s.h.toNat) = some sym) :
    (projectSymbol s sym).1 ≤ s.v.toNat ∧ s.v.toNat ≤ (projectSymbol s sym).2 := by
  obtain ⟨-, hlo, hhi⟩ := holds_of_segmentAt h
  exact ⟨(project_fst_le_iff (rangeSize_pos s) hl).2 hlo, (le_project_snd_iff (rangeSize_pos s) hl).2 hhi⟩

/-! ### `Renorm` (42_underflow_renormalization.md) -/

theorem sharedRun_le (w l h : Nat) : sharedRun w l h ≤ w := by
  induction w with
  | zero => exact Nat.le_refl 0
  | succ w ih =>
    rw [sharedRun]
    split <;> omega

theorem straddles_le (w l h : Nat) : straddles w l h ≤ w - 1 :=
  List.countP_le_length.trans_eq List.length_range

/-- The top bit of the low `w + 1` bits says on which side of the midpoint they lie. -/
theorem testBit_iff_le_mod (w x : Nat) : x.testBit w = true ↔ 2 ^ w ≤ x % 2 ^ (w + 1) := by
  have hlt : x % 2 ^ w < 2 ^ w := Nat.mod_lt _ (Nat.two_pow_pos w)
  rw [Nat.testBit_eq_decide_div_mod_eq, decide_eq_true_eq, Nat.mod_pow_succ]
  rcases Nat.mod_two_eq_zero_or_one (x / 2 ^ w) with hb | hb <;> simp [hb, hlt]

theorem shiftLow_succ (w k l : Nat) : shiftLow (w + 1) (k + 1) l = 2 * shiftLow w k l := by
  rw [shiftLow, shiftLow, pow_succ, pow_succ, ← Nat.mul_assoc, Nat.mul_mod_mul_right, Nat.mul_comm]

theorem shiftHigh_succ (w k h : Nat) : shiftHigh (w + 1) (k + 1) h = 2 * shiftHigh w k h + 1 := by
  have hk : 0 < 2 ^ k := Nat.two_pow_pos k
  have hx : h * 2 ^ (k + 1) + 2 ^ (k + 1) - 1 = 2 * (h * 2 ^ k + 2 ^ k - 1) + 1 := by
    rw [pow_succ, ← Nat.mul_assoc]
    omega
  rw [shiftHigh, shiftHigh, hx, pow_succ, Nat.mul_comm (2 ^ w), Nat.mod_mul, Nat.mul_add_mod,
    Nat.mul_add_div Nat.two_pos]
  exact Nat.add_comm _ _

/-- Shifting the shared bits out leaves the low end below the midpoint and the high end at or above it
(42_underflow_renormalization.md R144), in a form that holds of no bits too. -/
theorem shift_straddles_midpoint {w l h : Nat} (hlh : l % 2 ^ w ≤ h % 2 ^ w) :
    2 * shiftLow w (sharedRun w l h) l < 2 ^ w ∧ 2 ^ w ≤ 2 * shiftHigh w (sharedRun w l h) h + 1 := by
  induction w with
  | zero => simp [shiftLow, shiftHigh, Nat.mod_one]
  | succ w ih =>
    by_cases hb : l.testBit w = h.testBit w
    · have hlow : l % 2 ^ w ≤ h % 2 ^ w := by
        rw [Nat.testBit_eq_decide_div_mod_eq, Nat.testBit_eq_decide_div_mod_eq, decide_eq_decide] at hb
        rw [Nat.mod_pow_succ, Nat.mod_pow_succ,
          show l / 2 ^ w % 2 = h / 2 ^ w % 2 by omega] at hlh
        exact Nat.le_of_add_le_add_right hlh
      have hrun := ih hlow
      rw [sharedRun, if_pos hb, shiftLow_succ, shiftHigh_succ, pow_succ]
      omega
    · rw [sharedRun, if_neg hb]
      rw [Bool.eq_iff_iff, testBit_iff_le_mod, testBit_iff_le_mod] at hb
      simp only [shiftLow, shiftHigh, pow_zero, Nat.mul_one, Nat.add_sub_cancel]
      omega

theorem shiftHigh_lt (w k h : Nat) : shiftHigh w k h < 2 ^ w := Nat.mod_lt _ (Nat.two_pow_pos w)

theorem strip_lt {w : Nat} (hw : 2 ≤ w) (x : Nat) (f : Bool) : strip w x f < 2 ^ w := by
  obtain ⟨v, rfl⟩ := Nat.exists_eq_add_of_le' hw
  have hx : x % 2 ^ v < 2 ^ v := Nat.mod_lt _ (Nat.two_pow_pos v)
  have hf := f.toNat_lt
  have hb : x / 2 ^ (v + 1) % 2 * 2 ^ (v + 1) ≤ 1 * 2 ^ (v + 1) :=
    Nat.mul_le_mul_right _ (Nat.le_of_lt_succ (Nat.mod_lt _ Nat.two_pos))
  simp only [strip, Nat.add_sub_cancel, Nat.add_one_sub_one, pow_succ] at hb ⊢
  omega

/-- A strip keeps a number on its side of the midpoint (42_underflow_renormalization.md R147). -/
theorem strip_lt_midpoint_iff {w x : Nat} (hw : 2 ≤ w) (hx : x < 2 ^ w) (f : Bool) :
    strip w x f < 2 ^ (w - 1) ↔ x < 2 ^ (w - 1) := by
  obtain ⟨v, rfl⟩ := Nat.exists_eq_add_of_le' hw
  have hmod : x % 2 ^ v < 2 ^ v := Nat.mod_lt _ (Nat.two_pow_pos v)
  have hf := f.toNat_lt
  simp only [strip, Nat.add_sub_cancel, show v + 2 - 1 = v + 1 from rfl]
  by_cases hlt : x < 2 ^ (v + 1)
  · rw [Nat.div_eq_of_lt hlt]
    rw [pow_succ] at *
    omega
  · rw [Nat.div_eq_of_lt_le (k := 1) (by omega) (by rw [← pow_succ']; exact hx)]
    omega
theorem stripTimes_lt {w x : Nat} (hw : 2 ≤ w) (hx : x < 2 ^ w) (f : Bool) (c : Nat) :
    stripTimes w f c x < 2 ^ w ∧ (stripTimes w f c x < 2 ^ (w - 1) ↔ x < 2 ^ (w - 1)) := by
  induction c generalizing x with
  | zero => exact ⟨hx, Iff.rfl⟩
  | succ c ih =>
    obtain ⟨hlt, hmid⟩ := ih (strip_lt hw x f)
    exact ⟨hlt, hmid.trans (strip_lt_midpoint_iff hw hx f)⟩

/-- `Renorm` shifts its two ends and strips them; with no shared bit the shift is the identity
(42_underflow_renormalization.md R149). -/
theorem renorm_ends {w l1 h1 te since : Nat} (hl : l1 < 2 ^ w) (hh : h1 < 2 ^ w) :
    (renorm w l1 h1 te since).l =
      stripTimes w false (renorm w l1 h1 te since).c (shiftLow w (sharedRun w l1 h1) l1) ∧
    (renorm w l1 h1 te since).h =
      stripTimes w true (renorm w l1 h1 te since).c (shiftHigh w (sharedRun w l1 h1) h1) := by
  have hlow : (if sharedRun w l1 h1 = 0 then l1 else shiftLow w (sharedRun w l1 h1) l1) =
      shiftLow w (sharedRun w l1 h1) l1 := by
    split
    · next hk => simp [hk, shiftLow, Nat.mod_eq_of_lt hl]
    · rfl
  have hhigh : (if sharedRun w l1 h1 = 0 then h1 else shiftHigh w (sharedRun w l1 h1) h1) =
      shiftHigh w (sharedRun w l1 h1) h1 := by
    split
    · next hk => simp [hk, shiftHigh, Nat.mod_eq_of_lt hh]
    · rfl
  simp only [renorm, hlow, hhigh, and_self]

/-- `Renorm` restores an interval around the midpoint (42_underflow_renormalization.md R150). -/
theorem renorm_straddles_midpoint {w l1 h1 te since : Nat} (hw : 2 ≤ w) (hlh : l1 ≤ h1) (hh : h1 < 2 ^ w) :
    (renorm w l1 h1 te since).l < 2 ^ (w - 1) ∧ 2 ^ (w - 1) ≤ (renorm w l1 h1 te since).h ∧
      (renorm w l1 h1 te since).h < 2 ^ w := by
  have hl : l1 < 2 ^ w := hlh.trans_lt hh
  have hpow : 2 ^ w = 2 * 2 ^ (w - 1) := by rw [← pow_succ', Nat.sub_add_cancel (by omega)]
  obtain ⟨hlow, hhigh⟩ := shift_straddles_midpoint (w := w) (l := l1) (h := h1)
    (by rwa [Nat.mod_eq_of_lt hl, Nat.mod_eq_of_lt hh])
  obtain ⟨hrl, hrh⟩ := renorm_ends (te := te) (since := since) hl hh
  obtain ⟨-, hlmid⟩ := stripTimes_lt hw (x := shiftLow w (sharedRun w l1 h1) l1) (by omega) false
    (renorm w l1 h1 te since).c
  obtain ⟨hhlt, hhmid⟩ := stripTimes_lt hw (shiftHigh_lt w (sharedRun w l1 h1) h1) true
    (renorm w l1 h1 te since).c
  rw [← hrl] at hlmid
  rw [← hrh] at hhlt hhmid
  omega

/-- The counters of `Renorm` (42_underflow_renormalization.md R148): what `TE` and the shifts and strips add up to, and
how far each counter grows. -/
theorem renorm_counters (w l1 h1 te since : Nat) :
    te + (renorm w l1 h1 te since).k + (renorm w l1 h1 te since).c =
      settledBits (renorm w l1 h1 te since).k te + (renorm w l1 h1 te since).te ∧
    (renorm w l1 h1 te since).k ≤ w ∧ (renorm w l1 h1 te since).c ≤ w - 1 ∧
    (renorm w l1 h1 te since).te ≤ te + (w - 1) ∧ (renorm w l1 h1 te since).since ≤ since + 1 := by
  have hk := sharedRun_le w l1 h1
  simp only [renorm]
  rw [settledBits]
  generalize hc : straddles w _ _ = c
  have hcw : c ≤ w - 1 := hc ▸ straddles_le w _ _
  split_ifs <;> omega

/-! ### `Advance` and the first window (44_decoder.md) -/

theorem firstWindow_lt (bit : Nat → Bool) (w : Nat) : firstWindow bit w < 2 ^ w := by
  induction w with
  | zero => exact Nat.one_pos
  | succ w ih =>
    have hb := (bit w).toNat_lt
    rw [firstWindow, pow_succ]
    omega

theorem shiftIn_bounds {bit : Nat → Bool} {w k v p : Nat} (hv : v < 2 ^ w) :
    (shiftIn bit w k v p).1 < 2 ^ w ∧ (shiftIn bit w k v p).2 = p + k := by
  induction k generalizing v p with
  | zero => exact ⟨hv, rfl⟩
  | succ k ih =>
    obtain ⟨hlt, hp⟩ := ih (p := p + 1) (Nat.mod_lt (v * 2 + (bit p).toNat) (Nat.two_pow_pos w))
    exact ⟨hlt, hp.trans (by omega)⟩

theorem stripIn_bounds {bit : Nat → Bool} {w c v p : Nat} (hw : 2 ≤ w) (hv : v < 2 ^ w) :
    (stripIn bit w c v p).1 < 2 ^ w ∧ (stripIn bit w c v p).2 = p + c := by
  induction c generalizing v p with
  | zero => exact ⟨hv, rfl⟩
  | succ c ih =>
    obtain ⟨hlt, hp⟩ := ih (p := p + 1) (strip_lt hw v (bit p))
    exact ⟨hlt, hp.trans (by omega)⟩

/-- `Advance` keeps the lookahead in its window and reads one bit for each shift and each strip (44_decoder.md R185). -/
theorem advance_bounds {bit : Nat → Bool} {w v p k c : Nat} (hw : 2 ≤ w) (hv : v < 2 ^ w) :
    (advance bit w v p k c).1 < 2 ^ w ∧ (advance bit w v p k c).2 = p + k + c := by
  obtain ⟨hlt, hp⟩ := shiftIn_bounds (bit := bit) (k := k) (p := p) hv
  obtain ⟨hlt', hp'⟩ := stripIn_bounds (bit := bit) (c := c) (p := (shiftIn bit w k v p).2) hw hlt
  exact ⟨hlt', by rw [advance, hp', hp]⟩

end Sys2Proof.Machine
end

section
/-! PROOFS. Sessions keep their table, their interval around the midpoint, their counters and their cursors
(10_state.md R33 to R40). -/

namespace Sys2Proof.Machine

variable {s t : State} {sym : Symbol}

/-- What `SessionLegal` asks of a state in a session. -/
def CodingLegal (s : State) : Prop :=
  tableOk s = true ∧ s.l.toNat < rangeSize s / 2 ∧ rangeSize s / 2 ≤ s.h.toNat ∧ s.h.toNat < rangeSize s ∧
    s.since.toNat ≤ s.nsym.toNat ∧ s.te.toNat ≤ (s.w.toNat - 1) * s.nsym.toNat

/-- What `DecoderLegal` asks of a state in a decoding session. -/
def DecodingLegal (s : State) : Prop :=
  0 < s.drem.toNat ∧ s.nsym.toNat + s.drem.toNat ≤ 65535 ∧ s.v.toNat < rangeSize s ∧
    s.rdptr.toNat = s.w.toNat + s.cursor.toNat + s.te.toNat ∧
    s.rdptr.toNat ≤ s.w.toNat + 2 * s.w.toNat * s.nsym.toNat

theorem sessionLegal_iff : SessionLegal s ↔ (s.phase ≠ .idle → CodingLegal s) := Iff.rfl

theorem decoderLegal_iff : DecoderLegal s ↔ (s.phase = .dec → DecodingLegal s) := Iff.rfl

/-- With no session nothing is asked. -/
theorem sessions_legal_of_idle (h : s.phase = .idle) : SessionLegal s ∧ DecoderLegal s :=
  ⟨fun hp => absurd h hp, fun hp => absurd (h.symm.trans hp) (by decide)⟩

theorem toNat_ofNat_of_lt {n x : Nat} (h : x < 2 ^ n) : (BitVec.ofNat n x).toNat = x := by
  rw [BitVec.toNat_ofNat, Nat.mod_eq_of_lt h]

theorem rangeSize_eq_double (hw : WindowLegal s) : rangeSize s = 2 * 2 ^ (s.w.toNat - 1) := by
  have hlow : 2 ≤ s.w.toNat := hw.1
  rw [rangeSize, ← pow_succ', Nat.sub_add_cancel (by omega)]

theorem rangeSize_le (hw : WindowLegal s) : rangeSize s ≤ 2 ^ 16 := Nat.pow_le_pow_right Nat.two_pos hw.2

/-- The coding registers of a new session (43_encoder.md R161; 44_decoder.md R181). -/
theorem startCoding_codingLegal (hw : WindowLegal s) (hk : tableOk s = true) : CodingLegal (startCoding s) := by
  have hN := rangeSize_eq_double hw
  have hmax := rangeSize_le hw
  have hpos := Nat.two_pow_pos (s.w.toNat - 1)
  have hh : (startCoding s).h.toNat = rangeSize s - 1 := toNat_ofNat_of_lt (by omega)
  have hr : rangeSize (startCoding s) = rangeSize s := rfl
  refine ⟨hk, ?_, ?_, ?_, Nat.le_refl 0, Nat.zero_le _⟩
  · rw [startCoding_l, BitVec.toNat_zero, hr]; omega
  · rw [hh, hr]; omega
  · rw [hh, hr]; omega

/-- The projection of a present symbol stays inside the working interval, so renormalizing it restores an interval
around the midpoint. -/
theorem renormSymbol_straddles_midpoint (hw : WindowLegal s) (hs : CodingLegal s)
    (hv : (segmentOf s sym).valid = true) (hne : (projectSymbol s sym).1 ≤ (projectSymbol s sym).2) :
    (renormSymbol s sym).l < rangeSize s / 2 ∧ rangeSize s / 2 ≤ (renormSymbol s sym).h ∧
      (renormSymbol s sym).h < rangeSize s := by
  obtain ⟨hk, hl, hmid, hh, -, -⟩ := hs
  have hhi : (projectSymbol s sym).2 < rangeSize s :=
    (project_snd_le (segment_bounds_of_tableOk hk hv).2 (by omega)).trans_lt hh
  have hr := renorm_straddles_midpoint (te := s.te.toNat) (since := s.since.toNat) hw.1 hne hhi
  have hhalf : rangeSize s / 2 = 2 ^ (s.w.toNat - 1) := by
    rw [rangeSize_eq_double hw, Nat.mul_div_cancel_left _ Nat.two_pos]
  rw [hhalf]
  exact hr

theorem renormSymbol_counters (s : State) (sym : Symbol) :
    s.te.toNat + (renormSymbol s sym).k + (renormSymbol s sym).c =
      settledBits (renormSymbol s sym).k s.te.toNat + (renormSymbol s sym).te ∧
    (renormSymbol s sym).k ≤ s.w.toNat ∧ (renormSymbol s sym).c ≤ s.w.toNat - 1 ∧
    (renormSymbol s sym).te ≤ s.te.toNat + (s.w.toNat - 1) ∧ (renormSymbol s sym).since ≤ s.since.toNat + 1 :=
  renorm_counters _ _ _ _ _

/-- The registers of a coded symbol hold what `Renorm` computed: no value wraps. -/
theorem codeSymbol_toNat (hw : WindowLegal s) (hs : CodingLegal s) (hv : (segmentOf s sym).valid = true)
    (hn : s.nsym.toNat < 65535) (hne : (projectSymbol s sym).1 ≤ (projectSymbol s sym).2) :
    (codeSymbol (renormSymbol s sym) s).l.toNat = (renormSymbol s sym).l ∧
    (codeSymbol (renormSymbol s sym) s).h.toNat = (renormSymbol s sym).h ∧
    (codeSymbol (renormSymbol s sym) s).te.toNat = (renormSymbol s sym).te ∧
    (codeSymbol (renormSymbol s sym) s).since.toNat = (renormSymbol s sym).since ∧
    (codeSymbol (renormSymbol s sym) s).nsym.toNat = s.nsym.toNat + 1 := by
  have hmax := rangeSize_le hw
  obtain ⟨hrl, hrm, hrh⟩ := renormSymbol_straddles_midpoint hw hs hv hne
  obtain ⟨-, -, -, hte, hsince⟩ := renormSymbol_counters s sym
  obtain ⟨-, -, -, -, hsn, htn⟩ := hs
  have hw16 : s.w.toNat ≤ 16 := hw.2
  have hmul : (s.w.toNat - 1) * s.nsym.toNat ≤ 15 * 65535 := Nat.mul_le_mul (by omega) hn.le
  refine ⟨toNat_ofNat_of_lt ?_, toNat_ofNat_of_lt ?_, toNat_ofNat_of_lt ?_, toNat_ofNat_of_lt ?_,
    BitVec.toNat_add_of_lt ?_⟩
  · omega
  · omega
  · omega
  · omega
  · rw [BitVec.toNat_one (by decide)]; omega

/-- Coding a symbol keeps the coding registers in bounds (10_state.md R33 to R35). -/
theorem codeSymbol_codingLegal (hw : WindowLegal s) (hs : CodingLegal s) (hv : (segmentOf s sym).valid = true)
    (hn : s.nsym.toNat < 65535) (hne : (projectSymbol s sym).1 ≤ (projectSymbol s sym).2) :
    CodingLegal (codeSymbol (renormSymbol s sym) s) := by
  obtain ⟨hl, hh, hte, hsince, hnsym⟩ := codeSymbol_toNat hw hs hv hn hne
  obtain ⟨hrl, hrm, hrh⟩ := renormSymbol_straddles_midpoint hw hs hv hne
  obtain ⟨-, -, -, hrte, hrsince⟩ := renormSymbol_counters s sym
  obtain ⟨hk, -, -, -, hsn, htn⟩ := hs
  refine ⟨hk, hl.trans_lt hrl, hrm.trans_eq hh.symm, hh.trans_lt hrh, ?_, ?_⟩
  · rw [hsince, hnsym]
    exact hrsince.trans (Nat.succ_le_succ hsn)
  · rw [hte, hnsym, Nat.mul_succ]
    exact hrte.trans (Nat.add_le_add_right htn _)

/-- The decoder registers of a decoded symbol hold what the rules computed (44_decoder.md R182, R185, R186): no value
wraps. -/
theorem decsymCommit_toNat (hw : WindowLegal s) (hd : DecodingLegal s) :
    (decsymCommit sym s).v.toNat =
      (advance (bitAt s) s.w.toNat s.v.toNat s.rdptr.toNat (renormSymbol s sym).k (renormSymbol s sym).c).1 ∧
    (decsymCommit sym s).rdptr.toNat =
      (advance (bitAt s) s.w.toNat s.v.toNat s.rdptr.toNat (renormSymbol s sym).k (renormSymbol s sym).c).2 ∧
    (decsymCommit sym s).cursor.toNat = s.cursor.toNat + settledBits (renormSymbol s sym).k s.te.toNat ∧
    (decsymCommit sym s).drem.toNat = s.drem.toNat - 1 := by
  obtain ⟨hdrem, hcount, hvlt, htied, hbound⟩ := hd
  obtain ⟨hsum, hk, hc, -, -⟩ := renormSymbol_counters s sym
  obtain ⟨hva, hpa⟩ := advance_bounds (bit := bitAt s) (k := (renormSymbol s sym).k) (c := (renormSymbol s sym).c)
    (p := s.rdptr.toNat) hw.1 hvlt
  have hmax := rangeSize_le hw
  have hw16 : s.w.toNat ≤ 16 := hw.2
  have hmul : 2 * s.w.toNat * s.nsym.toNat ≤ 32 * 65535 := Nat.mul_le_mul (by omega) (by omega)
  exact ⟨toNat_ofNat_of_lt (hva.trans_le hmax), toNat_ofNat_of_lt (by omega), toNat_ofNat_of_lt (by omega),
    BitVec.toNat_sub_of_le (BitVec.le_def.2 hdrem)⟩

/-- Decoding a symbol keeps the lookahead in its window and the cursors tied (10_state.md R37, R39), while symbols
remain. -/
theorem decsymCommit_decodingLegal (hw : WindowLegal s) (hs : CodingLegal s) (hd : DecodingLegal s)
    (hv : (segmentOf s sym).valid = true) (hne : (projectSymbol s sym).1 ≤ (projectSymbol s sym).2)
    (hrem : s.drem - 1#16 ≠ 0#16) : DecodingLegal (decsymCommit sym s) := by
  obtain ⟨hva, hrd, hcur, hdr⟩ := decsymCommit_toNat (sym := sym) hw hd
  obtain ⟨hdrem, hcount, hvlt, htied, hbound⟩ := hd
  obtain ⟨-, -, hte, -, hnsym⟩ := codeSymbol_toNat hw hs hv (by omega) hne
  obtain ⟨hsum, hk, hc, -, -⟩ := renormSymbol_counters s sym
  obtain ⟨hv', hrd'⟩ := advance_bounds (bit := bitAt s) (k := (renormSymbol s sym).k) (c := (renormSymbol s sym).c)
    (p := s.rdptr.toNat) hw.1 hvlt
  have hpos : 0 < (s.drem - 1#16).toNat := Nat.pos_of_ne_zero fun h0 => hrem (BitVec.toNat_inj.1 h0)
  have hr : rangeSize (decsymCommit sym s) = rangeSize s := rangeSize_congr (decsymCommit_w sym s)
  refine ⟨by rwa [decsymCommit_drem], ?_, by rwa [hr, hva], ?_, ?_⟩
  · rw [decsymCommit_nsym, hnsym, hdr]; omega
  · rw [hrd, hrd', hcur, decsymCommit_te, hte, decsymCommit_w]; omega
  · rw [hrd, hrd', decsymCommit_nsym, hnsym, decsymCommit_w, Nat.mul_succ]; omega

/-- What is asked of a session reads `W`, the table and the coding registers alone. -/
theorem codingLegal_of_eq (hs : CodingLegal s) (hw : t.w = s.w) (hseg : t.seg = s.seg) (hl : t.l = s.l)
    (hh : t.h = s.h) (hte : t.te = s.te) (hsince : t.since = s.since) (hnsym : t.nsym = s.nsym) : CodingLegal t := by
  simpa only [CodingLegal, tableOk_congr hseg hw, rangeSize_congr hw, hw, hl, hh, hte, hsince, hnsym] using hs

/-! ### The step -/

/-- `DECSTART` opens a session with every symbol still to come and the cursors tied (44_decoder.md R181). -/
theorem decstartCommit_legal {n : Imm} (hw : WindowLegal s) (hn : n.toNat ≠ 0) (hk : tableOk s = true) :
    CodingLegal (decstartCommit n s) ∧ DecodingLegal (decstartCommit n s) := by
  have hw16 : s.w.toNat ≤ 16 := hw.2
  have hlt := firstWindow_lt (bitAt s) s.w.toNat
  have hv : (decstartCommit n s).v.toNat = firstWindow (bitAt s) s.w.toNat :=
    toNat_ofNat_of_lt (hlt.trans_le (rangeSize_le hw))
  have hrd : (decstartCommit n s).rdptr.toNat = s.w.toNat := toNat_ofNat_of_lt (by omega)
  have hcount : 0 + n.toNat ≤ 65535 := by have := n.isLt; omega
  exact ⟨startCoding_codingLegal hw hk, Nat.pos_of_ne_zero hn, hcount, hv.trans_lt hlt, hrd, hrd.le⟩

/-- Every commit keeps sessions legal: most commands run or leave the machine outside a session, and the session
commands are the lemmas above. -/
theorem commits_sessions_legal {i : Instr} (hw : WindowLegal s) (hs : SessionLegal s) (hd : DecoderLegal s)
    (h : Commits s i t) : SessionLegal t ∧ DecoderLegal t := by
  cases h with
  | nop | clrerr => exact ⟨hs, hd⟩
  | reset | abort | encflush => exact sessions_legal_of_idle rfl
  | setw hp | cntclr hp | cnt hp | build hp | segclr hp | seglo hp | seghi hp | bufclr hp | bufput hp =>
    exact sessions_legal_of_idle hp
  | encstart _ hk => exact ⟨fun _ => startCoding_codingLegal hw hk, nofun⟩
  | decstart _ hn hk =>
    obtain ⟨hc, hd'⟩ := decstartCommit_legal hw hn hk
    exact ⟨fun _ => hc, fun _ => hd'⟩
  | encsym hp hv hn hne =>
    have hc := sessionLegal_iff.1 hs (by rw [hp]; decide)
    have hlt : s.nsym.toNat < 65535 := Nat.lt_of_le_of_ne (Nat.le_of_lt_succ s.nsym.isLt) hn
    exact ⟨fun _ => codeSymbol_codingLegal hw hc hv hlt hne, fun hdec => absurd (hp.symm.trans hdec) (by decide)⟩
  | @decsym sym hp _ hlow _ hf =>
    have hc := sessionLegal_iff.1 hs (by rw [hp]; decide)
    have hdc := decoderLegal_iff.1 hd hp
    obtain ⟨hv, -, -⟩ := holds_of_segmentAt hf
    obtain ⟨hl, hh⟩ := lookahead_in_projectSymbol hlow hf
    by_cases hrem : s.drem - 1#16 = 0#16
    · exact sessions_legal_of_idle (if_pos hrem)
    · have hlt : s.nsym.toNat < 65535 := by obtain ⟨h0, hmax, -⟩ := hdc; omega
      have hcoded : CodingLegal (decsymCommit sym s) :=
        codingLegal_of_eq (codeSymbol_codingLegal hw hc hv hlt (hl.trans hh)) (by simp) (by simp) (by simp) (by simp)
          (by simp) (by simp) (by simp)
      exact ⟨fun _ => hcoded, fun _ => decsymCommit_decodingLegal hw hc hdc hv (hl.trans hh) hrem⟩

/-- Settles O59: a case analysis on the step, with the arithmetic of `Renorm` and `Advance` in the session commands. -/
theorem stepsKeepSessionsLegal : Obligations.StepsKeepSessionsLegal := fun _ _ hw hs hd h =>
  step_preserves (P := fun u => SessionLegal u ∧ DecoderLegal u) ⟨hs, hd⟩ (fun _ _ => ⟨hs, hd⟩)
    (fun _ _ hc => commits_sessions_legal hw hs hd hc) (fun _ hu => hu) h

end Sys2Proof.Machine
end

section
/-! PROOFS. The registers and memories every step keeps legal, and the whole invariant (10_state.md R24 to R42). -/

namespace Sys2Proof.Machine

variable {i : Instr} {s t : State} {sym : Symbol}

/-! ### The window and the error registers -/

theorem windowOperand_toNat {imm : Imm} (h : imm.toNat ≤ Config.wMax) : (windowOperand imm).toNat = imm.toNat := by
  rw [windowOperand, BitVec.toNat_setWidth]
  exact Nat.mod_eq_of_lt (h.trans_lt (by decide))

theorem reset_windowLegal : WindowLegal State.reset := by decide

/-- Only `SETW` and `RESET` write `W`, each a legal value. -/
theorem commits_windowLegal (hw : WindowLegal s) (h : Commits s i t) : WindowLegal t := by
  cases h with
  | reset => exact reset_windowLegal
  | setw _ hlow hhigh =>
    rw [WindowLegal, setWindow_w, windowOperand_toNat hhigh]
    exact ⟨hlow, hhigh⟩
  | nop | clrerr | abort | cntclr | cnt | build | segclr | seglo | seghi | bufclr | bufput | encstart | encsym
  | encflush | decstart | decsym => simpa [WindowLegal] using hw

/-- Every error is a listed pair (60_exceptions.md R231). -/
theorem raise_errorRegistersLegal (e : ErrorCode) (cmd : Word) (s : State) : ErrorRegistersLegal (raise e cmd s) :=
  ⟨by rw [raise_err, raise_sub]; cases e <;> decide, fun h => absurd h (errBits_ne_zero e)⟩

/-- A command that completes leaves the error registers alone or clears them. -/
theorem commits_errorRegistersLegal (he : ErrorRegistersLegal s) (h : Commits s i t) : ErrorRegistersLegal t := by
  cases h with
  | reset | clrerr => exact ⟨List.mem_cons_self, fun _ => rfl⟩
  | nop | abort | setw | cntclr | cnt | build | segclr | seglo | seghi | bufclr | bufput | encstart | encsym
  | encflush | decstart | decsym => simpa [ErrorRegistersLegal] using he

/-- Settles O56: `SETW` writes a legal `W`, and the error registers are written by errors, `RESET` and `CLRERR` alone. -/
theorem stepsKeepWindowAndErrorRegistersLegal : Obligations.StepsKeepWindowAndErrorRegistersLegal :=
  fun s _ hw he h =>
    step_preserves (P := fun u => WindowLegal u ∧ ErrorRegistersLegal u) ⟨hw, he⟩
      (fun e w => ⟨hw, raise_errorRegistersLegal e w s⟩)
      (fun _ _ hc => ⟨commits_windowLegal hw hc, commits_errorRegistersLegal he hc⟩) (fun _ hu => hu) h

/-! ### The memories and the buffer -/

theorem commits_memoriesCanonical (hm : MemoriesCanonical s) (h : Commits s i t) : MemoriesCanonical t := by
  obtain ⟨hc, hg, hb⟩ := hm
  cases h with
  | reset => exact ⟨wf_nil _ _, wf_nil _ _, wf_nil _ _⟩
  | cntclr => exact ⟨wf_nil _ _, hg, hb⟩
  | cnt => exact ⟨wf_countWrite hc _ _ _, hg, hb⟩
  | build _ _ _ ht => exact ⟨hc, wf_segmentsOf ht, hb⟩
  | segclr => exact ⟨hc, wf_nil _ _, hb⟩
  | seglo | seghi => exact ⟨hc, wf_putSegment hg _ _, hb⟩
  | bufput _ _ hr => exact ⟨hc, hg, wf_appendBits hb (by rwa [length_bitsMsbFirst])⟩
  | encsym _ _ _ _ hr => exact ⟨hc, hg, wf_appendBits hb hr⟩
  | encflush _ _ hr => exact ⟨hc, hg, wf_appendBits hb hr⟩
  | nop | clrerr | abort | setw | bufclr | encstart | decstart | decsym => simpa [MemoriesCanonical] using ⟨hc, hg, hb⟩

theorem commits_bufferBounded (hb : BufferBounded s) (h : Commits s i t) : BufferBounded t := by
  cases h with
  | reset | bufclr | encstart => exact Nat.zero_le _
  | @bufput n bits _ _ hr =>
    rw [← length_bitsMsbFirst bits.toNat n.toNat] at hr
    exact (bitlen_appendBits hr).trans_le hr
  | encsym _ _ _ _ hr | encflush _ _ hr => exact (bitlen_appendBits hr).trans_le hr
  | nop | clrerr | abort | setw | cntclr | cnt | build | segclr | seglo | seghi | decstart | decsym =>
    simpa [BufferBounded] using hb

/-- Settles O57: every write lands in range, and every `Append` was checked to fit. -/
theorem stepsKeepMemoriesCanonical : Obligations.StepsKeepMemoriesCanonical := fun _ _ hm hb h =>
  step_preserves (P := fun u => MemoriesCanonical u ∧ BufferBounded u) ⟨hm, hb⟩ (fun _ _ => ⟨hm, hb⟩)
    (fun _ _ hc => ⟨commits_memoriesCanonical hm hc, commits_bufferBounded hb hc⟩) (fun _ hu => hu) h

/-! ### The sum of the counts -/

/-- A sum in which one summand grows by one. -/
theorem sum_map_add_indicator {l : List Symbol} (hl : l.Nodup) (hs : sym ∈ l) (f : Symbol → Nat) :
    (l.map fun o => f o + if o = sym then 1 else 0).sum = (l.map f).sum + 1 := by
  rw [List.sum_map_add, List.sum_map_eq_nsmul_single sym _ fun o ho _ => if_neg ho, List.count_eq_one_of_mem hl hs]
  simp

theorem count_le_sumOfCounts (s : State) (sym : Symbol) : (count s sym).toNat ≤ sumOfCounts s :=
  List.single_le_sum (fun _ _ => Nat.zero_le _) _ (List.mem_map_of_mem (mem_symbolCodes sym))

theorem nodup_symbolCodes : symbolCodes.Nodup :=
  pairwise_symbolCodes.imp fun h heq => Nat.ne_of_lt h (congrArg symIndex heq)

/-- One more count of a symbol is one more in the sum, as long as its count does not wrap. -/
theorem sumOfCounts_count_succ (hm : Memory.wf Config.nSyms 0#16 s.cnt) (n : BitVec 16)
    (h : (count s sym).toNat < 65535) :
    sumOfCounts (setCounts (Memory.write 0#16 s.cnt (symIndex sym) (count s sym + 1#16)) n s) = sumOfCounts s + 1 := by
  have hone : (count s sym + 1#16).toNat = (count s sym).toNat + 1 :=
    BitVec.toNat_add_of_lt (by rw [BitVec.toNat_one (by decide)]; omega)
  rw [sumOfCounts, sumOfCounts, ← sum_map_add_indicator nodup_symbolCodes (mem_symbolCodes sym)]
  congr 2
  funext o
  rw [count_setCounts_write hm]
  split
  · next ho => rw [ho, hone]
  · rfl

theorem sumOfCounts_nil (h : s.cnt = []) : sumOfCounts s = 0 := by
  have : count s = fun _ => 0#16 := by funext sym; rw [count, h, read_nil]
  simp [sumOfCounts, this]

/-- The sum reads the counts alone. -/
theorem totalIsSum_of_eq (hs : TotalIsSum s) (hc : t.cnt = s.cnt) (ht : t.total = s.total) : TotalIsSum t := by
  rwa [TotalIsSum, sumOfCounts, count_congr hc, ht]

theorem commits_totalIsSum (hm : MemoriesCanonical s) (ht : TotalIsSum s) (h : Commits s i t) : TotalIsSum t := by
  cases h with
  | reset | cntclr => exact (sumOfCounts_nil rfl).symm
  | @cnt sym _ hroom =>
    have hlt : s.total.toNat < 65535 := Nat.lt_of_le_of_ne (Nat.le_of_lt_succ s.total.isLt) hroom
    rw [TotalIsSum, setCounts_total, sumOfCounts_count_succ hm.1 _ (by have := count_le_sumOfCounts s sym; omega),
      BitVec.toNat_add_of_lt (by rw [BitVec.toNat_one (by decide)]; omega), BitVec.toNat_one (by decide), ht]
  | nop | clrerr | abort | setw | build | segclr | seglo | seghi | bufclr | bufput | encstart | encsym
  | encflush | decstart | decsym => exact totalIsSum_of_eq ht (by simp) (by simp)

/-- Settles O58: `CNT` adds one to a count and to `TOTAL`, and its limit keeps both from wrapping. -/
theorem stepsKeepTotalTheSumOfCounts : Obligations.StepsKeepTotalTheSumOfCounts := fun _ _ hm ht h =>
  step_preserves (P := TotalIsSum) ht (fun _ _ => ht) (fun _ _ hc => commits_totalIsSum hm ht hc) (fun _ hu => hu) h

/-! ### The whole invariant -/

/-- Settles O60: each clause is kept by itself. -/
theorem everyStepKeepsTheInvariant : Obligations.EveryStepKeepsTheInvariant := by
  intro s t hinv h
  obtain ⟨hw, he, hm, ht, hb, hs, hd, hi⟩ := hinv
  obtain ⟨hw', he'⟩ := stepsKeepWindowAndErrorRegistersLegal s t hw he h
  obtain ⟨hm', hb'⟩ := stepsKeepMemoriesCanonical s t hm hb h
  obtain ⟨hs', hd'⟩ := stepsKeepSessionsLegal s t hw hs hd h
  exact ⟨hw', he', hm', stepsKeepTotalTheSumOfCounts s t hm ht h, hb', hs', hd', step_keeps_indexInProgram hi h⟩

/-- Settles O55: the counts are all 0 and no session is active. -/
theorem resetMeetsTheInvariant : Obligations.ResetMeetsTheInvariant := by
  obtain ⟨hs, hd⟩ := sessions_legal_of_idle (s := State.reset) rfl
  exact ⟨reset_windowLegal, ⟨List.mem_cons_self, fun _ => rfl⟩, ⟨wf_nil _ _, wf_nil _ _, wf_nil _ _⟩,
    (sumOfCounts_nil rfl).symm, Nat.zero_le _, hs, hd, Nat.le_refl 0⟩

end Sys2Proof.Machine
end

section
/-! PROOFS. What a command may depend on. Two states are alike when they differ at most in the host's list and its index
and in buffer cells no rule observes; a relation between alike states that every state operation keeps is kept by every
accepted word. Two relations are of this kind: equal streams (20_memory.md R62), and a moved index (10_state.md R23). -/

namespace Sys2Proof.Machine

/-- The states hold the same registers and tables and the same bit stream. -/
structure Alike (s s' : State) : Prop where
  w : s'.w = s.w
  err : s'.err = s.err
  phase : s'.phase = s.phase
  cnt : s'.cnt = s.cnt
  total : s'.total = s.total
  seg : s'.seg = s.seg
  l : s'.l = s.l
  h : s'.h = s.h
  te : s'.te = s.te
  since : s'.since = s.since
  nsym : s'.nsym = s.nsym
  v : s'.v = s.v
  cursor : s'.cursor = s.cursor
  rdptr : s'.rdptr = s.rdptr
  drem : s'.drem = s.drem
  bitlen : s'.bitlen = s.bitlen
  bitAt : bitAt s' = bitAt s

namespace Alike

variable {s s' : State} (ha : Alike s s')
include ha

theorem count : count s' = count s := count_congr ha.cnt
theorem segmentOf : segmentOf s' = segmentOf s := segmentOf_congr ha.seg
theorem rangeSize : rangeSize s' = rangeSize s := rangeSize_congr ha.w
theorem tableOk : tableOk s' = tableOk s := tableOk_congr ha.seg ha.w
theorem segmentAt (pos : Nat) : segmentAt s' pos = segmentAt s pos := segmentAt_congr ha.seg pos
theorem fits (n : Nat) : fits s' n = fits s n := by rw [Machine.fits, Machine.fits, ha.bitlen]
theorem terminator : terminator s' = terminator s := by rw [Machine.terminator, Machine.terminator, ha.since]
theorem alphabetSize : alphabetSize s' = alphabetSize s := by rw [Machine.alphabetSize, Machine.alphabetSize, ha.count]
theorem segmentsOf : segmentsOf s' = segmentsOf s := by
  rw [Machine.segmentsOf, Machine.segmentsOf, ha.rangeSize, ha.total, ha.count]
theorem projectSymbol (sym : Symbol) : projectSymbol s' sym = projectSymbol s sym := by
  rw [Machine.projectSymbol, Machine.projectSymbol, ha.rangeSize, ha.segmentOf, ha.l, ha.h]
theorem renormSymbol (sym : Symbol) : renormSymbol s' sym = renormSymbol s sym := by
  rw [Machine.renormSymbol, Machine.renormSymbol, ha.w, ha.projectSymbol, ha.te, ha.since]
theorem gated (cmd : Word) : gated cmd s' = gated cmd s := by rw [Machine.gated, Machine.gated, ha.err]

end Alike

/-- A relation between alike states that every state operation keeps; `Append` keeps it when the bits fit. -/
structure Respected (R : State → State → Prop) : Prop where
  alike : ∀ {s s'}, R s s' → Alike s s'
  hardReset : ∀ {s s'}, R s s' → R (hardReset s) (hardReset s')
  clearError : ∀ {s s'}, R s s' → R (clearError s) (clearError s')
  raise : ∀ {s s'} e cmd, R s s' → R (raise e cmd s) (raise e cmd s')
  setPhase : ∀ {s s'} p, R s s' → R (setPhase p s) (setPhase p s')
  setWindow : ∀ {s s'} w, R s s' → R (setWindow w s) (setWindow w s')
  setCounts : ∀ {s s'} m n, R s s' → R (setCounts m n s) (setCounts m n s')
  setTable : ∀ {s s'} m, R s s' → R (setTable m s) (setTable m s')
  setCoding : ∀ {s s'} l h te since nsym,
    R s s' → R (setCoding l h te since nsym s) (setCoding l h te since nsym s')
  setLookahead : ∀ {s s'} v cursor rdptr drem,
    R s s' → R (setLookahead v cursor rdptr drem s) (setLookahead v cursor rdptr drem s')
  setDsym : ∀ {s s'} sym valid, R s s' → R (setDsym sym valid s) (setDsym sym valid s')
  emptyBuffer : ∀ {s s'}, R s s' → R (emptyBuffer s) (emptyBuffer s')
  appendBits : ∀ {s s'} bits, s.bitlen.toNat + bits.length ≤ Config.bufBits → R s s' →
    R (appendBits bits s) (appendBits bits s')

/-- Two answers with the same error, or with related states. -/
inductive Answers (R : State → State → Prop) : Except ErrorCode State → Except ErrorCode State → Prop
  | error (e : ErrorCode) : Answers R (.error e) (.error e)
  | ok {t t' : State} (h : R t t') : Answers R (.ok t) (.ok t')

variable {R : State → State → Prop} {s s' : State} {sym : Symbol}

theorem Answers.ite {c c' : Prop} [Decidable c] [Decidable c'] {a b a' b' : Except ErrorCode State} (hc : c' = c)
    (ha : c → Answers R a a') (hb : ¬ c → Answers R b b') :
    Answers R (if c then a else b) (if c' then a' else b') := by
  subst hc
  by_cases h : c'
  · rw [if_pos h, if_pos h]; exact ha h
  · rw [if_neg h, if_neg h]; exact hb h

theorem putSegment_eq_setTable (sym : Symbol) (e : Segment) (s : State) :
    putSegment sym e s = setTable (Memory.write Segment.empty s.seg (symIndex sym) e) s := rfl

namespace Respected

variable (hR : Respected R) (h : R s s')
include hR h

theorem startCoding : R (startCoding s) (startCoding s') := by
  rw [Machine.startCoding, Machine.startCoding, (hR.alike h).rangeSize]
  exact hR.setCoding _ _ _ _ _ h

theorem codeSymbol (r : Renormed) : R (codeSymbol r s) (codeSymbol r s') := by
  rw [Machine.codeSymbol, Machine.codeSymbol, (hR.alike h).nsym]
  exact hR.setCoding _ _ _ _ _ h

theorem putSegment (e : Segment) : R (putSegment sym e s) (putSegment sym e s') := by
  rw [putSegment_eq_setTable, putSegment_eq_setTable, (hR.alike h).seg]
  exact hR.setTable _ h

theorem decstartCommit (n : Imm) : R (decstartCommit n s) (decstartCommit n s') := by
  have ha := hR.alike h
  rw [Machine.decstartCommit, Machine.decstartCommit, ha.bitAt, ha.w]
  exact hR.setPhase _ (hR.setDsym _ _ (hR.setLookahead _ _ _ _ (hR.startCoding h)))

theorem decsymCommit : R (decsymCommit sym s) (decsymCommit sym s') := by
  have ha := hR.alike h
  rw [Machine.decsymCommit, Machine.decsymCommit, ha.renormSymbol, ha.bitAt, ha.w, ha.v, ha.rdptr, ha.cursor, ha.te,
    ha.drem, ha.phase]
  exact hR.setPhase _ (hR.setDsym _ _ (hR.setLookahead _ _ _ _ (hR.codeSymbol h _)))

/-- A command's own part makes the same checks on both states and commits related states. -/
theorem ownPart (i : Instr) : Answers R (ownPart i s) (ownPart i s') := by
  have ha := hR.alike h
  cases i with
  | nop => exact .ok h
  | reset => exact .ok (hR.hardReset h)
  | clrerr => exact .ok (hR.clearError h)
  | abort => exact .ok (hR.setPhase _ h)
  | setw => exact .ok (hR.setWindow _ h)
  | cntclr => exact .ok (hR.setCounts _ _ h)
  | cnt sym =>
    refine .ite (by rw [ha.total]) (fun _ => .error _) fun _ => .ok ?_
    rw [ha.cnt, ha.count, ha.total]
    exact hR.setCounts _ _ h
  | build =>
    refine .ite (by rw [ha.total]) (fun _ => .error _) fun _ =>
      .ite (by rw [ha.rangeSize, ha.alphabetSize]) (fun _ => .error _) fun _ => ?_
    rw [ha.segmentsOf]
    cases segmentsOf s with
    | error => exact .error _
    | ok table => exact .ok (hR.setTable _ h)
  | segclr => exact .ok (hR.setTable _ h)
  | seglo sym imm => refine .ok ?_; rw [ha.segmentOf]; exact hR.putSegment h _
  | seghi sym imm => refine .ok ?_; rw [ha.segmentOf]; exact hR.putSegment h _
  | bufclr => exact .ok (hR.emptyBuffer h)
  | bufput n bits =>
    exact .ite (by rw [ha.fits]) (fun hf => .ok (hR.appendBits _ (by simpa [fits_iff] using hf) h)) fun _ => .error _
  | encstart =>
    exact .ite (by rw [ha.tableOk]) (fun _ => .ok (hR.setPhase _ (hR.emptyBuffer (hR.startCoding h)))) fun _ => .error _
  | encsym sym =>
    refine .ite (by rw [ha.segmentOf]) (fun _ => .error _) fun _ =>
      .ite (by rw [ha.nsym]) (fun _ => .error _) fun _ =>
      .ite (by rw [ha.projectSymbol]) (fun _ => .error _) fun _ =>
      .ite (by rw [ha.renormSymbol, ha.fits]) (fun _ => .error _) fun hf => .ok ?_
    rw [Bool.not_eq_false, fits_iff] at hf
    rw [ha.renormSymbol]
    exact hR.codeSymbol (hR.appendBits _ hf h) _
  | encflush =>
    refine .ite (by rw [ha.nsym]) (fun _ => .error _) fun _ =>
      .ite (by rw [ha.terminator, ha.fits]) (fun _ => .error _) fun hf => .ok ?_
    rw [Bool.not_eq_false, fits_iff] at hf
    rw [ha.terminator]
    exact hR.setPhase _ (hR.appendBits _ hf h)
  | decstart n =>
    exact .ite rfl (fun _ => .error _) fun _ => .ite (by rw [ha.tableOk]) (fun _ => .error _) fun _ =>
      .ok (hR.decstartCommit h n)
  | decsym =>
    refine .ite (by rw [ha.bitlen, ha.cursor]) (fun _ => .error _) fun _ =>
      .ite (by rw [ha.v, ha.l, ha.h]) (fun _ => .error _) fun _ => ?_
    rw [ha.rangeSize, ha.v, ha.l, ha.h, ha.segmentAt]
    cases segmentAt s _ with
    | none => exact .error _
    | some sym => exact .ok (hR.decsymCommit h)

theorem exec (i : Instr) : ∃ t t', exec i s = .next t ∧ exec i s' = .next t' ∧ R t t' := by
  have hc : Answers R (checked i s (Machine.ownPart i s)) (checked i s' (Machine.ownPart i s')) :=
    .ite rfl (fun _ => .error _) fun _ => .ite (by rw [(hR.alike h).phase]) (fun _ => .error _) fun _ => hR.ownPart h i
  rw [exec_eq_perform, exec_eq_perform, perform, perform]
  generalize checked i s _ = a, checked i s' _ = a' at hc ⊢
  cases hc with
  | error e => exact ⟨_, _, rfl, rfl, hR.raise _ _ h⟩
  | ok ht => exact ⟨_, _, rfl, rfl, ht⟩

/-- An accepted word takes related states to related states. -/
theorem issue (cmd : Word) : ∃ t t', issue cmd s = .next t ∧ issue cmd s' = .next t' ∧ R t t' := by
  rw [Machine.issue, Machine.issue, (hR.alike h).gated]
  split
  · exact ⟨s, s', rfl, rfl, h⟩
  · unfold execute
    split
    · exact ⟨_, _, rfl, rfl, hR.raise _ _ h⟩
    · exact hR.exec h _

end Respected

end Sys2Proof.Machine
end

section
/-! PROOFS. Cells at or past `BITLEN` are never observed (10_state.md R42; 20_memory.md R62). -/

namespace Sys2Proof.Machine

open Sys2Proof.Claims

variable {s s' : State}

/-- The same stream in two buffers of canonical form. -/
def SameCanonicalStream (s s' : State) : Prop :=
  SameStream s s' ∧ Memory.wf Config.bufBits false s.buf ∧ Memory.wf Config.bufBits false s'.buf

theorem bitAt_of_sameStream (h : SameStream s s') : bitAt s' = bitAt s := by
  obtain ⟨hs, hcell⟩ := h
  have hlen : s'.bitlen = s.bitlen := by rw [hs]
  funext a
  rw [bitAt, bitAt, hlen]
  split
  · next ha => exact hcell a ha
  · rfl

theorem alike_of_sameStream (h : SameStream s s') : Alike s s' := by
  have hbits := bitAt_of_sameStream h
  obtain ⟨hs, -⟩ := h
  refine ⟨?_, ?_, ?_, ?_, ?_, ?_, ?_, ?_, ?_, ?_, ?_, ?_, ?_, ?_, ?_, ?_, hbits⟩ <;> rw [hs]

/-- An operation that keeps the buffer, does not read it and lets the stream grow no longer keeps the relation. -/
theorem SameCanonicalStream.map {f : State → State} (h : SameCanonicalStream s s')
    (hf : ∀ u b, f { u with buf := b } = { f u with buf := b }) (hbuf : ∀ u, (f u).buf = u.buf)
    (hlen : ∀ u, (f u).bitlen.toNat ≤ u.bitlen.toNat) : SameCanonicalStream (f s) (f s') := by
  obtain ⟨⟨hs, hcell⟩, hm, hm'⟩ := h
  refine ⟨⟨?_, fun a ha => ?_⟩, by rwa [hbuf], by rwa [hbuf]⟩
  · rw [hbuf, ← hf, ← hs]
  · rw [cell_congr (hbuf s'), cell_congr (hbuf s)]
    exact hcell a (ha.trans_le (hlen s))

/-- `Append` writes the same bits behind the same stream. -/
theorem SameCanonicalStream.appendBits {bits : BitString} (hfit : s.bitlen.toNat + bits.length ≤ Config.bufBits)
    (h : SameCanonicalStream s s') : SameCanonicalStream (appendBits bits s) (appendBits bits s') := by
  obtain ⟨⟨hs, hcell⟩, hm, hm'⟩ := h
  have hlen : s'.bitlen = s.bitlen := by rw [hs]
  refine ⟨⟨?_, fun a ha => ?_⟩, wf_appendBits hm hfit, wf_appendBits hm' (by rwa [hlen])⟩
  · have happ : ∀ b, Machine.appendBits bits { s with buf := b } =
        { Machine.appendBits bits s with buf := writeBits b s.bitlen.toNat bits } := fun _ => rfl
    rw [appendBits_buf, hlen, ← happ, ← hs]
  · rw [bitlen_appendBits hfit] at ha
    rcases Nat.lt_or_ge a s.bitlen.toNat with hlt | hge
    · rw [cell_appendBits_outside (.inl hlt), cell_appendBits_outside (.inl (by rwa [hlen])), hcell a hlt]
    · obtain ⟨j, rfl⟩ := Nat.exists_eq_add_of_le hge
      have hj : j < bits.length := by omega
      rw [cell_appendBits_inside hm hj, ← hlen, cell_appendBits_inside hm' hj]

theorem respected_sameCanonicalStream : Respected SameCanonicalStream where
  alike h := alike_of_sameStream h.1
  hardReset {s s'} h := by
    obtain ⟨⟨hs, -⟩, -, -⟩ := h
    refine ⟨⟨?_, fun _ _ => rfl⟩, wf_nil _ _, wf_nil _ _⟩
    rw [hs]; rfl
  clearError h := h.map (fun _ _ => rfl) (fun _ => rfl) (fun _ => le_rfl)
  raise _ _ h := h.map (fun _ _ => rfl) (fun _ => rfl) (fun _ => le_rfl)
  setPhase _ h := h.map (fun _ _ => rfl) (fun _ => rfl) (fun _ => le_rfl)
  setWindow _ h := h.map (fun _ _ => rfl) (fun _ => rfl) (fun _ => le_rfl)
  setCounts _ _ h := h.map (fun _ _ => rfl) (fun _ => rfl) (fun _ => le_rfl)
  setTable _ h := h.map (fun _ _ => rfl) (fun _ => rfl) (fun _ => le_rfl)
  setCoding _ _ _ _ _ h := h.map (fun _ _ => rfl) (fun _ => rfl) (fun _ => le_rfl)
  setLookahead _ _ _ _ h := h.map (fun _ _ => rfl) (fun _ => rfl) (fun _ => le_rfl)
  setDsym _ _ h := h.map (fun _ _ => rfl) (fun _ => rfl) (fun _ => le_rfl)
  emptyBuffer h := h.map (fun _ _ => rfl) (fun _ => rfl) (fun _ => Nat.zero_le _)
  appendBits _ hfit h := h.appendBits hfit

/-- The read port reads the buffer through the stream alone (20_memory.md R64). -/
theorem readPort_of_sameStream (h : SameStream s s') (addr : BitVec 12) : readPort s' addr = readPort s addr := by
  have hbits := bitAt_of_sameStream h
  obtain ⟨hs, -⟩ := h
  have hreg : ∀ a, readRegister s' a = readRegister s a := fun a => by rw [hs]; rfl
  have hcount : count s' = count s := count_congr (by rw [hs])
  have hseg : segmentOf s' = segmentOf s := segmentOf_congr (by rw [hs])
  simp only [readPort, bufWord, hbits, hreg, hcount, hseg]

/-- A step takes equal streams to equal streams. -/
theorem step_of_sameCanonicalStream {t : State} (hR : SameCanonicalStream s s') (h : step s = .next t) :
    ∃ t', step s' = .next t' ∧ SameStream t t' := by
  have hcmd : s'.program[s'.pc]? = s.program[s.pc]? := by
    obtain ⟨⟨hs, -⟩, -, -⟩ := hR
    rw [hs]
  obtain ⟨hnone, rfl⟩ | ⟨cmd, u, hsome, hu, rfl⟩ := step_cases h
  · exact ⟨s', step_of_no_command (hcmd.trans hnone), hR.1⟩
  · obtain ⟨v, v', hv, hv', hRv⟩ := respected_sameCanonicalStream.issue hR cmd
    obtain rfl : v = u := Host.Outcome.next.inj (hv.symm.trans hu)
    refine ⟨advancePc v', by rw [step_of_command (hcmd.trans hsome), hv', afterCommand], ?_⟩
    exact (hRv.map (f := advancePc) (fun _ _ => rfl) (fun _ => rfl) (fun _ => le_rfl)).1

/-- Settles O51: reads go through `BitAt`, and every command keeps the streams equal. -/
theorem cellsPastTheEndAreNeverObserved : Obligations.CellsPastTheEndAreNeverObserved := by
  intro s s' h hm hm'
  obtain ⟨-, -, hb⟩ := hm
  obtain ⟨-, -, hb'⟩ := hm'
  exact ⟨readPort_of_sameStream h, fun t ht => step_of_sameCanonicalStream ⟨h, hb, hb'⟩ ht⟩

end Sys2Proof.Machine
end

section
/-! PROOFS. The command port: an accepted command runs its latency and then has its whole effect, which is the step of
the host's list (20_memory.md R71; 70_reset_and_hazards.md R260, R271, R272). -/

namespace Sys2Proof.Machine

variable {s : State} {cmd : Word}

theorem issue_completed (cmd : Word) (s : State) : issue cmd s = .next (completed cmd s) := by
  obtain ⟨t, h⟩ := issue_answers_next cmd s
  rw [completed, h]

/-- With no `rst`, a command in flight only counts its edges down. -/
theorem clockEdges_progress {later : List PortInput} (hrst : ∀ j ∈ later, j.rst = false) {left : Nat} (e : Nat)
    (hle : later.length ≤ left) :
    clockEdges (progress cmd left s e) later = progress cmd (left - later.length) s (e + later.length) := by
  induction later generalizing left e with
  | nil => rfl
  | cons j rest ih =>
    rw [List.length_cons] at hle ⊢
    obtain ⟨n, rfl⟩ := Nat.exists_eq_add_of_le' (Nat.one_le_of_lt hle)
    obtain ⟨hj, hrest⟩ := List.forall_mem_cons.1 hrst
    rw [clockEdges_cons, clockEdge_busy hj (by rw [progress_succ]), progress_succ,
      ih hrest _ (Nat.le_of_succ_le_succ hle), Nat.add_sub_add_right, Nat.add_assoc, Nat.add_comm 1]

/-- The ports after an acceptance and some later edges, no more than the latency. -/
theorem clockEdges_accept {p : PortState} {j : PortInput} (hf : p.inFlight = none) (hr : j.rst = false)
    (hv : j.cmdValid = true) {later : List PortInput} (hrst : ∀ k ∈ later, k.rst = false)
    (hle : later.length ≤ Config.cmdLatency p.edges j.cmdData) :
    clockEdges (clockEdge p j) later =
      progress j.cmdData (Config.cmdLatency p.edges j.cmdData - later.length) (advancePc p.core)
        (p.edges + 1 + later.length) := by
  rw [clockEdge_accept hr hf hv, clockEdges_progress hrst _ hle]

/-- Settles O52: the edges count the latency down, and the last one completes the command. -/
theorem portCompletesEveryAcceptedCommand : Obligations.PortCompletesEveryAcceptedCommand := by
  intro p j hf hr hv n s
  refine ⟨accepts_iff.2 ⟨hv, hf, hr⟩, fun later hrst hle => ?_⟩
  rw [clockEdges_accept hf hr hv hrst hle]
  refine ⟨fun hlt => ?_, fun heq => ?_⟩
  · obtain ⟨m, hm⟩ := Nat.exists_eq_succ_of_ne_zero (Nat.sub_ne_zero_of_lt hlt)
    rw [hm, progress_succ]
    exact ⟨rfl, rfl⟩
  · rw [heq, Nat.sub_self, progress_zero]
    exact ⟨issue_completed j.cmdData s, rfl⟩

/-- No command reads or writes the host's index, so each respects a move of it. -/
theorem respected_advancePc : Respected fun s s' => s' = advancePc s where
  alike := by rintro s _ rfl; constructor <;> rfl
  hardReset := by rintro s _ rfl; rfl
  clearError := by rintro s _ rfl; rfl
  raise := by rintro s _ _ _ rfl; rfl
  setPhase := by rintro s _ _ rfl; rfl
  setWindow := by rintro s _ _ rfl; rfl
  setCounts := by rintro s _ _ _ rfl; rfl
  setTable := by rintro s _ _ rfl; rfl
  setCoding := by rintro s _ _ _ _ _ _ rfl; rfl
  setLookahead := by rintro s _ _ _ _ _ rfl; rfl
  setDsym := by rintro s _ _ _ rfl; rfl
  emptyBuffer := by rintro s _ rfl; rfl
  appendBits := by rintro s _ _ _ rfl; rfl

theorem issue_advancePc (cmd : Word) (s : State) : issue cmd (advancePc s) = afterCommand (issue cmd s) := by
  obtain ⟨t, t', ht, ht', rfl⟩ := respected_advancePc.issue (s := s) rfl cmd
  rw [ht, ht', afterCommand]

/-- Settles O53: at completion the index has already moved, and no command depends on it. -/
theorem portRunsTheListAsSteps : Obligations.PortRunsTheListAsSteps := by
  intro p j later hf hr hv hnext hrst hlen
  rw [clockEdges_accept hf hr hv hrst hlen.le, hlen, Nat.sub_self, progress_zero, step_of_command hnext,
    ← issue_advancePc, issue_completed]

/-- Settles O54: `rst` wins over everything else at its edge. -/
theorem rstAbandonsTheCommandInFlight : Obligations.RstAbandonsTheCommandInFlight := by
  intro p j hrst
  rw [clockEdge_rst hrst]
  exact ⟨by simp [accepts, hrst], rfl, rfl⟩

end Sys2Proof.Machine
end

section
/-! PROOFS. The register map of the read port, and the values after reset (10_state.md R47, R48). -/

namespace Sys2Proof.Machine

open Sys2Proof.Claims

variable {a o j : Nat}

/-! ### The address map -/

theorem readPort_register (s : State) (h : a < 0x100) : readPort s (BitVec.ofNat 12 a) = readRegister s a := by
  rw [readPort, toNat_ofNat_of_lt (by omega), if_pos h]

/-- The addresses behind `PARAMS` in the first page are reserved. -/
theorem readRegister_reserved (s : State) (h : 0x011 ≤ a) : readRegister s a = 0#32 := by
  obtain ⟨k, rfl⟩ := Nat.exists_eq_add_of_le' h
  rfl

/-- The low eight bits of an address in a page of 256. -/
theorem setWidth_page (k o : Nat) : (BitVec.ofNat 12 (256 * k + o)).setWidth 8 = BitVec.ofNat 8 o := by
  rw [BitVec.setWidth_ofNat_of_le (by decide), ← BitVec.toNat_inj, BitVec.toNat_ofNat, BitVec.toNat_ofNat,
    show 2 ^ 8 = 256 from rfl, Nat.mul_add_mod]

theorem readPort_count (s : State) (h : o < 256) :
    readPort s (BitVec.ofNat 12 (0x100 + o)) = (count s (BitVec.ofNat 8 o)).setWidth 32 := by
  rw [readPort, toNat_ofNat_of_lt (by omega), if_neg (by omega), if_pos (by omega), setWidth_page 1]

theorem readPort_seglo (s : State) (h : o < 256) :
    readPort s (BitVec.ofNat 12 (0x200 + o)) = segloWord (segmentOf s (BitVec.ofNat 8 o)) := by
  rw [readPort, toNat_ofNat_of_lt (by omega), if_neg (by omega), if_neg (by omega), if_pos (by omega), setWidth_page 2]

theorem readPort_seghi (s : State) (h : o < 256) :
    readPort s (BitVec.ofNat 12 (0x300 + o)) = (segmentOf s (BitVec.ofNat 8 o)).hi.setWidth 32 := by
  rw [readPort, toNat_ofNat_of_lt (by omega), if_neg (by omega), if_neg (by omega), if_neg (by omega),
    if_pos (by omega), setWidth_page 3]

theorem readPort_window (s : State) (h : j < 2048) : readPort s (BitVec.ofNat 12 (0x400 + j)) = bufWord s j := by
  rw [readPort, toNat_ofNat_of_lt (by omega), if_neg (by omega), if_neg (by omega), if_neg (by omega),
    if_neg (by omega), if_pos (by omega), Nat.add_sub_cancel_left]

theorem readPort_reserved (s : State) (h : 0x011 ≤ a ∧ a ≤ 0x0FF ∨ 0xC00 ≤ a ∧ a ≤ 0xFFF) :
    readPort s (BitVec.ofNat 12 a) = 0#32 := by
  obtain ⟨hlow, hhigh⟩ | ⟨hlow, hhigh⟩ := h
  · rw [readPort_register s (by omega), readRegister_reserved s hlow]
  · rw [readPort, toNat_ofNat_of_lt (by omega), if_neg (by omega), if_neg (by omega), if_neg (by omega),
      if_neg (by omega), if_neg (by omega)]

/-! ### The fields of the words read -/

theorem toNat_append_eq_add {n m : Nat} (x : BitVec n) (y : BitVec m) : (x ++ y).toNat = x.toNat * 2 ^ m + y.toNat := by
  rw [BitVec.toNat_append, ← Nat.shiftLeft_add_eq_or_of_lt y.isLt, Nat.shiftLeft_eq]

/-- A zero-extended register reads as its value. -/
theorem toNat_of_eq_zext {n : Nat} {x : BitVec n} {word : Word} (hn : n ≤ 32) (h : word = x.setWidth 32) :
    word.toNat = x.toNat := by rw [h, BitVec.toNat_setWidth_of_le hn]

/-- `STATUS` (10_state.md R25). -/
theorem statusWord_toNat (s : State) :
    (statusWord s).toNat = s.phase.bits.toNat * 256 + s.sub.toNat * 16 + s.err.toNat := by
  simp only [statusWord, toNat_append_eq_add, BitVec.toNat_zero]
  omega

/-- `DSYM` (10_state.md R41). -/
theorem dsymWord_toNat (s : State) : (dsymWord s).toNat = s.dsymValid.toNat * 256 + s.dsymSym.toNat := by
  simp only [dsymWord, toNat_append_eq_add, BitVec.toNat_zero, BitVec.toNat_ofBool]
  omega

/-- The table word with `SEGV` and `SEGLO` (10_state.md R30). -/
theorem segloWord_toNat (e : Segment) : (segloWord e).toNat = e.valid.toNat * 2 ^ 31 + e.lo.toNat := by
  simp only [segloWord, toNat_append_eq_add, BitVec.toNat_zero, BitVec.toNat_ofBool]
  omega

/-! ### Reading after reset -/

theorem bitAt_reset : bitAt State.reset = fun _ => false := rfl

theorem packBits_false (i n : Nat) : packBits (fun _ => false) i n = 0 := by
  induction n with
  | zero => rfl
  | succ n ih => rw [packBits, ih]; rfl

theorem readRegister_reset (h0 : a ≠ 0x000) (h3 : a ≠ 0x003) (h16 : a ≠ 0x010) :
    readRegister State.reset a = 0#32 := by
  have hfirst : ∀ b < 0x011, b ≠ 0x000 → b ≠ 0x003 → b ≠ 0x010 → readRegister State.reset b = 0#32 := by decide
  rcases Nat.lt_or_ge a 0x011 with hlt | hge
  · exact hfirst a hlt h0 h3 h16
  · exact readRegister_reserved _ hge

/-- Every address but those of `ID`, `W` and `PARAMS` reads 0 after reset (10_state.md R47). -/
theorem readPort_reset {addr : BitVec 12} (h0 : addr ≠ 0x000) (h3 : addr ≠ 0x003) (h16 : addr ≠ 0x010) :
    readPort State.reset addr = 0#32 := by
  have hcount : ∀ sym, count State.reset sym = 0#16 := fun _ => rfl
  have hseg : ∀ sym, segmentOf State.reset sym = Segment.empty := fun _ => rfl
  have hlo : segloWord Segment.empty = 0#32 := by decide
  have hhi : Segment.empty.hi = 0#16 := rfl
  have hreg : readRegister State.reset addr.toNat = 0#32 :=
    readRegister_reset (mt (BitVec.toNat_inj (y := 0x000)).1 h0) (mt (BitVec.toNat_inj (y := 0x003)).1 h3)
      (mt (BitVec.toNat_inj (y := 0x010)).1 h16)
  simp only [readPort, bufWord, bitAt_reset, packBits_false, hcount, hseg, hlo, hhi, hreg, BitVec.setWidth_zero,
    ite_self]

/-- Settles O49: the map range by range, and the edges that leave the core alone. -/
theorem readPortFollowsTheRegisterMap : Obligations.ReadPortFollowsTheRegisterMap := by
  intro s
  have hstatus : (readPort s 0x001).toNat =
      (match s.phase with | .idle => 0 | .enc => 1 | .dec => 2) * 256 + s.sub.toNat * 16 + s.err.toNat := by
    refine (statusWord_toNat s).trans ?_
    cases s.phase <;> rfl
  refine ⟨rfl, hstatus, rfl, toNat_of_eq_zext (by decide) rfl,
    toNat_of_eq_zext (by decide) rfl, toNat_of_eq_zext (by decide) rfl, toNat_of_eq_zext (by decide) rfl, rfl,
    toNat_of_eq_zext (by decide) rfl, toNat_of_eq_zext (by decide) rfl, toNat_of_eq_zext (by decide) rfl, rfl,
    rfl, toNat_of_eq_zext (by decide) rfl, dsymWord_toNat s, toNat_of_eq_zext (by decide) rfl, rfl,
    fun a ha => readPort_reserved s ha, fun o ho => ⟨?_, ?_, ?_⟩, fun j hj => readPort_window s hj, rfl,
    fun a h0 h3 h16 => readPort_reset h0 h3 h16, fun p i => ⟨fun _ => rfl, ?_⟩⟩
  · exact toNat_of_eq_zext (by decide) (readPort_count s ho)
  · rw [readPort_seglo s ho, segloWord_toNat, entryAt]
  · exact toNat_of_eq_zext (by decide) (readPort_seghi s ho)
  · intro hf hr hv
    rw [clockEdge_idle hr hf hv]

/-! ### The state after reset -/

theorem tableOk_reset : tableOk State.reset = false := by
  have hnone : presentSymbols State.reset = [] := List.filter_eq_nil_iff.2 fun _ _ => Bool.false_ne_true
  rw [tableOk, hnone]
  rfl

/-- With no partition in the table `ENCSTART` raises `INVALID.4` (43_encoder.md R161). -/
theorem exec_encstart_reset : exec .encstart State.reset = .next (withError State.reset 1 4 0x40000000#32) := by
  have hown : ownPart .encstart State.reset = .error .invalidTable := by
    rw [ownPart, encstartOwn, tableOk_reset]; rfl
  rw [exec_eq_perform, perform_error rfl rfl hown]
  rfl

/-- `DECSTART` raises `INVALID.1` for no symbols, and otherwise `INVALID.4` (44_decoder.md R181). -/
theorem exec_decstart_reset (n : Imm) : exec (.decstart n) State.reset =
    .next (withError State.reset 1 (if n.toNat = 0 then 1 else 4) (encode (.decstart n))) := by
  have hown : ownPart (.decstart n) State.reset = .error (if n.toNat = 0 then .invalidEmpty else .invalidTable) := by
    rw [ownPart, decstartOwn, tableOk_reset]
    split <;> rfl
  rw [exec_eq_perform, perform_error rfl rfl hown]
  split <;> rfl

/-- Settles O14: the fields by definition, and the two refused session starts by the empty table. -/
theorem resetStateHoldsTheStatedValues : Obligations.ResetStateHoldsTheStatedValues :=
  ⟨rfl, rfl, rfl, rfl, rfl, fun _ => rfl, rfl, fun _ => ⟨rfl, rfl, rfl⟩, rfl, rfl, rfl, rfl, rfl, rfl, rfl, rfl, rfl,
    rfl, rfl, fun _ => rfl, rfl, rfl, rfl, tableOk_reset, exec_encstart_reset, exec_decstart_reset⟩

end Sys2Proof.Machine
end

section
/-! PROOFS. The bit buffer: what `Append` leaves readable, and how the read window packs the stream (20_memory.md R62 to
R64). -/

namespace Sys2Proof.Machine

variable {s : State} {i : Nat}

/-! ### `BitAt` after `Append` -/

theorem bitAt_of_lt (h : i < s.bitlen.toNat) : bitAt s i = cell s i := if_pos h

theorem bitAt_of_ge (h : s.bitlen.toNat ≤ i) : bitAt s i = false := if_neg (Nat.not_lt_of_le h)

/-- After bits that fit are appended, `BitAt` reads the old stream, then the bits in order, then 0. -/
theorem bitAt_appendBits (hm : Memory.wf Config.bufBits false s.buf) {bits : BitString}
    (hfit : s.bitlen.toNat + bits.length ≤ Config.bufBits) (i : Nat) :
    bitAt (appendBits bits s) i =
      if i < s.bitlen.toNat then bitAt s i else bits.getD (i - s.bitlen.toNat) false := by
  have hlen := bitlen_appendBits hfit
  split
  · next hlt => rw [bitAt_of_lt hlt, bitAt_of_lt (by omega), cell_appendBits_outside (.inl hlt)]
  · next hge =>
    obtain ⟨j, rfl⟩ := Nat.exists_eq_add_of_le (Nat.le_of_not_lt hge)
    rw [Nat.add_sub_cancel_left]
    rcases Nat.lt_or_ge j bits.length with hj | hj
    · rw [bitAt_of_lt (by omega), cell_appendBits_inside hm hj, List.getD_eq_getElem _ _ hj]
    · rw [bitAt_of_ge (by omega), List.getD_eq_default _ _ hj]

/-- Settles O45: an old index reads its cell, a new one the bit written there. -/
theorem appendWritesInEmissionOrder : Obligations.AppendWritesInEmissionOrder := by
  intro s bits hm hfit
  obtain ⟨-, -, hbuf⟩ := hm
  exact ⟨bitlen_appendBits hfit, bitAt_appendBits hbuf hfit, fun _ => bitAt_of_ge, fun _ => bitAt_of_lt⟩

/-! ### The read window -/

/-- The last bit packed is the least significant. -/
theorem testBit_packBits (bit : Nat → Bool) (i : Nat) {n b : Nat} (h : b < n) :
    (packBits bit i n).testBit (n - 1 - b) = bit (i + b) := by
  induction n with
  | zero => exact absurd h (Nat.not_lt_zero b)
  | succ n ih =>
    rw [packBits, Nat.add_sub_cancel]
    have hbit := (bit (i + n)).toNat_lt
    rcases Nat.lt_succ_iff_lt_or_eq.1 h with hlt | rfl
    · rw [show n - b = n - 1 - b + 1 by omega, Nat.testBit_succ,
        show (packBits bit i n * 2 + (bit (i + n)).toNat) / 2 = packBits bit i n by omega, ih hlt]
    · rw [Nat.sub_self, Nat.testBit_zero]
      cases bit (i + b) <;> simp

theorem getLsbD_bufWord (s : State) (j : Nat) {b : Nat} (h : b < 32) :
    (bufWord s j).getLsbD (31 - b) = bitAt s (32 * j + b) := by
  rw [bufWord, BitVec.getLsbD_ofNat, decide_eq_true (by omega), Bool.true_and]
  exact testBit_packBits (bitAt s) (32 * j) h

/-- Settles O50: a window address reads its `BUFWORD`, which packs 32 bits of the stream. -/
theorem readWindowPacksTheStream : Obligations.ReadWindowPacksTheStream := by
  intro s j b hj hb
  rw [readPort_window s hj, getLsbD_bufWord s j hb]
  exact ⟨rfl, bitAt_of_ge⟩

end Sys2Proof.Machine
end

section
/-! PROOFS. What a decoding session decodes depends on `W`, the table, the bitstring and the count alone (20_memory.md
R78; 44_decoder.md R188). -/

namespace Sys2Proof

/-- The opcode map gives a command back from its fields, and leaves it no nonzero unused field (30_encoding.md R81,
R83). -/
theorem lookup_fields (i : Instr) : ∃ f, lookup (opcodeOf i) (symOf i) (immOf i) = some (f, i) ∧
    unusedFieldsZero f (symOf i) (immOf i) = true := by
  cases i <;> exact ⟨_, rfl, by rfl⟩

/-- The word of a command whose operands are in range decodes to that command (30_encoding.md R84). -/
theorem decode_encode {i : Instr} (hr : operandInRange i = true) : decode (encode i) = .ok i := by
  obtain ⟨ho, hs, hi⟩ := Laws.EncodedFields.of_append i
  obtain ⟨f, hl, hz⟩ := lookup_fields i
  simp only [decode, ho, hs, hi, hl, hz, hr, Bool.true_eq_false, if_false]

end Sys2Proof

namespace Sys2Proof.Machine

variable {i : Instr} {s s' o t : State} {cmd : Word}

theorem gated_eq_false (he : s.err = 0#4) : gated cmd s = false := by simp [gated, he]

/-- With no error recorded, the word of a command whose operands are in range runs that command (60_exceptions.md
R235). -/
theorem issue_encode (hr : operandInRange i = true) (he : s.err = 0#4) : issue (encode i) s = exec i s := by
  rw [issue, gated_eq_false he, if_neg Bool.false_ne_true, execute, decode_encode hr]

/-- What a host sees of two commands whose own parts answer alike in the same phase: both record the same error, or both
complete, in related states. -/
theorem Answers.perform {R : State → State → Prop} {own own' : Except ErrorCode State} (h : Answers R own own')
    (hp : s'.phase = s.phase) (i : Instr) :
    (∃ e, perform i s own = .next (raise e (encode i) s) ∧ perform i s' own' = .next (raise e (encode i) s')) ∨
    ∃ t t', perform i s own = .next t ∧ perform i s' own' = .next t' ∧ R t t' := by
  have hc : Answers R (checked i s own) (checked i s' own') :=
    .ite rfl (fun _ => .error _) fun _ => .ite (by rw [hp]) (fun _ => .error _) fun _ => h
  rw [Machine.perform, Machine.perform]
  generalize checked i s own = a, checked i s' own' = a' at hc ⊢
  cases hc with
  | error e => exact .inl ⟨e, rfl, rfl⟩
  | ok ht => exact .inr ⟨_, _, rfl, rfl, ht⟩

/-! ### Two sessions on the same window, table and stream -/

/-- Everything no decoding session reads taken from `o`, and the rest from `s`. -/
def withUnreadOf (o s : State) : State :=
  { s with sub := o.sub, errcmd := o.errcmd, cnt := o.cnt, total := o.total, buf := o.buf, program := o.program,
           pc := o.pc }

/-- The states agree on the stream and on every register and table a decoding session reads. -/
def SameSession (s s' : State) : Prop := ∃ o, s' = withUnreadOf o s ∧ bitAt s' = bitAt s

/-- `DECSTART` loads the registers of a session but `W`, the table, `BITLEN` and the error code (44_decoder.md R181). -/
theorem sameSession_decstartCommit (n : Imm) (hw : s'.w = s.w) (hseg : s'.seg = s.seg)
    (hlen : s'.bitlen = s.bitlen) (herr : s'.err = s.err) (hbits : bitAt s' = bitAt s) :
    SameSession (decstartCommit n s) (decstartCommit n s') := by
  refine ⟨s', ?_, ?_⟩
  · simp only [decstartCommit, startCoding, rangeSize_congr hw, hw, hbits]
    simp only [withUnreadOf, setPhase, setDsym, setLookahead, setCoding, hw, hseg, hlen, herr]
  · exact hbits

theorem sameSession_decstartOwn (n : Imm) (hw : s'.w = s.w) (hseg : s'.seg = s.seg) (hlen : s'.bitlen = s.bitlen)
    (herr : s'.err = s.err) (hbits : bitAt s' = bitAt s) : Answers SameSession (decstartOwn n s) (decstartOwn n s') :=
  .ite rfl (fun _ => .error _) fun _ => .ite (by rw [tableOk_congr hseg hw]) (fun _ => .error _) fun _ =>
    .ok (sameSession_decstartCommit n hw hseg hlen herr hbits)

namespace SameSession

variable (h : SameSession s s')
include h

theorem phase : s'.phase = s.phase := by obtain ⟨o, rfl, -⟩ := h; rfl
theorem err : s'.err = s.err := by obtain ⟨o, rfl, -⟩ := h; rfl
theorem dsymSym : s'.dsymSym = s.dsymSym := by obtain ⟨o, rfl, -⟩ := h; rfl

theorem decsymCommit (sym : Symbol) : SameSession (decsymCommit sym s) (decsymCommit sym s') := by
  obtain ⟨o, rfl, hbits⟩ := h
  refine ⟨o, ?_, ?_⟩
  · rw [Machine.decsymCommit, Machine.decsymCommit, hbits]
    rfl
  · exact hbits

theorem decsymOwn : Answers SameSession (decsymOwn s) (decsymOwn s') := by
  have hcommit := h.decsymCommit
  obtain ⟨o, rfl, -⟩ := h
  refine .ite rfl (fun _ => .error _) fun _ => .ite rfl (fun _ => .error _) fun _ => ?_
  have hat : segmentAt (withUnreadOf o s) = segmentAt s := rfl
  have hrange : rangeSize (withUnreadOf o s) = rangeSize s := rfl
  rw [hat, hrange]
  dsimp only [withUnreadOf]
  cases segmentAt s _ with
  | none => exact .error _
  | some sym => exact .ok (hcommit sym)

end SameSession

/-! ### The symbols decoded -/

/-- One `DECSYM` at a time: its symbol before those of the rest, and none when it raises. -/
theorem decodedSymbols_succ (h : issue (encode .decsym) s = .next t) (n : Nat) :
    decodedSymbols (n + 1) s =
      if t.err = 0#4 then (decodedSymbols n t).map fun p => (t.dsymSym :: p.1, p.2) else none := by
  simp only [decodedSymbols, h]
  cases decodedSymbols n t <;> rfl

/-- Sessions on the same window, table and stream decode the same symbols. -/
theorem SameSession.decodedSymbols (h : SameSession s s') (he : s.err = 0#4) (k : Nat) :
    (decodedSymbols k s').map Prod.fst = (decodedSymbols k s).map Prod.fst := by
  induction k generalizing s s' with
  | zero => rfl
  | succ k ih =>
    have hs := issue_encode (i := .decsym) rfl he
    have hs' := issue_encode (i := .decsym) rfl (h.err.trans he)
    rw [exec_eq_perform] at hs hs'
    obtain ⟨e, hr, hr'⟩ | ⟨t, t', ht, ht', hR⟩ := h.decsymOwn.perform h.phase .decsym
    · rw [decodedSymbols_succ (hs.trans hr), decodedSymbols_succ (hs'.trans hr'), raise_err, raise_err,
        if_neg (errBits_ne_zero e), if_neg (errBits_ne_zero e)]
    · rw [decodedSymbols_succ (hs.trans ht), decodedSymbols_succ (hs'.trans ht'), hR.err, hR.dsymSym]
      split
      · next hte => simpa [Option.map_map, Function.comp_def] using congrArg (Option.map (t.dsymSym :: ·)) (ih hR hte)
      · rfl

/-- Settles O43: `DECSTART` makes the same checks on both states and starts the same session. -/
theorem decodingDependsOnWindowTableAndBits : Obligations.DecodingDependsOnWindowTableAndBits := by
  intro n k s s' t hw hseg hlen hbits hp hp' he he' h
  have hown := sameSession_decstartOwn n hw.symm hseg.symm hlen.symm (he'.trans he.symm) (funext hbits).symm
  rw [issue_encode rfl he, exec_eq_perform] at h
  rw [issue_encode rfl he', exec_eq_perform]
  obtain ⟨e, hr, hr'⟩ | ⟨u, u', hu, hu', hR⟩ := hown.perform (hp'.trans hp.symm) (.decstart n)
  · obtain rfl := Host.Outcome.next.inj (h.symm.trans hr)
    exact ⟨_, hr', rfl, fun hte => absurd hte (errBits_ne_zero e)⟩
  · obtain rfl := Host.Outcome.next.inj (h.symm.trans hu)
    exact ⟨u', hu', hR.err, fun hte => hR.decodedSymbols hte k⟩

end Sys2Proof.Machine
end

section
/-! PROOFS. Decoding and encoding (30_encoding.md R80 to R87): the words that decode are the encodings of the
well-formed commands, and each of the three decoding errors is read off the fields of the word. -/

namespace Sys2Proof

open Claims

variable {i : Instr} {w : Word} {f : Format} {o a : BitVec 8} {b : BitVec 16}

/-! ### A word and its fields -/

/-- The three fields are the whole word (30_encoding.md R80). -/
theorem append_fields (w : Word) : opcField w ++ symField w ++ immField w = w := by
  rw [opcField, symField, immField, BitVec.extractLsb'_append_extractLsb'_eq_extractLsb' (by rfl),
    BitVec.extractLsb'_append_extractLsb'_eq_extractLsb' (by rfl)]
  exact BitVec.extractLsb'_eq_self

theorem encode_eq_iff : encode i = w ↔ opcodeOf i = opcField w ∧ symOf i = symField w ∧ immOf i = immField w := by
  constructor
  · rintro rfl
    obtain ⟨ho, hs, hi⟩ := Laws.EncodedFields.of_append i
    exact ⟨ho.symm, hs.symm, hi.symm⟩
  · rintro ⟨ho, hs, hi⟩
    rw [encode, ho, hs, hi, append_fields]

theorem opc_eq_toNat (w : Word) : opc w = (opcField w).toNat := by
  have hw : w.toNat < 2 ^ 32 := w.isLt
  rw [opc, opcField, BitVec.extractLsb'_toNat, Nat.shiftRight_eq_div_pow]
  omega

theorem symBits_eq_toNat (w : Word) : symBits w = (symField w).toNat := by
  rw [symBits, symField, BitVec.extractLsb'_toNat, Nat.shiftRight_eq_div_pow]

theorem immBits_eq_toNat (w : Word) : immBits w = (immField w).toNat := by
  rw [immBits, immField, BitVec.extractLsb'_toNat, Nat.shiftRight_zero]

/-! ### The opcode map -/

/-- The format of an opcode, none when it is reserved (30_encoding.md R83, R85). -/
def formatOf (o : BitVec 8) : Option Format := (lookup o 0 0).map Prod.fst

/-- The format depends on the opcode alone. -/
theorem lookup_format (o a : BitVec 8) (b : BitVec 16) : (lookup o a b).map Prod.fst = formatOf o := by
  unfold formatOf lookup
  split <;> rfl

theorem formatOf_of_lookup (h : lookup o a b = some (f, i)) : formatOf o = some f := by
  rw [← lookup_format o a b, h]
  rfl

theorem lookup_eq_none_iff : lookup o a b = none ↔ formatOf o = none := by
  rw [← lookup_format o a b, Option.map_eq_none_iff]

/-- A row of the opcode map whose unused fields are zero holds the command of exactly these fields (30_encoding.md R83,
R86). -/
theorem fields_of_lookup (h : lookup o a b = some (f, i)) (hz : unusedFieldsZero f a b = true) :
    opcodeOf i = o ∧ symOf i = a ∧ immOf i = b := by
  unfold lookup at h
  split at h <;> cases h <;> simp_all [unusedFieldsZero, opcodeOf, symOf, immOf]

/-! The lists of 30_encoding.md R81 and R85, compared with the map at each of the 256 opcodes. -/

theorem formatOf_eq_none_iff : ∀ o, formatOf o = none ↔ ReservedOpcode o.toNat := by
  unfold ReservedOpcode
  decide

theorem formatOf_eq_f0_iff : ∀ o, formatOf o = some .f0 ↔ o.toNat ∈ opcodesF0 := by decide

theorem formatOf_eq_fs_iff : ∀ o, formatOf o = some .fs ↔ o.toNat ∈ opcodesFS := by decide

theorem formatOf_eq_fi_iff : ∀ o, formatOf o = some .fi ↔ o.toNat ∈ opcodesFI := by decide

/-! ### Operand ranges -/

theorem wellFormed_eq_operandInRange (i : Instr) : i.wellFormed = operandInRange i := by
  cases i <;> simp only [Instr.wellFormed, operandInRange, Bool.decide_and]

/-- Only `SETW` and `BUFPUT` have an operand out of range (30_encoding.md R87). -/
theorem operandInRange_eq_false_iff : operandInRange i = false ↔
    (∃ imm, i = .setw imm ∧ (imm.toNat < 2 ∨ 16 < imm.toNat)) ∨
    ∃ n bits, i = .bufput n bits ∧ (n.toNat < 1 ∨ 16 < n.toNat ∨ 2 ^ n.toNat ≤ bits.toNat) := by
  cases i with
  | setw imm => simp [operandInRange, imp_iff_not_or]
  | bufput n bits => simp [operandInRange, imp_iff_not_or, or_assoc]
  | _ => simp [operandInRange]

theorem operandOutOfRange_iff : OperandOutOfRange w ↔ ∃ i, encode i = w ∧ operandInRange i = false := by
  simp only [operandInRange_eq_false_iff, encode_eq_iff]
  rw [OperandOutOfRange, opc_eq_toNat, symBits_eq_toNat, immBits_eq_toNat]
  constructor
  · rintro (⟨ho, hs, hr⟩ | ⟨ho, hr⟩)
    · exact ⟨.setw (immField w), ⟨BitVec.eq_of_toNat_eq ho.symm, BitVec.eq_of_toNat_eq hs.symm, rfl⟩,
        .inl ⟨_, rfl, hr⟩⟩
    · exact ⟨.bufput (symField w) (immField w), ⟨BitVec.eq_of_toNat_eq ho.symm, rfl, rfl⟩,
        .inr ⟨_, _, rfl, hr⟩⟩
  · rintro ⟨_, ⟨ho, hs, hi⟩, ⟨imm, rfl, hr⟩ | ⟨n, bits, rfl, hr⟩⟩
    · exact .inl ⟨by rw [← ho]; rfl, by rw [← hs]; rfl, by rwa [← hi]⟩
    · exact .inr ⟨by rw [← ho]; rfl, by rwa [← hs, ← hi]⟩

/-- A nonzero unused field is one the format of the opcode does not use (30_encoding.md R81, R86). -/
theorem nonzeroUnusedField_iff : NonzeroUnusedField w ↔
    ∃ f, formatOf (opcField w) = some f ∧ unusedFieldsZero f (symField w) (immField w) = false := by
  rw [NonzeroUnusedField, opc_eq_toNat, symBits_eq_toNat, immBits_eq_toNat, ← formatOf_eq_f0_iff,
    ← formatOf_eq_fi_iff, ← formatOf_eq_fs_iff]
  cases formatOf (opcField w) with
  | none => simp
  | some f => cases f <;> simp [unusedFieldsZero, BitVec.toNat_eq, imp_iff_not_or]

/-! ### The steps of decoding -/

theorem decode_eq_reservedOpcode_iff : decode w = .error .reservedOpcode ↔ ReservedOpcode (opc w) := by
  rw [opc_eq_toNat, ← formatOf_eq_none_iff, ← lookup_eq_none_iff (a := symField w) (b := immField w), decode]
  cases lookup (opcField w) (symField w) (immField w) with
  | none => simp
  | some p => dsimp only; split_ifs <;> simp

theorem decode_eq_mustBeZero_iff : decode w = .error .mustBeZero ↔ NonzeroUnusedField w := by
  rw [nonzeroUnusedField_iff, ← lookup_format (opcField w) (symField w) (immField w), decode]
  cases lookup (opcField w) (symField w) (immField w) with
  | none => simp
  | some p => dsimp only; split_ifs <;> simp_all

/-- A word that passes the first two steps is the encoding of a command (30_encoding.md R84). -/
theorem decode_cases (w : Word) :
    decode w = .error .reservedOpcode ∨ decode w = .error .mustBeZero ∨ ∃ i, encode i = w := by
  cases hl : lookup (opcField w) (symField w) (immField w) with
  | none => exact .inl (by rw [decode, hl])
  | some p =>
    obtain ⟨f, i⟩ := p
    cases hz : unusedFieldsZero f (symField w) (immField w) with
    | false => exact .inr (.inl (by simp only [decode, hl, hz, if_true]))
    | true => exact .inr (.inr ⟨i, encode_eq_iff.2 (fields_of_lookup hl hz)⟩)

/-- The word of a command fails the last step when an operand is out of range (30_encoding.md R84, R87). -/
theorem decode_encode_out_of_range (hr : operandInRange i = false) : decode (encode i) = .error .operandRange := by
  obtain ⟨ho, hs, hi⟩ := Laws.EncodedFields.of_append i
  obtain ⟨f, hl, hz⟩ := lookup_fields i
  simp only [decode, ho, hs, hi, hl, hz, hr, Bool.true_eq_false, if_false, if_true]

/-- Past the first two steps the operands decide (30_encoding.md R84). -/
theorem decode_encode_cases (i : Instr) :
    (operandInRange i = true ∧ decode (encode i) = .ok i) ∨
    (operandInRange i = false ∧ decode (encode i) = .error .operandRange) := by
  cases hr : operandInRange i with
  | true => exact .inl ⟨rfl, decode_encode hr⟩
  | false => exact .inr ⟨rfl, decode_encode_out_of_range hr⟩

theorem decode_eq_operandRange_iff : decode w = .error .operandRange ↔ OperandOutOfRange w := by
  rw [operandOutOfRange_iff]
  constructor
  · intro h
    obtain hd | hd | ⟨i, rfl⟩ := decode_cases w
    · cases hd.symm.trans h
    · cases hd.symm.trans h
    · obtain ⟨-, hd⟩ | ⟨hr, -⟩ := decode_encode_cases i
      · cases hd.symm.trans h
      · exact ⟨i, rfl, hr⟩
  · rintro ⟨i, rfl, hr⟩
    exact decode_encode_out_of_range hr

theorem decode_eq_ok_iff : decode w = .ok i ↔ encode i = w ∧ operandInRange i = true := by
  constructor
  · intro h
    obtain hd | hd | ⟨j, rfl⟩ := decode_cases w
    · cases hd.symm.trans h
    · cases hd.symm.trans h
    · obtain ⟨hr, hd⟩ | ⟨-, hd⟩ := decode_encode_cases j
      · cases hd.symm.trans h
        exact ⟨rfl, hr⟩
      · cases hd.symm.trans h
  · rintro ⟨rfl, hr⟩
    exact decode_encode hr

/-- Settles O2: an encoding's fields are the opcode and the operands, and the opcode map gives the command back. -/
theorem decodeOfEncodeIsTheCommand : Obligations.DecodeOfEncodeIsTheCommand := fun i hi =>
  decode_encode ((wellFormed_eq_operandInRange i).symm.trans hi)

/-- Settles O3: past the three steps the fields hold the operands of the command and nothing else. -/
theorem decodedWordsAreTheirOwnEncoding : Obligations.DecodedWordsAreTheirOwnEncoding := by
  intro w i h
  rw [wellFormed_eq_operandInRange]
  exact decode_eq_ok_iff.1 h

/-- Settles O1: each word is the encoding of its command. -/
theorem decodesTheExampleWords : Obligations.DecodesTheExampleWords := by
  simp only [Obligations.DecodesTheExampleWords, decode_eq_ok_iff]
  decide

end Sys2Proof

namespace Sys2Proof.Machine

open Claims

variable {i : Instr} {s : State} {w : Word}

/-! ### The errors -/

/-- With no error recorded, a word that fails decoding raises the error of the step it fails (60_exceptions.md R235). -/
theorem issue_of_decode_error {e : DecodeError} (he : s.err = 0#4) (h : decode w = .error e) :
    issue w s = .next (raise (errorOfDecode e) w s) := by
  rw [issue, gated_eq_false he, if_neg Bool.false_ne_true, execute, h]

/-- Settles O4: the opcode map has no row for exactly the opcodes of the seven ranges. -/
theorem reservedOpcodesRaiseIllegalOne : Obligations.ReservedOpcodesRaiseIllegalOne := fun _ =>
  ⟨decode_eq_reservedOpcode_iff, fun _ he h => issue_of_decode_error he (decode_eq_reservedOpcode_iff.2 h)⟩

/-- Settles O5: the format of the opcode says which fields the second step checks. -/
theorem nonzeroUnusedFieldsRaiseIllegalTwo : Obligations.NonzeroUnusedFieldsRaiseIllegalTwo := fun _ =>
  ⟨decode_eq_mustBeZero_iff, fun _ he h => issue_of_decode_error he (decode_eq_mustBeZero_iff.2 h)⟩

theorem legalIn_of_requiredPhase (h : requiredPhase i = some s.phase) : legalIn i s.phase = true := by
  simp [legalIn, h]

/-- `DECSTART` of no symbols (30_encoding.md R87; 44_decoder.md R181). -/
theorem exec_decstart_zero (hp : s.phase = .idle) : exec (.decstart 0) s = .next (withError s 1 1 0x50000000#32) := by
  rw [exec_eq_perform]
  exact perform_error rfl (legalIn_of_requiredPhase (by rw [hp]; rfl)) rfl

/-- `ENCSYM` of a symbol with no segment (30_encoding.md R87; 43_encoder.md R162). -/
theorem exec_encsym_absent {sym : Symbol} (hp : s.phase = .enc) (hv : (segmentOf s sym).valid = false) :
    exec (.encsym sym) s = .next (withError s 1 3 (encode (.encsym sym))) := by
  rw [exec_eq_perform]
  exact perform_error rfl (legalIn_of_requiredPhase (by rw [hp]; rfl)) (if_pos hv)

/-- Settles O6: the word encodes a command with an operand out of range; the other two checks are the first the commands
make at execution. -/
theorem outOfRangeOperandsRaiseIllegalThree : Obligations.OutOfRangeOperandsRaiseIllegalThree :=
  ⟨fun _ => ⟨decode_eq_operandRange_iff, fun _ he h => issue_of_decode_error he (decode_eq_operandRange_iff.2 h)⟩,
    fun _ => exec_decstart_zero, fun _ _ => exec_encsym_absent⟩

end Sys2Proof.Machine
end

section
/-! PROOFS. The table commands: counting, clearing the counts and the table, and loading an entry by hand
(40_segment_builder.md R101, R102, R109 to R111). -/

namespace Sys2Proof.Machine

open Claims

variable {i : Instr} {s t : State} {sym o : Symbol}

/-! ### A command in and outside its phase -/

/-- The word of a command as a number (30_encoding.md R80). -/
theorem encode_toNat (i : Instr) :
    (encode i).toNat = (opcodeOf i).toNat * 0x1000000 + (symOf i).toNat * 0x10000 + (immOf i).toNat := by
  rw [encode, toNat_append_eq_add, toNat_append_eq_add]
  omega

/-- Outside its phase a command raises `SEQUENCE.1` (60_exceptions.md R236). -/
theorem onlyIn_of_requiredPhase {p : Phase} (hr : operandInRange i = true) (hq : requiredPhase i = some p) :
    OnlyIn p i := by
  intro s hp
  have hl : legalIn i s.phase = false := by simpa [legalIn, hq] using hp
  rw [exec_eq_perform, perform_outside_phase hr hl]
  rfl

/-- In its phase a command answers what its own part commits. -/
theorem exec_ok (hr : operandInRange i = true) (hq : requiredPhase i = some s.phase) (h : ownPart i s = .ok t) :
    exec i s = .next t := by
  rw [exec_eq_perform]
  exact perform_ok hr (legalIn_of_requiredPhase hq) h

/-- In its phase a command records the error of its own part. -/
theorem exec_error {e : ErrorCode} (hr : operandInRange i = true) (hq : requiredPhase i = some s.phase)
    (h : ownPart i s = .error e) : exec i s = .next (raise e (encode i) s) := by
  rw [exec_eq_perform]
  exact perform_error hr (legalIn_of_requiredPhase hq) h

/-! ### Counting -/

/-- Settles O19: `CNTCLR` writes the empty list of counts. -/
theorem cntclrClearsEveryCount : Obligations.CntclrClearsEveryCount :=
  ⟨by decide, onlyIn_of_requiredPhase rfl rfl, fun _ hp =>
    ⟨_, exec_ok rfl (congrArg some hp.symm) rfl, count_setCounts_nil _, rfl, rfl⟩⟩

theorem toNat_add_one {x : BitVec 16} (h : x.toNat < 65535) : (x + 1#16).toNat = x.toNat + 1 :=
  BitVec.toNat_add_of_lt (Nat.succ_lt_succ h)

/-- Settles O20: a count is at most `TOTAL`, so below the limit of `TOTAL` neither wraps. -/
theorem cntCountsOneOccurrence : Obligations.CntCountsOneOccurrence := by
  intro sym
  refine ⟨by simp [encode_toNat, opcodeOf, symOf, immOf], onlyIn_of_requiredPhase rfl rfl, fun s hp => ?_⟩
  have hq : requiredPhase (.cnt sym) = some s.phase := congrArg some hp.symm
  refine ⟨fun hfull => ?_, fun hroom hm hsum => ?_⟩
  · exact exec_error rfl hq (if_pos hfull)
  · have hcount : (count s sym).toNat < 65535 := (count_le_sumOfCounts s sym).trans_lt (hsum ▸ hroom)
    refine ⟨_, exec_ok rfl hq (if_neg hroom.ne), ?_, fun o ho => ?_, toNat_add_one hroom, rfl⟩
    · rw [count_setCounts_write hm.1, if_pos rfl, toNat_add_one hcount]
    · rw [count_setCounts_write hm.1, if_neg ho]

/-! ### What `TableOK` reads -/

/-- The entries of absent symbols are not read (40_segment_builder.md R108). -/
theorem tableOk_of_same_present (hw : t.w = s.w) (hvalid : ∀ o, (segmentOf t o).valid = (segmentOf s o).valid)
    (hentry : ∀ o, (segmentOf s o).valid = true → segmentOf t o = segmentOf s o) : tableOk t = tableOk s := by
  have hpresent : presentSymbols t = presentSymbols s := by simp only [presentSymbols, hvalid]
  have htable : (presentSymbols s).map (segmentOf t) = (presentSymbols s).map (segmentOf s) :=
    List.map_congr_left fun o ho => hentry o (List.mem_filter.1 ho).2
  simp only [tableOk, hpresent, htable, rangeSize_congr hw]

/-- With no symbol present the table is no partition (40_segment_builder.md R109). -/
theorem tableOk_setTable_nil (s : State) : tableOk (setTable [] s) = false := by
  have hnone : presentSymbols (setTable [] s) = [] := List.filter_eq_nil_iff.2 fun _ _ => Bool.false_ne_true
  rw [tableOk, hnone]
  rfl

/-- Settles O23: `SEGCLR` writes the empty list of entries. -/
theorem segclrEmptiesTheTable : Obligations.SegclrEmptiesTheTable :=
  ⟨by decide, onlyIn_of_requiredPhase rfl rfl, fun s hp =>
    ⟨_, exec_ok rfl (congrArg some hp.symm) rfl, fun _ => ⟨rfl, rfl, rfl⟩, tableOk_setTable_nil s, rfl⟩⟩

/-! ### Loading an entry by hand -/

theorem segmentOf_putSegment_same (hm : Memory.wf Config.nSyms Segment.empty s.seg) (sym : Symbol) (e : Segment) :
    segmentOf (putSegment sym e s) sym = e := by
  rw [segmentOf_putSegment hm, if_pos rfl]

theorem segmentOf_putSegment_other (hm : Memory.wf Config.nSyms Segment.empty s.seg) (e : Segment) (h : o ≠ sym) :
    segmentOf (putSegment sym e s) o = segmentOf s o := by
  rw [segmentOf_putSegment hm, if_neg h]

/-- A new low bound of an absent symbol leaves it absent, and so unread (40_segment_builder.md R110). -/
theorem tableOk_putSegment_absent (hm : Memory.wf Config.nSyms Segment.empty s.seg) {e : Segment}
    (hs : (segmentOf s sym).valid = false) (he : e.valid = false) : tableOk (putSegment sym e s) = tableOk s := by
  refine tableOk_of_same_present rfl (fun o => ?_) fun o ho => ?_
  · rw [segmentOf_putSegment hm]
    split
    · next h => rw [h, hs, he]
    · rfl
  · refine segmentOf_putSegment_other hm e fun h => ?_
    cases hs.symm.trans (h ▸ ho)

/-- Only `SEGCLR`, `BUILD` and `RESET` make a present symbol absent (40_segment_builder.md R111). -/
theorem commits_keeps_present (hm : Memory.wf Config.nSyms Segment.empty s.seg) (h : Commits s i t)
    (hv : (segmentOf s o).valid = true) : (segmentOf t o).valid = true ∨ i = .segclr ∨ i = .build ∨ i = .reset := by
  cases h with
  | segclr | build | reset => simp
  | @seglo sym =>
    rw [segmentOf_putSegment hm]
    split
    · next ho => exact .inl (ho ▸ hv)
    · exact .inl hv
  | seghi =>
    rw [segmentOf_putSegment hm]
    split
    · exact .inl rfl
    · exact .inl hv
  | nop | clrerr | abort | setw | cntclr | cnt | bufclr | bufput | encstart | encsym | encflush | decstart | decsym =>
    refine .inl (Eq.trans (congrArg Segment.valid (congrFun (segmentOf_congr ?_) o)) hv)
    simp

theorem exec_keeps_present (hm : Memory.wf Config.nSyms Segment.empty s.seg) (h : exec i s = .next t)
    (hv : (segmentOf s o).valid = true) : (segmentOf t o).valid = true ∨ i = .segclr ∨ i = .build ∨ i = .reset := by
  obtain ⟨e, rfl⟩ | hc := exec_cases h
  · exact .inl hv
  · exact commits_keeps_present hm hc hv

/-- Settles O24: both commands write one cell of the table, and no other command but the three named writes an entry
that was present. -/
theorem segloAndSeghiWriteOneEntry : Obligations.SegloAndSeghiWriteOneEntry := by
  intro sym imm
  refine ⟨by simp [encode_toNat, opcodeOf, symOf, immOf], by simp [encode_toNat, opcodeOf, symOf, immOf],
    onlyIn_of_requiredPhase rfl rfl, onlyIn_of_requiredPhase rfl rfl,
    fun s hp ⟨_, hm, _⟩ => ⟨?_, ?_, fun i t o h hv hgone => ?_⟩⟩
  · have hsame := segmentOf_putSegment_same hm sym { segmentOf s sym with lo := imm }
    exact ⟨_, exec_ok rfl (congrArg some hp.symm) rfl, by rw [hsame], by rw [hsame], by rw [hsame],
      fun o => segmentOf_putSegment_other hm _, rfl, fun hs => tableOk_putSegment_absent hm hs hs⟩
  · have hsame := segmentOf_putSegment_same hm sym { segmentOf s sym with valid := true, hi := imm }
    exact ⟨_, exec_ok rfl (congrArg some hp.symm) rfl, by rw [hsame], by rw [hsame], by rw [hsame],
      fun o => segmentOf_putSegment_other hm _, rfl⟩
  · exact (exec_keeps_present hm h hv).resolve_left (by simp [hgone])

end Sys2Proof.Machine
end

section
/-! PROOFS. The partition: what `Segments` returns in closed form, what `BUILD` makes of it, and what `TableOK` asks of
a table (40_segment_builder.md R103 to R108). -/

namespace Sys2Proof.Machine

open Claims

variable {s t : State} {o m : Nat}

/-! ### The cuts of the range -/

theorem countBelow_succ (s : State) (o : Nat) : countBelow s (o + 1) = countBelow s o + countAt s o := by
  simp [countBelow, List.range_succ]

theorem countBelow_nSyms (s : State) : countBelow s 256 = sumOfCounts s := by
  rw [countBelow, sumOfCounts, symbolCodes, List.map_map]
  rfl

theorem countBelow_le_total (hsum : TotalIsSum s) (ho : o ≤ 256) : countBelow s o ≤ s.total.toNat := by
  have hmono : Monotone (countBelow s) := monotone_nat_of_le_succ fun o => by rw [countBelow_succ]; omega
  rw [hsum, ← countBelow_nSyms]
  exact hmono ho

theorem cut_eq_ceilDiv (ht : 0 < s.total.toNat) (o : Nat) :
    cut s o = ceilDiv (countBelow s o * rangeSize s) s.total.toNat := by
  rw [cut, ceilDiv, rangeSize, Nat.add_sub_assoc ht]

theorem cut_zero (ht : 0 < s.total.toNat) : cut s 0 = 0 := by
  rw [cut_eq_ceilDiv ht, ← Nat.le_zero, ceilDiv_le_iff ht]
  simp [countBelow]

theorem cut_le_rangeSize (ht : 0 < s.total.toNat) (hsum : TotalIsSum s) (ho : o ≤ 256) : cut s o ≤ rangeSize s := by
  rw [cut_eq_ceilDiv ht, ceilDiv_le_iff ht, Nat.mul_comm]
  exact Nat.mul_le_mul_left _ (countBelow_le_total hsum ho)

/-- The last cut is the end of the range (40_segment_builder.md R104). -/
theorem cut_nSyms (ht : 0 < s.total.toNat) (hsum : TotalIsSum s) : cut s 256 = rangeSize s := by
  refine Nat.le_antisymm (cut_le_rangeSize ht hsum le_rfl) ?_
  have hle : countBelow s 256 * rangeSize s ≤ cut s 256 * s.total.toNat := by
    rw [← ceilDiv_le_iff ht, ← cut_eq_ceilDiv ht]
  rw [countBelow_nSyms, ← hsum, Nat.mul_comm] at hle
  exact Nat.le_of_mul_le_mul_right hle ht

/-- A code that was not counted moves no cut. -/
theorem cut_succ_of_absent (h : countAt s o = 0) : cut s (o + 1) = cut s o := by
  rw [cut, cut, countBelow_succ, h, Nat.add_zero]

/-! ### `Segments` in closed form (40_segment_builder.md R103) -/

/-- The segment of code `o` gets no width (40_segment_builder.md R105). -/
def ZeroWidth (s : State) (o : Nat) : Prop := 0 < countAt s o ∧ cut s (o + 1) ≤ cut s o

/-- The entry of a counted code: from the cut below it to the cut above it. -/
def cutSegment (s : State) (o : Nat) : Segment :=
  ⟨true, BitVec.ofNat 16 (cut s o), BitVec.ofNat 16 (cut s (o + 1) - 1)⟩

/-- The counted ones of `m` codes from `o` on, each with its entry. -/
def cutCells (s : State) (o m : Nat) : Memory Segment :=
  ((List.range' o m).filter fun p => 0 < countAt s p).map fun p => (symIndex (BitVec.ofNat 8 p), cutSegment s p)

/-- The loop of `Segments` over `m` codes from `o` on, started at the cut below `o`. -/
def segmentsFrom (s : State) (o m : Nat) : Except Symbol (Memory Segment) :=
  segments (rangeSize s) s.total.toNat (fun sym => (count s sym).toNat) ((List.range' o m).map (BitVec.ofNat 8))
    (cut s o) (countBelow s o)

theorem segmentsOf_eq_segmentsFrom (ht : 0 < s.total.toNat) : segmentsOf s = segmentsFrom s 0 256 := by
  rw [segmentsOf, segmentsFrom, cut_zero ht, symbolCodes, List.range_eq_range']
  rfl

/-- A code that was not counted is passed over. -/
theorem segmentsFrom_absent (h : countAt s o = 0) : segmentsFrom s o (m + 1) = segmentsFrom s (o + 1) m := by
  have hc : (count s (BitVec.ofNat 8 o)).toNat = 0 := h
  rw [segmentsFrom, segmentsFrom, cut_succ_of_absent h, countBelow_succ, h, List.range'_succ, List.map_cons, segments,
    if_pos hc]
  rfl

/-- The loop at a counted symbol: no width, or its entry and the rest from the next cut on. -/
theorem segments_cons_counted {n t : Nat} {counts : Symbol → Nat} {sym : Symbol} (h : counts sym ≠ 0)
    (rest : List Symbol) (left run : Nat) :
    segments n t counts (sym :: rest) left run =
      if ceilDiv ((run + counts sym) * n) t ≤ left then .error sym
      else (segments n t counts rest (ceilDiv ((run + counts sym) * n) t) (run + counts sym)).map
        ((symIndex sym, ⟨true, BitVec.ofNat 16 left, BitVec.ofNat 16 (ceilDiv ((run + counts sym) * n) t - 1)⟩) :: ·) := by
  have hwidth (top : Nat) : (top - 1 < left ∨ top = 0) ↔ top ≤ left := by omega
  simp only [segments, if_neg h, hwidth]
  split
  · rfl
  · split <;> next heq => rw [heq]; rfl

theorem segmentsFrom_counted (ht : 0 < s.total.toNat) (h : 0 < countAt s o) :
    segmentsFrom s o (m + 1) =
      if cut s (o + 1) ≤ cut s o then .error (BitVec.ofNat 8 o)
      else (segmentsFrom s (o + 1) m).map ((symIndex (BitVec.ofNat 8 o), cutSegment s o) :: ·) := by
  have hc : (count s (BitVec.ofNat 8 o)).toNat ≠ 0 := Nat.ne_of_gt h
  rw [segmentsFrom, segmentsFrom, cutSegment, cut_eq_ceilDiv ht (o + 1), countBelow_succ, List.range'_succ,
    List.map_cons]
  exact segments_cons_counted hc _ _ _

/-- With every counted code of positive width the loop answers their entries. -/
theorem segmentsFrom_eq_ok (ht : 0 < s.total.toNat) (h : ∀ p, o ≤ p → p < o + m → ¬ ZeroWidth s p) :
    segmentsFrom s o m = .ok (cutCells s o m) := by
  induction m generalizing o with
  | zero => rfl
  | succ m ih =>
    have hrest := ih (o := o + 1) fun p hp hlt => h p (by omega) (by omega)
    rcases Nat.eq_zero_or_pos (countAt s o) with hc | hc
    · simp [segmentsFrom_absent hc, hrest, cutCells, List.range'_succ, hc]
    · have hwidth : ¬ cut s (o + 1) ≤ cut s o := fun hle => h o le_rfl (by omega) ⟨hc, hle⟩
      simp [segmentsFrom_counted ht hc, if_neg hwidth, hrest, cutCells, List.range'_succ, hc, Except.map]

/-- One counted code without width ends the loop. -/
theorem segmentsFrom_eq_error (ht : 0 < s.total.toNat) {p : Nat} (hlow : o ≤ p) (hhigh : p < o + m)
    (hp : ZeroWidth s p) : ∃ sym, segmentsFrom s o m = .error sym := by
  induction m generalizing o with
  | zero => omega
  | succ m ih =>
    by_cases ho : ZeroWidth s o
    · exact ⟨_, by rw [segmentsFrom_counted ht ho.1, if_pos ho.2]⟩
    · have hne : o ≠ p := fun he => ho (he ▸ hp)
      obtain ⟨sym, hrest⟩ := ih (o := o + 1) (by omega) (by omega)
      rcases Nat.eq_zero_or_pos (countAt s o) with hc | hc
      · exact ⟨sym, by rw [segmentsFrom_absent hc, hrest]⟩
      · exact ⟨sym, by rw [segmentsFrom_counted ht hc, if_neg fun hle => ho ⟨hc, hle⟩, hrest]; rfl⟩

theorem segmentsOf_eq_ok (ht : 0 < s.total.toNat) (h : ∀ o, o < 256 → ¬ ZeroWidth s o) :
    segmentsOf s = .ok (cutCells s 0 256) := by
  rw [segmentsOf_eq_segmentsFrom ht]
  exact segmentsFrom_eq_ok ht fun p _ hp => h p (by omega)

theorem segmentsOf_eq_error (ht : 0 < s.total.toNat) (ho : o < 256) (h : ZeroWidth s o) :
    ∃ sym, segmentsOf s = .error sym := by
  rw [segmentsOf_eq_segmentsFrom ht]
  exact segmentsFrom_eq_error ht (Nat.zero_le o) (by omega) h

/-! ### The entries `BUILD` writes -/

theorem symIndex_ofNat (ho : o < 256) : symIndex (BitVec.ofNat 8 o) = o := toNat_ofNat_of_lt ho

/-- A cell whose address is not listed reads as its reset contents. -/
theorem read_of_not_listed {α : Type} (d : α) {m : Memory α} {a : Nat} (h : ∀ e ∈ m, e.1 ≠ a) :
    Memory.read d m a = d := by
  induction m with
  | nil => rfl
  | cons e m ih =>
    rw [List.forall_mem_cons] at h
    rw [Memory.read, if_neg h.1.symm]
    exact ih h.2

/-- The table of the cuts holds exactly the counted codes. -/
theorem entryAt_cutCells (hw : Memory.wf Config.nSyms Segment.empty (cutCells s 0 256)) (ho : o < 256) :
    entryAt (setTable (cutCells s 0 256) s) o = if 0 < countAt s o then cutSegment s o else Segment.empty := by
  rw [entryAt, segmentOf, setTable_seg]
  split
  · next hc =>
    refine read_eq_of_mem _ hw.1 (List.mem_map.2 ⟨o, List.mem_filter.2 ⟨?_, decide_eq_true hc⟩, rfl⟩)
    rw [List.mem_range'_1]
    omega
  · next hc =>
    refine read_of_not_listed _ fun e he heq => hc ?_
    obtain ⟨p, hp, rfl⟩ := List.mem_map.1 he
    obtain ⟨hp, hpc⟩ := List.mem_filter.1 hp
    rw [List.mem_range'_1] at hp
    rw [symIndex_ofNat (by omega), symIndex_ofNat ho] at heq
    exact heq ▸ of_decide_eq_true hpc

/-- The bounds of an entry of positive width fit their registers. -/
theorem cutSegment_bounds (hw : WindowLegal s) (ht : 0 < s.total.toNat) (hsum : TotalIsSum s) (ho : o < 256)
    (h : cut s o < cut s (o + 1)) :
    (cutSegment s o).lo.toNat = cut s o ∧ (cutSegment s o).hi.toNat + 1 = cut s (o + 1) := by
  have hle : cut s (o + 1) ≤ 2 ^ 16 := (cut_le_rangeSize ht hsum (by omega)).trans (rangeSize_le hw)
  simp only [cutSegment]
  rw [toNat_ofNat_of_lt (by omega), toNat_ofNat_of_lt (by omega)]
  omega

/-- The table `t` holds the partition of `s` by its counts (40_segment_builder.md R103). -/
def PartitionedByCuts (s t : State) : Prop :=
  ∀ o, o < 256 →
    (countAt s o = 0 → entryAt t o = Segment.empty) ∧
    (0 < countAt s o → (entryAt t o).valid = true ∧ (entryAt t o).lo.toNat = cut s o ∧
      (entryAt t o).hi.toNat + 1 = cut s (o + 1))

/-- What `BUILD` commits (40_segment_builder.md R106). -/
theorem segmentsOf_partitioned (hw : WindowLegal s) (ht : 0 < s.total.toNat) (hsum : TotalIsSum s)
    (h : ∀ o, o < 256 → ¬ ZeroWidth s o) :
    ∃ table, segmentsOf s = .ok table ∧ PartitionedByCuts s (setTable table s) := by
  have hok := segmentsOf_eq_ok ht h
  refine ⟨_, hok, fun o ho => ?_⟩
  rw [entryAt_cutCells (wf_segmentsOf hok) ho]
  refine ⟨fun hc => if_neg (by omega), fun hc => ?_⟩
  have hwidth : cut s o < cut s (o + 1) := Nat.lt_of_not_le fun hle => h o ho ⟨hc, hle⟩
  rw [if_pos hc]
  exact ⟨rfl, cutSegment_bounds hw ht hsum ho hwidth⟩

/-! ### `BUILD`, case by case (40_segment_builder.md R106) -/

theorem alphabetSize_eq_codesCounted (s : State) : alphabetSize s = codesCounted s := by
  rw [alphabetSize, codesCounted, symbolCodes, List.countP_map, List.countP_eq_length_filter]
  simp only [Function.comp_def, Nat.pos_iff_ne_zero]
  rfl

theorem alphabet_too_large_iff : rangeSize s < alphabetSize s ↔ 2 ^ s.w.toNat < codesCounted s := by
  rw [rangeSize, alphabetSize_eq_codesCounted]

theorem buildOwn_too_large (ht : 0 < s.total.toNat) (hk : 2 ^ s.w.toNat < codesCounted s) :
    buildOwn s = .error .precisionAlphabet := by
  rw [buildOwn, if_neg ht.ne', if_pos (alphabet_too_large_iff.2 hk)]

theorem buildOwn_zeroWidth (ht : 0 < s.total.toNat) (hk : codesCounted s ≤ 2 ^ s.w.toNat) {sym : Symbol}
    (h : segmentsOf s = .error sym) : buildOwn s = .error .invalidZeroWidth := by
  rw [buildOwn, if_neg ht.ne', if_neg (mt alphabet_too_large_iff.1 hk.not_gt), h]

theorem buildOwn_ok (ht : 0 < s.total.toNat) (hk : codesCounted s ≤ 2 ^ s.w.toNat) {table : Memory Segment}
    (h : segmentsOf s = .ok table) : buildOwn s = .ok (setTable table s) := by
  rw [buildOwn, if_neg ht.ne', if_neg (mt alphabet_too_large_iff.1 hk.not_gt), h]

/-- Settles O21: `Segments` is the closed form of the cuts, and fails exactly when a counted code gets no width. -/
theorem buildPartitionsByTheCounts : Obligations.BuildPartitionsByTheCounts := by
  refine ⟨by decide, onlyIn_of_requiredPhase rfl rfl, fun s hp hw hsum => ?_⟩
  have hq : requiredPhase .build = some s.phase := congrArg some hp.symm
  refine ⟨fun ht => exec_error rfl hq (if_pos ht), fun ht hk => exec_error rfl hq (buildOwn_too_large ht hk),
    fun ht hk ⟨o, ho, hz⟩ => ?_, fun ht hk h => ?_⟩
  · obtain ⟨sym, herr⟩ := segmentsOf_eq_error ht ho hz
    exact exec_error rfl hq (buildOwn_zeroWidth ht hk herr)
  · obtain ⟨table, hok, hpart⟩ := segmentsOf_partitioned hw ht hsum fun o ho hz => hz.2.not_gt (h o ho hz.1)
    exact ⟨_, exec_ok rfl hq (buildOwn_ok ht hk hok), rfl, hpart⟩

/-! ### `TableOK` (40_segment_builder.md R108) -/

/-- Consecutive segments by index: the first starts at `start`, none is empty, each next one starts one past the end of
the one before, and the last ends at `n - 1`. -/
theorem coversFrom_map_iff {n start : Nat} (f : Nat → Segment) {codes : List Nat} (hne : codes ≠ []) :
    coversFrom n start (codes.map f) = true ↔
      (f (codes.getD 0 0)).lo.toNat = start ∧
      (∀ i, i < codes.length → (f (codes.getD i 0)).lo.toNat ≤ (f (codes.getD i 0)).hi.toNat) ∧
      (∀ i, i + 1 < codes.length → (f (codes.getD (i + 1) 0)).lo.toNat = (f (codes.getD i 0)).hi.toNat + 1) ∧
      (f (codes.getD (codes.length - 1) 0)).hi.toNat + 1 = n := by
  induction codes generalizing start with
  | nil => exact absurd rfl hne
  | cons c rest ih =>
    cases rest with
    | nil => simp [coversFrom, and_assoc]
    | cons d rest =>
      rw [List.map_cons, coversFrom, Bool.and_eq_true, ih (List.cons_ne_nil d rest)]
      simp only [List.length_cons, Nat.add_lt_add_iff_right, Nat.forall_lt_succ_left (n := rest.length + 1),
        Nat.forall_lt_succ_left (n := rest.length), List.getD_cons_zero, List.getD_cons_succ, Nat.add_sub_cancel,
        Bool.and_eq_true, beq_iff_eq, decide_eq_true_eq]
      tauto

/-- The present symbols are the present codes (40_segment_builder.md R108). -/
theorem map_segmentOf_presentSymbols (s : State) :
    (presentSymbols s).map (segmentOf s) = (presentCodes s).map (entryAt s) := by
  rw [presentSymbols, symbolCodes, List.filter_map, List.map_map]
  rfl

theorem tableOk_iff (s : State) :
    tableOk s = true ↔ presentCodes s ≠ [] ∧ coversFrom (rangeSize s) 0 ((presentCodes s).map (entryAt s)) = true := by
  simp [tableOk, map_segmentOf_presentSymbols]

theorem tableOk_iff_five_conditions (s : State) :
    tableOk s = true ↔
      1 ≤ (presentCodes s).length ∧ lowOf s 0 = 0 ∧
      (∀ i, i < (presentCodes s).length → lowOf s i ≤ highOf s i) ∧
      (∀ i, i + 1 < (presentCodes s).length → lowOf s (i + 1) = highOf s i + 1) ∧
      highOf s ((presentCodes s).length - 1) = 2 ^ s.w.toNat - 1 := by
  have hlast (x : Nat) : x = 2 ^ s.w.toNat - 1 ↔ x + 1 = 2 ^ s.w.toNat :=
    eq_tsub_iff_add_eq_of_le Nat.one_le_two_pow
  rw [tableOk_iff, hlast, Nat.one_le_iff_ne_zero, Ne, Ne, List.length_eq_zero_iff]
  exact and_congr_right fun hne => coversFrom_map_iff (entryAt s) hne

/-- The partition by the cuts covers the range from each cut on (40_segment_builder.md R104). -/
theorem coversFrom_cuts (h : PartitionedByCuts s t) (hz : ∀ o, o < 256 → ¬ ZeroWidth s o) (hm : o + m = 256) :
    coversFrom (cut s 256) (cut s o) (((List.range' o m).filter fun p => (entryAt t p).valid).map (entryAt t)) =
      true := by
  induction m generalizing o with
  | zero => simp [coversFrom, show o = 256 by omega]
  | succ m ih =>
    have hrest := ih (o := o + 1) (by omega)
    obtain ⟨habsent, hpresent⟩ := h o (by omega)
    rcases Nat.eq_zero_or_pos (countAt s o) with hc | hc
    · have hv : (entryAt t o).valid = false := by rw [habsent hc]; rfl
      rw [cut_succ_of_absent hc] at hrest
      simpa [List.range'_succ, hv] using hrest
    · obtain ⟨hv, hlo, hhi⟩ := hpresent hc
      have hwidth : cut s o < cut s (o + 1) := Nat.lt_of_not_le fun hle => hz o (by omega) ⟨hc, hle⟩
      have hle : cut s o ≤ (entryAt t o).hi.toNat := by omega
      simp [List.range'_succ, hv, coversFrom, hlo, hhi, hrest, hle]

/-- A table of the cuts is a partition of the range (40_segment_builder.md R104, R108). -/
theorem tableOk_of_partitioned (ht : 0 < s.total.toNat) (hsum : TotalIsSum s) (hw : t.w = s.w)
    (h : PartitionedByCuts s t) (hz : ∀ o, o < 256 → ¬ ZeroWidth s o) : tableOk t = true := by
  have hcovers := coversFrom_cuts h hz (Nat.zero_add 256)
  rw [cut_zero ht, cut_nSyms ht hsum, ← List.range_eq_range'] at hcovers
  refine (tableOk_iff t).2 ⟨fun hnone => ?_, by rwa [rangeSize_congr hw]⟩
  rw [← presentCodes, hnone] at hcovers
  exact (rangeSize_pos s).ne (beq_iff_eq.1 hcovers)

/-- Settles O22: the conditions by index are the loop of `TableOK` along the table, and the cuts of `BUILD` run from 0
to `N`. -/
theorem tableOkIsTheFiveConditions : Obligations.TableOkIsTheFiveConditions := by
  refine ⟨tableOk_iff_five_conditions, fun s t hw hsum _ h hte => ?_⟩
  obtain ⟨e, rfl⟩ | hc := exec_cases h
  · exact absurd hte (errBits_ne_zero e)
  · cases hc with | build _ hcounted _ hok =>
    have ht : 0 < s.total.toNat := Nat.pos_of_ne_zero hcounted
    have hz : ∀ o, o < 256 → ¬ ZeroWidth s o := fun o ho hzero => by
      obtain ⟨sym, herr⟩ := segmentsOf_eq_error ht ho hzero
      cases hok.symm.trans herr
    obtain ⟨_, hok', hpart⟩ := segmentsOf_partitioned hw ht hsum hz
    cases hok.symm.trans hok'
    exact ⟨tableOk_of_partitioned ht hsum rfl hpart hz, rfl⟩

end Sys2Proof.Machine
end

section
/-! PROOFS. Interval narrowing: the exact ceilings of the projection, how the projections of neighbouring segments tile
the working interval, and the one segment of a table that holds a position (41_interval_narrowing.md R130 to R135). -/

namespace Sys2Proof.Machine

open Claims

variable {a b n sl sh l h v : Nat}

/-! ### The exact ceiling (00_scope.md R11) -/

theorem ceilDiv_le_ceilDiv (hab : a ≤ b) (n : Nat) : ceilDiv a n ≤ ceilDiv b n :=
  Nat.div_le_div_right (Nat.add_le_add_right hab _)

theorem ceilDiv_zero_left (hn : 0 < n) : ceilDiv 0 n = 0 :=
  Nat.le_zero.1 ((ceilDiv_le_iff hn).2 (Nat.zero_le _))

theorem ceilDiv_pos (hn : 0 < n) (ha : 0 < a) : 0 < ceilDiv a n := by
  rw [← Nat.not_le, ceilDiv_le_iff hn]
  omega

theorem ceilDiv_add_self (hn : 0 < n) (a : Nat) : ceilDiv (a + n) n = ceilDiv a n + 1 := by
  rw [ceilDiv, Nat.add_right_comm, Nat.add_div_right _ hn, ceilDiv]

theorem ceilDiv_mul_self (hn : 0 < n) (a : Nat) : ceilDiv (n * a) n = a := by
  refine eq_of_forall_ge_iff fun c => ?_
  rw [ceilDiv_le_iff hn, Nat.mul_comm, Nat.mul_le_mul_right_iff hn]

/-- It is the ceiling of the rational quotient. -/
theorem cast_ceilDiv (hn : 0 < n) (a : Nat) : (ceilDiv a n : ℤ) = ⌈(a : ℚ) / n⌉ := by
  have hnat : ceilDiv a n = ⌈(a : ℚ) / n⌉₊ := eq_of_forall_ge_iff fun c => by
    rw [ceilDiv_le_iff hn, Nat.ceil_le, div_le_iff₀ (Nat.cast_pos.2 hn)]
    norm_cast
  rw [hnat, Int.natCast_ceil_eq_ceil (by positivity)]

/-- By a power of two it is a right shift (41_interval_narrowing.md R130). -/
theorem ceilDiv_two_pow (a w : Nat) : ceilDiv a (2 ^ w) = (a + 2 ^ w - 1) >>> w := by
  rw [ceilDiv, Nat.shiftRight_eq_div_pow, Nat.add_sub_assoc Nat.one_le_two_pow]

/-! ### The two ends of a projection (41_interval_narrowing.md R130) -/

theorem cast_intervalWidth (hlh : l ≤ h) : (intervalWidth l h : ℚ) = (h : ℚ) - l + 1 := by
  rw [intervalWidth, Nat.cast_succ, Nat.cast_sub hlh]

theorem project_fst (n sl sh l h : Nat) : (project n sl sh l h).1 = l + ceilDiv (sl * intervalWidth l h) n := rfl

theorem project_snd_add_one (hn : 0 < n) (sl sh l h : Nat) :
    (project n sl sh l h).2 + 1 = l + ceilDiv ((sh + 1) * intervalWidth l h) n := by
  have hpos := ceilDiv_pos hn (Nat.mul_pos (Nat.add_one_pos sh) (intervalWidth_pos l h))
  rw [project]
  omega

/-- Settles O25: both ends are ceilings by `N` of multiples of the interval's width. -/
theorem projectScalesTheSegment : Obligations.ProjectScalesTheSegment := by
  intro n sl sh l h hn _ _ hlh _
  have hsnd := project_snd_add_one hn sl sh l h
  refine ⟨?_, ?_, fun w hw => ?_⟩
  · rw [project_fst, Nat.cast_add, cast_ceilDiv hn, Nat.cast_mul, cast_intervalWidth hlh]
  · rw [eq_sub_iff_add_eq, ← Nat.cast_succ, Nat.succ_eq_add_one, hsnd, Nat.cast_add, cast_ceilDiv hn, Nat.cast_mul,
      Nat.cast_succ, cast_intervalWidth hlh]
  · subst hw
    rw [project_fst, hsnd, ceilDiv_two_pow, ceilDiv_two_pow, intervalWidth]
    exact ⟨rfl, rfl⟩

/-! ### How projections tile the interval (41_interval_narrowing.md R131) -/

/-- The piece of the segment just above starts one past this piece's end. -/
theorem project_fst_succ (hn : 0 < n) (sl sh sh' l h : Nat) :
    (project n (sh + 1) sh' l h).1 = (project n sl sh l h).2 + 1 := by
  rw [project_snd_add_one hn, project_fst]

theorem le_project_fst (n sl sh l h : Nat) : l ≤ (project n sl sh l h).1 := Nat.le_add_right _ _

theorem project_fst_le_snd_add_one (hn : 0 < n) (hs : sl ≤ sh) :
    (project n sl sh l h).1 ≤ (project n sl sh l h).2 + 1 := by
  rw [project_snd_add_one hn, project_fst]
  exact Nat.add_le_add_left (ceilDiv_le_ceilDiv (Nat.mul_le_mul_right _ (Nat.le_succ_of_le hs)) n) l

/-- A segment at least `N / R` wide has a piece: the two multiples of `R` lie at least `N` apart. -/
theorem project_fst_le_snd (hn : 0 < n) (hs : sl ≤ sh) (hwide : n ≤ (sh - sl + 1) * intervalWidth l h) :
    (project n sl sh l h).1 ≤ (project n sl sh l h).2 := by
  have hsplit : (sh + 1) * intervalWidth l h = sl * intervalWidth l h + (sh - sl + 1) * intervalWidth l h := by
    rw [← Nat.add_mul]
    congr 1
    omega
  have hle : sl * intervalWidth l h + n ≤ (sh + 1) * intervalWidth l h := hsplit ▸ Nat.add_le_add_left hwide _
  have hceil := ceilDiv_le_ceilDiv hle n
  rw [ceilDiv_add_self hn] at hceil
  rw [← Nat.add_le_add_iff_right (n := 1), project_snd_add_one hn, project_fst, Nat.add_assoc]
  exact Nat.add_le_add_left hceil l

theorem project_fst_of_zero (hn : 0 < n) (sh l h : Nat) : (project n 0 sh l h).1 = l := by
  rw [project_fst, Nat.zero_mul, ceilDiv_zero_left hn, Nat.add_zero]

theorem project_snd_of_last (hn : 0 < n) (sl : Nat) (hlh : l ≤ h) : (project n sl (n - 1) l h).2 = h := by
  have hsnd := project_snd_add_one hn sl (n - 1) l h
  rw [Nat.sub_add_cancel hn, ceilDiv_mul_self hn, intervalWidth] at hsnd
  omega

/-- Settles O26: consecutive pieces share the ceiling at their common cut, and the ceilings grow with the cut from 0 to
the interval's width. -/
theorem projectionsPartitionTheInterval : Obligations.ProjectionsPartitionTheInterval := by
  intro n sl sh l h hs hsh hlh _
  have hn : 0 < n := Nat.zero_lt_of_lt hsh
  exact ⟨le_project_fst n sl sh l h, project_snd_le hsh hlh, project_fst_le_snd_add_one hn hs, project_fst_le_snd hn hs,
    Prod.ext (project_fst_of_zero hn _ l h) (project_snd_of_last hn 0 hlh), project_fst_of_zero hn sh l h,
    project_snd_of_last hn sl hlh, fun sh' _ _ => project_fst_succ hn sl sh sh' l h⟩

/-! ### The position (41_interval_narrowing.md R133) -/

theorem position_lt (hn : 0 < n) (hlv : l ≤ v) (hvh : v ≤ h) : position n v l h < n := by
  have hd : v - l < intervalWidth l h := by
    rw [intervalWidth]
    omega
  rw [position, Nat.div_lt_iff_lt_mul (intervalWidth_pos l h), Nat.mul_comm n]
  exact Nat.mul_lt_mul_of_pos_right hd hn

theorem cast_position (hlv : l ≤ v) (hvh : v ≤ h) :
    (position n v l h : ℤ) = ⌊(((v : ℚ) - l) * n) / ((h : ℚ) - l + 1)⌋ := by
  rw [← Nat.cast_sub hlv, ← Nat.cast_mul, ← cast_intervalWidth (hlv.trans hvh), Rat.floor_natCast_div_natCast]
  rfl

/-- Settles O27: each end of the projection and of the segment bounds the value and its position alike. -/
theorem positionInvertsTheProjection : Obligations.PositionInvertsTheProjection := by
  intro n v l h hn hlv hvh _
  exact ⟨cast_position hlv hvh, position_lt hn hlv hvh, fun sl sh _ _ =>
    and_congr (project_fst_le_iff hn hlv) (le_project_snd_iff hn hlv)⟩

/-! ### The segment that holds a position (41_interval_narrowing.md R134, R135) -/

theorem le_lo_of_coversFrom {start : Nat} {table : List Segment} (hc : coversFrom n start table = true) :
    ∀ e ∈ table, start ≤ e.lo.toNat := by
  induction table generalizing start with
  | nil => exact fun _ he => absurd he List.not_mem_nil
  | cons e rest ih =>
    simp only [coversFrom, Bool.and_eq_true, beq_iff_eq, decide_eq_true_eq] at hc
    obtain ⟨⟨hlo, hle⟩, hrest⟩ := hc
    refine List.forall_mem_cons.2 ⟨hlo.ge, fun d hd => ?_⟩
    have hnext := ih hrest d hd
    omega

/-- Where segments cover a range, each of its positions lies in exactly one of them: in the first, or past its end in
one of the rest. -/
theorem existsUnique_of_coversFrom {ι : Type} (f : ι → Segment) {syms : List ι} {start pos : Nat}
    (hc : coversFrom n start (syms.map f) = true) (hstart : start ≤ pos) (hpos : pos < n) :
    ∃! sym, sym ∈ syms ∧ (f sym).lo.toNat ≤ pos ∧ pos ≤ (f sym).hi.toNat := by
  induction syms generalizing start with
  | nil => exact absurd (beq_iff_eq.1 hc) (by omega)
  | cons x rest ih =>
    simp only [List.map_cons, coversFrom, Bool.and_eq_true, beq_iff_eq, decide_eq_true_eq] at hc
    obtain ⟨⟨hlo, -⟩, hrest⟩ := hc
    rcases Nat.lt_or_ge (f x).hi.toNat pos with hpast | hin
    · obtain ⟨sym, ⟨hmem, hholds⟩, huniq⟩ := ih hrest hpast
      refine ⟨sym, ⟨List.mem_cons_of_mem x hmem, hholds⟩, fun o ⟨ho, hob⟩ => ?_⟩
      obtain rfl | ho := List.mem_cons.1 ho
      · exact absurd hob.2 (Nat.not_le_of_lt hpast)
      · exact huniq o ⟨ho, hob⟩
    · refine ⟨x, ⟨List.mem_cons_self, hlo.trans_le hstart, hin⟩, fun o ⟨ho, hob⟩ => ?_⟩
      obtain rfl | ho := List.mem_cons.1 ho
      · rfl
      · have hnext := le_lo_of_coversFrom hrest (f o) (List.mem_map_of_mem ho)
        omega

variable {s : State} {pos : Nat}

/-- Under `TableOK` exactly one present symbol's segment holds a position in range. -/
theorem existsUnique_segment_of_tableOk (ht : tableOk s = true) (hpos : pos < rangeSize s) :
    ∃! sym, (segmentOf s sym).valid = true ∧ (segmentOf s sym).lo.toNat ≤ pos ∧ pos ≤ (segmentOf s sym).hi.toNat := by
  simp only [tableOk, Bool.and_eq_true] at ht
  simpa [presentSymbols, mem_symbolCodes] using existsUnique_of_coversFrom (segmentOf s) ht.2 (Nat.zero_le pos) hpos

/-- The lookup answers a symbol when some present symbol's segment holds the position. -/
theorem segmentAt_isSome {sym : Symbol} (hv : (segmentOf s sym).valid = true) (hlo : (segmentOf s sym).lo.toNat ≤ pos)
    (hhi : pos ≤ (segmentOf s sym).hi.toNat) : (segmentAt s pos).isSome = true :=
  List.find?_isSome.2 ⟨sym, mem_symbolCodes sym, by simp [Segment.holds, hv, hlo, hhi]⟩

/-- Settles O28: the lookup answers a symbol that holds the position, and the table has only one. -/
theorem segmentAtFindsTheOneSegment : Obligations.SegmentAtFindsTheOneSegment := by
  intro s pos ht hpos
  obtain ⟨sym, ⟨hv, hlo, hhi⟩, huniq⟩ := existsUnique_segment_of_tableOk ht hpos
  obtain ⟨found, hfound⟩ := Option.isSome_iff_exists.1 (segmentAt_isSome hv hlo hhi)
  obtain rfl := huniq found (holds_of_segmentAt hfound)
  exact ⟨found, hfound, hv, hlo, hhi, fun o hov hol hoh => huniq o ⟨hov, hol, hoh⟩⟩

/-- Settles O29: the found symbol's segment holds the position, and the position inverts the projection. -/
theorem lookaheadLiesInItsSymbolsProjection : Obligations.LookaheadLiesInItsSymbolsProjection :=
  fun _ _ _ hlv _ _ hfound => lookahead_in_projectSymbol hlv hfound

end Sys2Proof.Machine
end

section
/-! PROOFS. Underflow renormalization: the shared leading run, the strip bit by bit, and `Renorm` as its rule states it
(42_underflow_renormalization.md R140 to R151). -/

namespace Sys2Proof.Machine

open Claims

variable {w l h x : Nat}

/-! ### The shared leading run (42_underflow_renormalization.md R141) -/

theorem sharedRun_succ_of_eq (hb : l.testBit w = h.testBit w) : sharedRun (w + 1) l h = sharedRun w l h + 1 :=
  if_pos hb

theorem sharedRun_succ_of_ne (hb : l.testBit w ≠ h.testBit w) : sharedRun (w + 1) l h = 0 := if_neg hb

/-- The two ends agree on every bit above the one that stops the run. -/
theorem testBit_eq_of_ge_sharedRun {i : Nat} (hi : i < w) (hrun : w ≤ i + sharedRun w l h) :
    l.testBit i = h.testBit i := by
  induction w with
  | zero => exact absurd hi (Nat.not_lt_zero i)
  | succ w ih =>
    by_cases hb : l.testBit w = h.testBit w
    · rw [sharedRun_succ_of_eq hb] at hrun
      rcases Nat.lt_succ_iff_lt_or_eq.1 hi with hlt | rfl
      · exact ih hlt (by omega)
      · exact hb
    · rw [sharedRun_succ_of_ne hb] at hrun
      omega

/-- A run shorter than the width stops at a bit that differs. -/
theorem testBit_ne_of_sharedRun_lt (hrun : sharedRun w l h < w) :
    l.testBit (w - 1 - sharedRun w l h) ≠ h.testBit (w - 1 - sharedRun w l h) := by
  induction w with
  | zero => exact absurd hrun (Nat.not_lt_zero _)
  | succ w ih =>
    by_cases hb : l.testBit w = h.testBit w
    · rw [sharedRun_succ_of_eq hb] at hrun ⊢
      rw [show w + 1 - 1 - (sharedRun w l h + 1) = w - 1 - sharedRun w l h by omega]
      exact ih (Nat.lt_of_succ_lt_succ hrun)
    · rwa [sharedRun_succ_of_ne hb]

theorem sharedRun_self (w l : Nat) : sharedRun w l l = w :=
  (sharedRun_le w l l).antisymm (Nat.not_lt.1 fun hrun => testBit_ne_of_sharedRun_lt hrun rfl)

theorem testBit_eq_of_ge_width {i : Nat} (hl : l < 2 ^ w) (hh : h < 2 ^ w) (hi : w ≤ i) :
    l.testBit i = h.testBit i := by
  have hpow : 2 ^ w ≤ 2 ^ i := Nat.pow_le_pow_right Nat.two_pos hi
  rw [Nat.testBit_lt_two_pow (hl.trans_le hpow), Nat.testBit_lt_two_pow (hh.trans_le hpow)]

/-- Every bit above the first difference is shared: inside the width by the run, past it because both ends are 0. -/
theorem testBit_eq_of_gt_first_difference {j : Nat} (hl : l < 2 ^ w) (hh : h < 2 ^ w)
    (hj : w - 1 - sharedRun w l h < j) : l.testBit j = h.testBit j := by
  rcases Nat.lt_or_ge j w with hlt | hge
  · exact testBit_eq_of_ge_sharedRun hlt (by omega)
  · exact testBit_eq_of_ge_width hl hh hge

theorem sharedRun_eq_width_iff (hl : l < 2 ^ w) (hh : h < 2 ^ w) : sharedRun w l h = w ↔ l = h := by
  refine ⟨fun hrun => Nat.eq_of_testBit_eq fun i => ?_, fun heq => heq ▸ sharedRun_self w l⟩
  rcases Nat.lt_or_ge i w with hlt | hge
  · exact testBit_eq_of_ge_sharedRun hlt (by omega)
  · exact testBit_eq_of_ge_width hl hh hge

/-- The first difference orders the ends: the smaller has 0 there and the larger 1. -/
theorem testBit_first_difference (hlh : l ≤ h) (hh : h < 2 ^ w) (hrun : sharedRun w l h < w) :
    l.testBit (w - 1 - sharedRun w l h) = false ∧ h.testBit (w - 1 - sharedRun w l h) = true := by
  have hne := testBit_ne_of_sharedRun_lt hrun
  have hlow : l.testBit (w - 1 - sharedRun w l h) = false := by
    by_contra hl
    rw [Bool.not_eq_false] at hl
    refine absurd hlh (Nat.not_le_of_lt (Nat.lt_of_testBit _ ?_ hl fun j hj => ?_))
    · exact Bool.eq_false_iff.2 fun hhigh => hne (hl.trans hhigh.symm)
    · exact (testBit_eq_of_gt_first_difference (hlh.trans_lt hh) hh hj).symm
  exact ⟨hlow, by simpa [hlow] using hne.symm⟩

/-- Settles O30: the run by induction on the width, the order of the ends by the first bit that differs. -/
theorem sharedRunIsTheLongestCommonRun : Obligations.SharedRunIsTheLongestCommonRun := by
  intro w l h
  have hle := sharedRun_le w l h
  exact ⟨hle, fun j hj => testBit_eq_of_ge_sharedRun (w := w) (by omega) (by omega), testBit_ne_of_sharedRun_lt,
    fun hlh hh => ⟨sharedRun_eq_width_iff (hlh.trans_lt hh) hh, testBit_first_difference hlh hh⟩⟩

/-! ### The strip (42_underflow_renormalization.md R147, R151) -/

/-- The leading bit, and below it the low `W-2` bits with the fill behind them. -/
theorem strip_eq (w x : Nat) (f : Bool) :
    strip w x f = 2 ^ (w - 1) * (x.testBit (w - 1)).toNat + Nat.bit f (x % 2 ^ (w - 2)) := by
  rw [strip, Nat.toNat_testBit, Nat.bit_val, Nat.mul_comm (2 ^ (w - 1)), Nat.mul_comm 2, Nat.add_assoc]

/-- A `W`-bit value by its two leading bits and the rest. -/
theorem eq_two_leading_bits_add (hw : 2 ≤ w) (hx : x < 2 ^ w) :
    x = (x.testBit (w - 1)).toNat * 2 ^ (w - 1) + (x.testBit (w - 2)).toNat * 2 ^ (w - 2) + x % 2 ^ (w - 2) := by
  obtain ⟨v, rfl⟩ := Nat.exists_eq_add_of_le' hw
  have hsplit := Nat.mod_eq_of_lt hx
  rw [Nat.mod_pow_succ, Nat.mod_pow_succ, ← Nat.toNat_testBit, ← Nat.toNat_testBit] at hsplit
  simp only [Nat.add_sub_cancel, Nat.add_one_sub_one]
  linarith

theorem testBit_strip (hw : 2 ≤ w) (x : Nat) (f : Bool) (i : Nat) :
    (strip w x f).testBit i =
      if i < w - 1 then (Nat.bit f (x % 2 ^ (w - 2))).testBit i
      else (x.testBit (w - 1)).toNat.testBit (i - (w - 1)) := by
  have hlow : Nat.bit f (x % 2 ^ (w - 2)) < 2 ^ (w - 1) := by
    rw [show w - 1 = w - 2 + 1 by omega, Nat.bit_lt_two_pow_succ_iff]
    exact Nat.mod_lt _ (Nat.two_pow_pos _)
  rw [strip_eq, Nat.testBit_two_pow_mul_add _ hlow]

theorem testBit_strip_leading (hw : 2 ≤ w) (x : Nat) (f : Bool) :
    (strip w x f).testBit (w - 1) = x.testBit (w - 1) := by
  rw [testBit_strip hw, if_neg (Nat.lt_irrefl _), Nat.sub_self]
  cases x.testBit (w - 1) <;> rfl

theorem testBit_strip_zero (hw : 2 ≤ w) (x : Nat) (f : Bool) : (strip w x f).testBit 0 = f := by
  rw [testBit_strip hw, if_pos (by omega), Nat.testBit_bit_zero]

theorem testBit_strip_succ {i : Nat} (hw : 2 ≤ w) (hi : i + 1 < w - 1) (x : Nat) (f : Bool) :
    (strip w x f).testBit (i + 1) = x.testBit i := by
  rw [testBit_strip hw, if_pos hi, Nat.testBit_bit_succ, Nat.testBit_mod_two_pow, decide_eq_true (by omega),
    Bool.true_and]

theorem strip_add_dropped (hw : 2 ≤ w) (hx : x < 2 ^ w) (f : Bool) :
    strip w x f + ((x.testBit (w - 1)).toNat + (x.testBit (w - 2)).toNat) * 2 ^ (w - 1) = 2 * x + f.toNat := by
  have hsplit := eq_two_leading_bits_add hw hx
  have hpow : 2 ^ (w - 1) = 2 * 2 ^ (w - 2) := by rw [← pow_succ', show w - 1 = w - 2 + 1 by omega]
  rw [strip_eq, Nat.bit_val]
  rw [hpow] at hsplit ⊢
  linarith

/-- Settles O31: the leading bit and the low bits behind the fill are the strip's two parts. -/
theorem stripDropsTheSecondBit : Obligations.StripDropsTheSecondBit := by
  intro w x f hw hx
  refine ⟨strip_lt hw x f, testBit_strip_leading hw x f, testBit_strip_zero hw x f, fun i hi hiw => ?_,
    strip_add_dropped hw hx f⟩
  obtain ⟨j, rfl⟩ := Nat.exists_eq_add_of_le' hi
  exact testBit_strip_succ hw hiw x f

/-! ### The parts of `Renorm` (42_underflow_renormalization.md R142 to R148) -/

theorem leadingBits_eq_map (w x k : Nat) : leadingBits w x k = (List.range k).map fun j => x.testBit (w - 1 - j) := by
  induction k generalizing w with
  | zero => rfl
  | succ k ih =>
    rw [leadingBits, ih, List.range_succ_eq_map, List.map_cons, List.map_map]
    simp [Function.comp_def, Nat.sub_sub, Nat.add_comm, Nat.add_left_comm]

theorem stuff_leadingBits_succ (te w x k : Nat) :
    stuff te (leadingBits w x (k + 1)) = x.testBit (w - 1) :: (List.replicate te (!x.testBit (w - 1)) ++
      (List.range k).map fun j => x.testBit (w - 2 - j)) := by
  rw [leadingBits, stuff, leadingBits_eq_map]
  rfl

theorem straddles_eq_card (w l h : Nat) :
    straddles w l h = ((Finset.range (w - 1)).filter fun i => l.testBit i = true ∧ h.testBit i = false).card := by
  simp [straddles, List.countP_eq_length_filter, Finset.card, Finset.filter, Finset.range, Multiset.range]

theorem stripTimes_eq_iterate (w : Nat) (f : Bool) (c x : Nat) :
    stripTimes w f c x = (fun y => strip w y f)^[c] x := by
  induction c generalizing x with
  | zero => rfl
  | succ c ih => rw [stripTimes, ih, Function.iterate_succ_apply]

theorem length_stuff_leadingBits (te w x k : Nat) :
    (stuff te (leadingBits w x k)).length = if 0 < k then k + te else 0 := by
  cases k with
  | zero => rfl
  | succ k =>
    rw [stuff_leadingBits_succ, if_pos k.succ_pos]
    simp only [List.length_cons, List.length_append, List.length_replicate, List.length_map, List.length_range]
    omega

/-! ### `Renorm` (42_underflow_renormalization.md R148 to R150) -/

variable {l1 h1 : Nat}

/-- With no shared bit the interval is only stripped, and the counters grow. -/
theorem renorm_of_sharedRun_eq_zero (hk : sharedRun w l1 h1 = 0) (te since : Nat) :
    renorm w l1 h1 te since =
      { l := stripTimes w false (straddles w l1 h1) l1
        h := stripTimes w true (straddles w l1 h1) h1
        te := te + straddles w l1 h1
        since := since + 1
        out := []
        k := 0
        c := straddles w l1 h1 } := by
  simp only [renorm, hk, if_true]
  rfl

/-- With shared bits the shifted interval is stripped, the counters start again and the run is emitted. -/
theorem renorm_of_sharedRun_pos (hk : 0 < sharedRun w l1 h1) (te since : Nat) :
    renorm w l1 h1 te since =
      let l2 := shiftLow w (sharedRun w l1 h1) l1
      let h2 := shiftHigh w (sharedRun w l1 h1) h1
      { l := stripTimes w false (straddles w l2 h2) l2
        h := stripTimes w true (straddles w l2 h2) h2
        te := straddles w l2 h2
        since := 0
        out := stuff te (leadingBits w l1 (sharedRun w l1 h1))
        k := sharedRun w l1 h1
        c := straddles w l2 h2 } := by
  simp only [renorm, if_neg hk.ne']

/-- Settles O32: the two branches of `Renorm`, each in the rule's own shifts, count and iterated strips. -/
theorem renormFollowsItsRule : Obligations.RenormFollowsItsRule := by
  intro w l1 h1 te since _ _ _
  simp only [← straddles_eq_card, ← stripTimes_eq_iterate, Nat.shiftLeft_eq]
  rcases Nat.eq_zero_or_pos (sharedRun w l1 h1) with hk | hk
  · simp [renorm_of_sharedRun_eq_zero hk, hk, straddles_le]
  · obtain ⟨k, hk'⟩ := Nat.exists_eq_add_of_le' hk
    simp [renorm_of_sharedRun_pos hk, hk', stuff_leadingBits_succ, straddles_le, shiftLow, shiftHigh]

theorem length_renorm_out (w l1 h1 te since : Nat) :
    (renorm w l1 h1 te since).out.length =
      if 0 < (renorm w l1 h1 te since).k then (renorm w l1 h1 te since).k + te else 0 :=
  length_stuff_leadingBits te w l1 _

/-- Settles O33: the shift puts the ends on the two sides of the midpoint, and a strip keeps each on its side. -/
theorem renormRestoresTheMidpoint : Obligations.RenormRestoresTheMidpoint := by
  intro w l1 h1 te since hw hlh hh
  obtain ⟨hlow, hmid, hhigh⟩ := renorm_straddles_midpoint (te := te) (since := since) hw hlh hh
  obtain ⟨-, -, -, hte, -⟩ := renorm_counters w l1 h1 te since
  exact ⟨hlow, hmid, hhigh, length_renorm_out w l1 h1 te since, hte⟩

end Sys2Proof.Machine
end

section
/-! PROOFS. The encoder commands: opening a session, encoding a symbol, and the terminator (43_encoder.md R161 to
R166). -/

namespace Sys2Proof.Machine

open Claims

variable {s : State} {sym : Symbol}

/-- Settles O34: `ENCSTART` makes one check of its own, and `N - 1` fits `H` in a legal window. -/
theorem encstartOpensASession : Obligations.EncstartOpensASession := by
  refine ⟨by decide, onlyIn_of_requiredPhase rfl rfl, fun s hp => ?_⟩
  have hq : requiredPhase .encstart = some s.phase := congrArg some hp.symm
  refine ⟨fun ht => exec_error rfl hq (if_neg (Bool.eq_false_iff.1 ht)), fun ht hw => ?_⟩
  have hpos := rangeSize_pos s
  have hmax := rangeSize_le hw
  exact ⟨_, exec_ok rfl hq (if_pos ht), rfl, toNat_ofNat_of_lt (by omega), rfl, rfl, rfl, rfl, rfl, rfl⟩

/-! ### `ENCSYM`, check by check (43_encoder.md R162) -/

theorem fits_eq_false_iff (n : Nat) : fits s n = false ↔ Config.bufBits < s.bitlen.toNat + n := by simp [fits]

section

variable (hv : (segmentOf s sym).valid = true)
include hv

theorem encsymOwn_full (hn : s.nsym.toNat = 65535) : encsymOwn sym s = .error .capacityCount := by
  rw [encsymOwn, if_neg (ne_false_of_eq_true hv), if_pos hn]

theorem encsymOwn_collapse (hn : s.nsym.toNat < 65535) (hlt : (projectSymbol s sym).2 < (projectSymbol s sym).1) :
    encsymOwn sym s = .error .precisionCollapse := by
  rw [encsymOwn, if_neg (ne_false_of_eq_true hv), if_neg hn.ne, if_pos hlt]

theorem encsymOwn_no_room (hn : s.nsym.toNat < 65535) (hle : (projectSymbol s sym).1 ≤ (projectSymbol s sym).2)
    (hroom : Config.bufBits < s.bitlen.toNat + (renormSymbol s sym).out.length) :
    encsymOwn sym s = .error .capacityBuffer := by
  rw [encsymOwn, if_neg (ne_false_of_eq_true hv), if_neg hn.ne, if_neg hle.not_gt,
    if_pos ((fits_eq_false_iff _).2 hroom)]

theorem encsymOwn_ok (hn : s.nsym.toNat < 65535) (hle : (projectSymbol s sym).1 ≤ (projectSymbol s sym).2)
    (hfit : s.bitlen.toNat + (renormSymbol s sym).out.length ≤ Config.bufBits) :
    encsymOwn sym s = .ok (codeSymbol (renormSymbol s sym) (appendBits (renormSymbol s sym).out s)) := by
  rw [encsymOwn, if_neg (ne_false_of_eq_true hv), if_neg hn.ne, if_neg hle.not_gt,
    if_neg (ne_false_of_eq_true ((fits_iff _).2 hfit))]

end

/-- Settles O35: the checks in their order; in a legal session no register of the commit wraps, and the emitted bits are
one `Append`. -/
theorem encsymEncodesOneSymbol : Obligations.EncsymEncodesOneSymbol := by
  intro sym
  refine ⟨by simp [encode_toNat, opcodeOf, symOf, immOf], onlyIn_of_requiredPhase rfl rfl, fun s hp => ?_⟩
  have hq : requiredPhase (.encsym sym) = some s.phase := congrArg some hp.symm
  refine ⟨exec_encsym_absent hp, fun hv hn => exec_error rfl hq (encsymOwn_full hv hn),
    fun hv hn hlt => exec_error rfl hq (encsymOwn_collapse hv hn hlt),
    fun hv hn hle hroom => exec_error rfl hq (encsymOwn_no_room hv hn hle hroom),
    fun hv hn hle hfit hw hm hs => ?_⟩
  obtain ⟨-, -, hbuf⟩ := hm
  have hcoding : CodingLegal s := sessionLegal_iff.1 hs (by rw [hp]; decide)
  obtain ⟨hl, hh, hte, hsince, hnsym⟩ := codeSymbol_toNat hw hcoding hv hn hle
  exact ⟨_, exec_ok rfl hq (encsymOwn_ok hv hn hle hfit), hl, hh, hte, hsince, hnsym, bitlen_appendBits hfit,
    fun _ hj => cell_appendBits_inside hbuf hj, fun _ => cell_appendBits_outside, rfl⟩

/-! ### The terminator (43_encoder.md R165, R166) -/

theorem length_terminator (s : State) : (terminator s).length = 1 + s.since.toNat := by
  rw [terminator, List.length_cons, List.length_replicate, Nat.add_comm]

theorem bitlen_add_length_terminator (s : State) :
    s.bitlen.toNat + (terminator s).length = s.bitlen.toNat + 1 + s.since.toNat := by
  rw [length_terminator, Nat.add_assoc]

theorem encflushOwn_no_room (hn : 0 < s.nsym.toNat) (hroom : Config.bufBits < s.bitlen.toNat + (terminator s).length) :
    encflushOwn s = .error .capacityBuffer := by
  rw [encflushOwn, if_neg hn.ne', if_pos ((fits_eq_false_iff _).2 hroom)]

theorem encflushOwn_ok (hn : 0 < s.nsym.toNat) (hfit : s.bitlen.toNat + (terminator s).length ≤ Config.bufBits) :
    encflushOwn s = .ok (setPhase .idle (appendBits (terminator s) s)) := by
  rw [encflushOwn, if_neg hn.ne', if_neg (ne_false_of_eq_true ((fits_iff _).2 hfit))]

/-- Where the terminator is appended there is a 1 and then `SINCE` zeros (43_encoder.md R166). -/
theorem cell_appendBits_terminator (hbuf : Memory.wf Config.bufBits false s.buf) :
    cell (appendBits (terminator s) s) s.bitlen.toNat = true ∧
    ∀ j, 1 ≤ j → j ≤ s.since.toNat → cell (appendBits (terminator s) s) (s.bitlen.toNat + j) = false := by
  have hlen := length_terminator s
  refine ⟨cell_appendBits_inside (j := 0) hbuf (by omega), fun j hj hle => ?_⟩
  obtain ⟨k, rfl⟩ := Nat.exists_eq_add_of_le' hj
  rw [cell_appendBits_inside hbuf (by omega)]
  simp only [terminator, List.getElem_cons_succ, List.getElem_replicate]

/-- Settles O36: the two checks in their order, and the terminator as one `Append`. -/
theorem encflushEmitsTheTerminator : Obligations.EncflushEmitsTheTerminator := by
  refine ⟨by decide, onlyIn_of_requiredPhase rfl rfl, fun s hp => ?_⟩
  have hq : requiredPhase .encflush = some s.phase := congrArg some hp.symm
  simp only [← bitlen_add_length_terminator]
  refine ⟨fun hn => exec_error rfl hq (if_pos hn),
    fun hn hroom => exec_error rfl hq (encflushOwn_no_room hn hroom), fun hn hfit ⟨_, _, hbuf⟩ => ?_⟩
  obtain ⟨hone, hzeros⟩ := cell_appendBits_terminator hbuf
  exact ⟨_, exec_ok rfl hq (encflushOwn_ok hn hfit), rfl, bitlen_appendBits hfit, hone, hzeros,
    fun _ => cell_appendBits_outside, rfl⟩

end Sys2Proof.Machine
end

section
/-! PROOFS. What an encoding session emits depends on `W`, the table and the symbols alone (43_encoder.md R160,
R169). -/

namespace Sys2Proof.Machine

variable {i : Instr} {is : List Instr} {s s' t : State}

/-! ### Two encoders with the same window, table, coding registers and stream -/

/-- The states record no error and agree on everything an encoding session reads: `W`, the table, the phase, the coding
registers and the stream. -/
structure SameEncoder (s s' : State) : Prop where
  noError : s.err = 0#4
  noError' : s'.err = 0#4
  w : s'.w = s.w
  phase : s'.phase = s.phase
  seg : s'.seg = s.seg
  l : s'.l = s.l
  h : s'.h = s.h
  te : s'.te = s.te
  since : s'.since = s.since
  nsym : s'.nsym = s.nsym
  bitlen : s'.bitlen = s.bitlen
  bitAt : bitAt s' = bitAt s
  canonical : Memory.wf Config.bufBits false s.buf
  canonical' : Memory.wf Config.bufBits false s'.buf

/-- `ENCSTART` loads everything the session reads but `W` and the table (43_encoder.md R161). -/
theorem sameEncoder_encstart (he : s.err = 0#4) (he' : s'.err = 0#4) (hw : s'.w = s.w) (hseg : s'.seg = s.seg)
    (hm : Memory.wf Config.bufBits false s.buf) (hm' : Memory.wf Config.bufBits false s'.buf) :
    SameEncoder (setPhase .enc (emptyBuffer (startCoding s))) (setPhase .enc (emptyBuffer (startCoding s'))) where
  noError := he
  noError' := he'
  w := hw
  phase := rfl
  seg := hseg
  l := rfl
  h := by simp [rangeSize_congr hw]
  te := rfl
  since := rfl
  nsym := rfl
  bitlen := rfl
  bitAt := funext fun _ => (bitAt_of_ge (Nat.zero_le _)).trans (bitAt_of_ge (Nat.zero_le _)).symm
  canonical := hm
  canonical' := hm'

theorem answers_encstartOwn (he : s.err = 0#4) (he' : s'.err = 0#4) (hw : s'.w = s.w) (hseg : s'.seg = s.seg)
    (hm : Memory.wf Config.bufBits false s.buf) (hm' : Memory.wf Config.bufBits false s'.buf) :
    Answers SameEncoder (encstartOwn s) (encstartOwn s') :=
  .ite (by rw [tableOk_congr hseg hw]) (fun _ => .ok (sameEncoder_encstart he he' hw hseg hm hm')) fun _ => .error _

namespace SameEncoder

variable (h : SameEncoder s s')
include h

theorem fits (n : Nat) : fits s' n = fits s n := by rw [Machine.fits, Machine.fits, h.bitlen]

theorem terminator : terminator s' = terminator s := by rw [Machine.terminator, Machine.terminator, h.since]

theorem projectSymbol (sym : Symbol) : projectSymbol s' sym = projectSymbol s sym := by
  rw [Machine.projectSymbol, Machine.projectSymbol, rangeSize_congr h.w, segmentOf_congr h.seg, h.l, h.h]

theorem renormSymbol (sym : Symbol) : renormSymbol s' sym = renormSymbol s sym := by
  rw [Machine.renormSymbol, Machine.renormSymbol, h.w, h.projectSymbol, h.te, h.since]

theorem setPhase (p : Phase) : SameEncoder (setPhase p s) (setPhase p s') := { h with phase := rfl }

theorem codeSymbol (r : Renormed) : SameEncoder (codeSymbol r s) (codeSymbol r s') :=
  { h with l := rfl, h := rfl, te := rfl, since := rfl, nsym := congrArg (· + 1#16) h.nsym }

theorem appendBits {bits : BitString} (hfit : s.bitlen.toNat + bits.length ≤ Config.bufBits) :
    SameEncoder (appendBits bits s) (appendBits bits s') :=
  have hfit' : s'.bitlen.toNat + bits.length ≤ Config.bufBits := by rwa [h.bitlen]
  { h with
    bitlen := by rw [appendBits_bitlen, appendBits_bitlen, h.bitlen]
    bitAt := by
      funext a
      rw [bitAt_appendBits h.canonical hfit, bitAt_appendBits h.canonical' hfit', h.bitlen, h.bitAt]
    canonical := wf_appendBits h.canonical hfit
    canonical' := wf_appendBits h.canonical' hfit' }

theorem encsymOwn (sym : Symbol) : Answers SameEncoder (encsymOwn sym s) (encsymOwn sym s') := by
  refine .ite (by rw [segmentOf_congr h.seg]) (fun _ => .error _) fun _ =>
    .ite (by rw [h.nsym]) (fun _ => .error _) fun _ =>
    .ite (by rw [h.projectSymbol]) (fun _ => .error _) fun _ =>
    .ite (by rw [h.renormSymbol, h.fits]) (fun _ => .error _) fun hfit => .ok ?_
  rw [Bool.not_eq_false, fits_iff] at hfit
  rw [h.renormSymbol]
  exact (h.appendBits hfit).codeSymbol _

theorem encflushOwn : Answers SameEncoder (encflushOwn s) (encflushOwn s') := by
  refine .ite (by rw [h.nsym]) (fun _ => .error _) fun _ =>
    .ite (by rw [h.terminator, h.fits]) (fun _ => .error _) fun hfit => .ok ?_
  rw [Bool.not_eq_false, fits_iff] at hfit
  rw [h.terminator]
  exact (h.appendBits hfit).setPhase _

end SameEncoder

/-! ### Two runs of the same commands -/

/-- How two runs of an encoding session stand: still the same encoder, or stopped by the same error. -/
inductive EncodeAlike (s s' : State) : Prop
  | running (h : SameEncoder s s')
  | stopped (herr : s.err ≠ 0#4) (err : s'.err = s.err) (sub : s'.sub = s.sub)

/-- The commands of a session after `ENCSTART` (43_encoder.md R160). -/
def EncodesOrFlushes (i : Instr) : Prop := (∃ sym, i = .encsym sym) ∨ i = .encflush

/-- A command whose own parts answer alike is accepted alike. -/
theorem issue_of_answers (hr : operandInRange i = true) (he : s.err = 0#4) (he' : s'.err = 0#4)
    (hp : s'.phase = s.phase) (h : Answers SameEncoder (ownPart i s) (ownPart i s')) :
    ∃ t t', issue (encode i) s = .next t ∧ issue (encode i) s' = .next t' ∧ EncodeAlike t t' := by
  rw [issue_encode hr he, issue_encode hr he', exec_eq_perform, exec_eq_perform]
  obtain ⟨e, hs, hs'⟩ | ⟨t, t', hs, hs', ht⟩ := h.perform hp i
  · exact ⟨_, _, hs, hs', .stopped (errBits_ne_zero e) rfl rfl⟩
  · exact ⟨t, t', hs, hs', .running ht⟩

/-- With an error recorded, the words of these commands are ignored (60_exceptions.md R233). -/
theorem issue_ignored (hi : EncodesOrFlushes i) (he : s.err ≠ 0#4) : issue (encode i) s = .next s := by
  have hopc : opcodeOf i = 0x41#8 ∨ opcodeOf i = 0x42#8 := by
    obtain ⟨sym, rfl⟩ | rfl := hi
    · exact .inl rfl
    · exact .inr rfl
  have hne {w : Word} (hw : ¬ (opcField w = 0x41#8 ∨ opcField w = 0x42#8)) : encode i ≠ w := fun h =>
    hw ((encode_eq_iff.1 h).1 ▸ hopc)
  have hreset : encode i ≠ 0x01000000#32 := hne (by decide)
  have hclrerr : encode i ≠ 0x02000000#32 := hne (by decide)
  exact if_pos (by simp [gated, he, hreset, hclrerr])

theorem EncodeAlike.issue (h : EncodeAlike s s') (hi : EncodesOrFlushes i) :
    ∃ t t', issue (encode i) s = .next t ∧ issue (encode i) s' = .next t' ∧ EncodeAlike t t' := by
  cases h with
  | running h =>
    obtain ⟨sym, rfl⟩ | rfl := hi
    · exact issue_of_answers rfl h.noError h.noError' h.phase (h.encsymOwn sym)
    · exact issue_of_answers rfl h.noError h.noError' h.phase h.encflushOwn
  | stopped herr err sub =>
    exact ⟨s, s', issue_ignored hi herr, issue_ignored hi (err ▸ herr), .stopped herr err sub⟩

theorem issueAll_wordsOf_cons (h : issue (encode i) s = .next t) :
    issueAll (wordsOf (i :: is)) s = issueAll (wordsOf is) t := by
  rw [wordsOf, List.map_cons, issueAll, h]
  rfl

theorem EncodeAlike.issueAll (h : EncodeAlike s s') (his : ∀ i ∈ is, EncodesOrFlushes i) :
    ∃ t t', issueAll (wordsOf is) s = .next t ∧ issueAll (wordsOf is) s' = .next t' ∧ EncodeAlike t t' := by
  induction is generalizing s s' with
  | nil => exact ⟨s, s', rfl, rfl, h⟩
  | cons i is ih =>
    obtain ⟨hi, hrest⟩ := List.forall_mem_cons.1 his
    obtain ⟨u, u', hu, hu', hR⟩ := h.issue hi
    rw [issueAll_wordsOf_cons hu, issueAll_wordsOf_cons hu']
    exact ih hR hrest

/-- After `ENCSTART` a session is its symbols and the flush. -/
theorem encodesOrFlushes_of_mem {syms : List Symbol} (h : i ∈ encs syms ++ [.encflush]) : EncodesOrFlushes i := by
  obtain h | h := List.mem_append.1 h
  · obtain ⟨sym, -, rfl⟩ := List.mem_map.1 h
    exact .inl ⟨sym, rfl⟩
  · exact .inr (List.mem_singleton.1 h)

/-- Settles O37: `ENCSTART` starts the same encoder on both states or records the same error on both, and every later
command keeps the runs so. -/
theorem encodingDependsOnTableWindowAndSymbols : Obligations.EncodingDependsOnTableWindowAndSymbols := by
  intro syms s s' t hw hseg hp hp' he he' ⟨_, _, hbuf⟩ ⟨_, _, hbuf'⟩ h
  obtain ⟨u, u', hu, hu', hstart⟩ := issue_of_answers (i := .encstart) rfl he he' (hp'.trans hp.symm)
    (answers_encstartOwn he he' hw.symm hseg.symm hbuf hbuf')
  obtain ⟨v, t', hv, ht', hend⟩ := hstart.issueAll fun _ => encodesOrFlushes_of_mem (syms := syms)
  rw [encodingSession, issueAll_wordsOf_cons hu, hv] at h
  obtain rfl := Host.Outcome.next.inj h
  refine ⟨t', by rw [encodingSession, issueAll_wordsOf_cons hu', ht'], ?_⟩
  cases hend with
  | running hR =>
    exact ⟨hR.noError'.trans hR.noError.symm, fun hne => absurd hR.noError hne,
      fun _ => ⟨hR.bitlen, hR.nsym, congrFun hR.bitAt⟩⟩
  | stopped herr err sub => exact ⟨err, fun _ => sub, fun h0 => absurd h0 herr⟩

end Sys2Proof.Machine
end

section
/-! PROOFS. The decoder commands: opening a session, decoding a symbol, and the lookahead's advance (44_decoder.md R181
to R190). -/

namespace Sys2Proof.Machine

open Claims

variable {s t : State} {sym : Symbol} {n : Imm}

/-! ### `Advance` (44_decoder.md R185) -/

/-- One shift: the next stream bit enters at the low end. -/
def shiftOnce (bit : Nat → Bool) (w : Nat) (q : Nat × Nat) : Nat × Nat :=
  ((q.1 <<< 1 ||| (bit q.2).toNat) % 2 ^ w, q.2 + 1)

/-- One straddle strip: the next stream bit is the fill. -/
def stripOnce (bit : Nat → Bool) (w : Nat) (q : Nat × Nat) : Nat × Nat := (strip w q.1 (bit q.2), q.2 + 1)

theorem shiftIn_eq_iterate (bit : Nat → Bool) (w k v p : Nat) : shiftIn bit w k v p = (shiftOnce bit w)^[k] (v, p) := by
  induction k generalizing v p with
  | zero => rfl
  | succ k ih =>
    have hbit : v * 2 + (bit p).toNat = v <<< 1 ||| (bit p).toNat := by
      rw [← Nat.shiftLeft_add_eq_or_of_lt (bit p).toNat_lt, Nat.shiftLeft_eq, pow_one]
    rw [shiftIn, ih, hbit, Function.iterate_succ_apply, shiftOnce]

theorem stripIn_eq_iterate (bit : Nat → Bool) (w c v p : Nat) : stripIn bit w c v p = (stripOnce bit w)^[c] (v, p) := by
  induction c generalizing v p with
  | zero => rfl
  | succ c ih => rw [stripIn, ih, Function.iterate_succ_apply, stripOnce]

theorem shiftIn_snd (bit : Nat → Bool) (w k v p : Nat) : (shiftIn bit w k v p).2 = p + k := by
  induction k generalizing v p with
  | zero => rfl
  | succ k ih => rw [shiftIn, ih, Nat.add_assoc, Nat.add_comm 1]

theorem stripIn_snd (bit : Nat → Bool) (w c v p : Nat) : (stripIn bit w c v p).2 = p + c := by
  induction c generalizing v p with
  | zero => rfl
  | succ c ih => rw [stripIn, ih, Nat.add_assoc, Nat.add_comm 1]

/-- Settles O40: the two loops of `Advance` are iterates of one shift and of one strip. -/
theorem advanceShiftsThenStrips : Obligations.AdvanceShiftsThenStrips := by
  intro bit w v p k c
  refine ⟨?_, ?_, fun hw hv => (advance_bounds hw hv).1⟩
  · rw [advance, stripIn_eq_iterate, shiftIn_eq_iterate]
    rfl
  · rw [advance, stripIn_snd, shiftIn_snd]

/-! ### `DECSTART` (44_decoder.md R181) -/

/-- The first window as the sum of its bits by their weights. -/
theorem firstWindow_eq_sum (bit : Nat → Bool) (w : Nat) :
    firstWindow bit w = ∑ j ∈ Finset.range w, (bit j).toNat * 2 ^ (w - 1 - j) := by
  induction w with
  | zero => rfl
  | succ w ih =>
    rw [firstWindow, ih, Finset.sum_range_succ, Finset.sum_mul, Nat.add_sub_cancel, Nat.sub_self, pow_zero, Nat.mul_one]
    congr 1
    refine Finset.sum_congr rfl fun j hj => ?_
    rw [Finset.mem_range] at hj
    rw [Nat.mul_assoc, ← pow_succ, show w - 1 - j + 1 = w - j by omega]

theorem decstartOwn_no_table (hn : n.toNat ≠ 0) (ht : tableOk s = false) :
    decstartOwn n s = .error .invalidTable := by
  rw [decstartOwn, if_neg hn, if_pos ht]

theorem decstartOwn_ok (hn : n.toNat ≠ 0) (ht : tableOk s = true) : decstartOwn n s = .ok (decstartCommit n s) := by
  rw [decstartOwn, if_neg hn, if_neg (ne_false_of_eq_true ht), decstartCommit]

/-- The lookahead, the read pointer and the high end of a new decoding session fit their registers. -/
theorem decstartCommit_toNat (hw : WindowLegal s) (n : Imm) :
    (decstartCommit n s).h.toNat = rangeSize s - 1 ∧
    (decstartCommit n s).v.toNat = firstWindow (bitAt s) s.w.toNat ∧
    (decstartCommit n s).rdptr.toNat = s.w.toNat := by
  have hmax := rangeSize_le hw
  have hpos := rangeSize_pos s
  have hw16 : s.w.toNat ≤ 16 := hw.2
  exact ⟨toNat_ofNat_of_lt (by omega), toNat_ofNat_of_lt ((firstWindow_lt _ _).trans_le hmax),
    toNat_ofNat_of_lt (by omega)⟩

/-- Settles O38: `DECSTART` makes two checks of its own, and in a legal window its commit wraps no register. -/
theorem decstartLoadsTheLookahead : Obligations.DecstartLoadsTheLookahead := by
  intro n
  refine ⟨by simp [encode_toNat, opcodeOf, symOf, immOf], onlyIn_of_requiredPhase rfl rfl, fun s hp => ?_⟩
  have hq : requiredPhase (.decstart n) = some s.phase := congrArg some hp.symm
  refine ⟨fun hn => exec_error rfl hq (if_pos hn), fun hn ht => exec_error rfl hq (decstartOwn_no_table hn.ne' ht),
    fun hn ht hw => ?_⟩
  obtain ⟨hh, hv, hrd⟩ := decstartCommit_toNat hw n
  exact ⟨_, exec_ok rfl hq (decstartOwn_ok hn.ne' ht), rfl, hh, rfl, rfl, rfl, rfl,
    hv.trans (firstWindow_eq_sum _ _), hrd, rfl, rfl, rfl, rfl, rfl⟩

/-! ### `DECSYM` (44_decoder.md R182 to R187) -/

theorem decsymOwn_past_end (h : s.bitlen.toNat < s.cursor.toNat) : decsymOwn s = .error .corruptEnd := by
  rw [decsymOwn, if_pos h]

section

variable (hc : s.cursor.toNat ≤ s.bitlen.toNat)
include hc

theorem decsymOwn_outside (h : s.v.toNat < s.l.toNat ∨ s.h.toNat < s.v.toNat) :
    decsymOwn s = .error .corruptNoSegment := by
  rw [decsymOwn, if_neg hc.not_gt, if_pos h]

theorem decsymOwn_ok (hl : s.l.toNat ≤ s.v.toNat) (hh : s.v.toNat ≤ s.h.toNat)
    (hf : segmentAt s (position (rangeSize s) s.v.toNat s.l.toNat s.h.toNat) = some sym) :
    decsymOwn s = .ok (decsymCommit sym s) := by
  rw [decsymOwn, if_neg hc.not_gt, if_neg (not_or.2 ⟨hl.not_gt, hh.not_gt⟩), hf]

end

/-- In a legal session every lookahead inside the interval has a symbol (41_interval_narrowing.md R134). -/
theorem segmentAt_position_of_codingLegal (hs : CodingLegal s) (hl : s.l.toNat ≤ s.v.toNat)
    (hh : s.v.toNat ≤ s.h.toNat) :
    ∃ sym, segmentAt s (position (rangeSize s) s.v.toNat s.l.toNat s.h.toNat) = some sym := by
  obtain ⟨ht, -⟩ := hs
  obtain ⟨sym, hf, -⟩ := segmentAtFindsTheOneSegment s _ ht (position_lt (rangeSize_pos s) hl hh)
  exact ⟨sym, hf⟩

/-- The session ends with the last symbol (44_decoder.md R187). -/
theorem decsymCommit_phase (hp : s.phase = .dec) (sym : Symbol) :
    (decsymCommit sym s).phase = if s.drem.toNat = 1 then .idle else .dec := by
  have hlast : s.drem - 1#16 = 0#16 ↔ s.drem.toNat = 1 :=
    sub_eq_zero.trans (BitVec.toNat_inj (y := 1#16)).symm
  rw [decsymCommit, setPhase_phase, hp]
  exact if_congr hlast rfl rfl

theorem settledBits_eq (k te : Nat) : settledBits k te = if 0 < k then k + te else 0 := by
  rw [settledBits]
  split_ifs <;> omega

/-- Settles O39: the checks in their order; in a legal session the lookahead has a symbol, whose projection holds it,
and no register of the commit wraps. -/
theorem decsymDecodesOneSymbol : Obligations.DecsymDecodesOneSymbol := by
  refine ⟨by decide, onlyIn_of_requiredPhase rfl rfl, fun s hp => ?_⟩
  have hq : requiredPhase .decsym = some s.phase := congrArg some hp.symm
  refine ⟨fun hend => exec_error rfl hq (decsymOwn_past_end hend),
    fun hc hout => exec_error rfl hq (decsymOwn_outside hc hout), fun hc hlow hhigh hw hs hd => ?_⟩
  have hcoding := sessionLegal_iff.1 hs (by rw [hp]; decide)
  have hdecoding := decoderLegal_iff.1 hd hp
  obtain ⟨sym, hf⟩ := segmentAt_position_of_codingLegal hcoding hlow hhigh
  obtain ⟨hvalid, -, -⟩ := holds_of_segmentAt hf
  obtain ⟨hfst, hsnd⟩ := lookahead_in_projectSymbol hlow hf
  obtain ⟨hv, hrd, hcur, hdr⟩ := decsymCommit_toNat (sym := sym) hw hdecoding
  obtain ⟨hdrem, hcount, -⟩ := hdecoding
  obtain ⟨hl, hh, hte, hsince, hnsym⟩ := codeSymbol_toNat hw hcoding hvalid (by omega) (hfst.trans hsnd)
  rw [settledBits_eq] at hcur
  exact ⟨decsymCommit sym s, sym, hf, exec_ok rfl hq (decsymOwn_ok hc hlow hhigh hf), hl, hh, hte, hsince,
    Prod.ext hv hrd, hcur, rfl, rfl, hnsym, by omega, decsymCommit_phase hp sym, rfl⟩

/-! ### The errors of `DECSYM` (44_decoder.md R190) -/

theorem decsymOwn_error {e : ErrorCode} (h : decsymOwn s = .error e) : e = .corruptEnd ∨ e = .corruptNoSegment := by
  unfold decsymOwn at h
  split at h
  · cases h; exact .inl rfl
  · split at h
    · cases h; exact .inr rfl
    · split at h <;> cases h
      exact .inr rfl

/-- Settles O41: in its phase `DECSYM` raises only errors of its own, and a commit records none. -/
theorem decsymRaisesOnlyCorrupt : Obligations.DecsymRaisesOnlyCorrupt := by
  intro s t hp he h hte
  have hq : requiredPhase .decsym = some s.phase := congrArg some hp.symm
  cases hown : decsymOwn s with
  | ok u =>
    obtain rfl := Host.Outcome.next.inj ((exec_ok rfl hq hown).symm.trans h)
    cases commits_of_ownPart rfl (legalIn_of_requiredPhase hq) hown
    exact absurd ((decsymCommit_err _ s).trans he) hte
  | error e =>
    obtain rfl := Host.Outcome.next.inj ((exec_error rfl hq hown).symm.trans h)
    obtain rfl | rfl := decsymOwn_error hown
    · exact ⟨rfl, .inr rfl⟩
    · exact ⟨rfl, .inl rfl⟩

end Sys2Proof.Machine
end

section
/-! PROOFS. The decoder follows the encoder: with the same window, table and coding registers, the symbol that `ENCSYM`
encodes and `DECSYM` decodes leaves both with the same registers again (44_decoder.md R180, R186). -/

namespace Sys2Proof.Machine

variable {s d s' d' : State} {sym : Symbol}

/-- The states agree on `W`, the table and the coding registers. -/
structure SameCoding (s d : State) : Prop where
  w : d.w = s.w
  seg : d.seg = s.seg
  l : d.l = s.l
  h : d.h = s.h
  te : d.te = s.te
  since : d.since = s.since

theorem SameCoding.projectSymbol (hc : SameCoding s d) (sym : Symbol) : projectSymbol d sym = projectSymbol s sym := by
  rw [Machine.projectSymbol, Machine.projectSymbol, rangeSize_congr hc.w, segmentOf_congr hc.seg, hc.l, hc.h]

theorem SameCoding.renormSymbol (hc : SameCoding s d) (sym : Symbol) : renormSymbol d sym = renormSymbol s sym := by
  rw [Machine.renormSymbol, Machine.renormSymbol, hc.w, hc.projectSymbol, hc.te, hc.since]

/-- Coding the same symbol keeps the registers equal, whatever is appended to the encoder's buffer. -/
theorem SameCoding.code (hc : SameCoding s d) (sym : Symbol) (bits : BitString) :
    SameCoding (codeSymbol (Machine.renormSymbol s sym) (appendBits bits s)) (decsymCommit sym d) := by
  have hr := hc.renormSymbol sym
  refine ⟨(decsymCommit_w sym d).trans hc.w, (decsymCommit_seg sym d).trans hc.seg, ?_, ?_, ?_, ?_⟩
  · rw [decsymCommit_l, hr]; rfl
  · rw [decsymCommit_h, hr]; rfl
  · rw [decsymCommit_te, hr]; rfl
  · rw [decsymCommit_since, hr]; rfl

/-- `ENCSYM` appends as many bits as `DECSYM` settles (43_encoder.md R163; 44_decoder.md R186). -/
theorem length_renormSymbol_out (s : State) (sym : Symbol) :
    (renormSymbol s sym).out.length = settledBits (renormSymbol s sym).k s.te.toNat := by
  rw [settledBits_eq]
  exact length_renorm_out _ _ _ _ _

/-- `CURSOR` grows by what `BITLEN` grows by (44_decoder.md R186). -/
theorem SameCoding.cursor_add_bitlen (hc : SameCoding s d) (hw : WindowLegal d) (hd : DecodingLegal d) (sym : Symbol)
    (hroom : s.bitlen.toNat + (Machine.renormSymbol s sym).out.length ≤ Config.bufBits) :
    (decsymCommit sym d).cursor.toNat + s.bitlen.toNat =
      d.cursor.toNat + (appendBits (Machine.renormSymbol s sym).out s).bitlen.toNat := by
  obtain ⟨-, -, hcur, -⟩ := decsymCommit_toNat (sym := sym) hw hd
  rw [hcur, bitlen_appendBits hroom, length_renormSymbol_out, hc.renormSymbol, hc.te]
  omega

/-- A command that records no error has committed. -/
theorem commits_of_exec {i : Instr} {t : State} (h : exec i s = .next t) (he : t.err = 0#4) : Commits s i t := by
  obtain ⟨e, rfl⟩ | hcommit := exec_cases h
  · exact absurd he (errBits_ne_zero e)
  · exact hcommit

/-- Settles O42: both commands renormalize the same projection, and `CURSOR` settles the bits that `ENCSYM` appends. -/
theorem decoderMirrorsTheEncoder : Obligations.DecoderMirrorsTheEncoder := by
  intro s d s' d' sym _ hpd _ _ hws _ _ hdd hw hseg hl hh hte hsince hs' hes' hd' hed' hsym
  have hc : SameCoding s d := ⟨hw.symm, hseg.symm, hl.symm, hh.symm, hte.symm, hsince.symm⟩
  have hwd : WindowLegal d := by rwa [WindowLegal, hc.w]
  cases commits_of_exec hs' hes' with | encsym _ _ _ _ hroom =>
  cases commits_of_exec hd' hed' with | decsym _ _ _ _ _ =>
  obtain rfl := hsym
  obtain ⟨-, -, hl', hh', hte', hsince'⟩ := hc.code _ (renormSymbol s _).out
  exact ⟨hl', hh', hte', hsince', hc.cursor_add_bitlen hwd (decoderLegal_iff.1 hdd hpd) _ hroom⟩

end Sys2Proof.Machine
end

section
/-! PROOFS. The decoder's lookahead as a part of the stream. With `te` pending bits after the settled index `cur`, the
window holds the bit at `cur` and then the bits behind the pending ones (10_state.md R39), and `Advance` moves it along
the stream (44_decoder.md R185). -/

namespace Sys2Proof.Machine

variable {bit u : Nat → Bool} {w i k c p cur te : Nat}

/-! ### Runs of a stream as numbers -/

theorem packBits_cons (bit : Nat → Bool) (i n : Nat) :
    packBits bit i (n + 1) = (bit i).toNat * 2 ^ n + packBits bit (i + 1) n := by
  induction n with
  | zero => simp [packBits]
  | succ n ih =>
    rw [packBits, ih, packBits, pow_succ, Nat.add_right_comm i 1 n, Nat.add_assoc i n 1]
    ring

theorem packBits_lt (bit : Nat → Bool) (i n : Nat) : packBits bit i n < 2 ^ n := by
  induction n with
  | zero => exact Nat.one_pos
  | succ n ih =>
    have hb := (bit (i + n)).toNat_lt
    rw [packBits, pow_succ]
    omega

theorem packBits_congr {bit' : Nat → Bool} {i' n : Nat} (h : ∀ j, j < n → bit (i + j) = bit' (i' + j)) :
    packBits bit i n = packBits bit' i' n := by
  induction n with
  | zero => rfl
  | succ n ih => rw [packBits, packBits, ih fun j hj => h j (by omega), h n n.lt_succ_self]

theorem firstWindow_eq_packBits (bit : Nat → Bool) (w : Nat) : firstWindow bit w = packBits bit 0 w := by
  induction w with
  | zero => rfl
  | succ w ih => rw [firstWindow, packBits, ih, Nat.zero_add]

/-! ### The lookahead -/

/-- The stream from index `cur` on, with the `te` pending bits behind that index left out. -/
def unstuffed (bit : Nat → Bool) (cur te j : Nat) : Bool := if j = 0 then bit cur else bit (cur + te + j)

/-- The `w`-bit lookahead of a decoder that has settled the bits below `cur` and dropped `te` pending ones. -/
def lookahead (bit : Nat → Bool) (cur te w : Nat) : Nat := packBits (unstuffed bit cur te) 0 w

theorem unstuffed_zero (bit : Nat → Bool) (cur te : Nat) : unstuffed bit cur te 0 = bit cur := if_pos rfl

theorem unstuffed_of_pos {j : Nat} (hj : 0 < j) : unstuffed bit cur te j = bit (cur + te + j) := if_neg hj.ne'

/-- With nothing pending the lookahead is the next `w` bits of the stream. -/
theorem lookahead_of_none_pending (bit : Nat → Bool) (cur w : Nat) : lookahead bit cur 0 w = packBits bit cur w := by
  refine packBits_congr fun j _ => ?_
  rcases Nat.eq_zero_or_pos j with rfl | hj
  · exact unstuffed_zero bit cur 0
  · rw [Nat.zero_add, unstuffed_of_pos hj, Nat.add_zero]

theorem lookahead_lt (bit : Nat → Bool) (cur te w : Nat) : lookahead bit cur te w < 2 ^ w := packBits_lt _ _ _

/-- Behind a whole run of bits the pending ones are passed. -/
theorem packBits_unstuffed_succ (bit : Nat → Bool) (cur te k w : Nat) :
    packBits (unstuffed bit cur te) (k + 1) w = lookahead bit (cur + (k + 1 + te)) 0 w := by
  rw [lookahead_of_none_pending]
  refine packBits_congr fun j _ => ?_
  rw [unstuffed_of_pos (by omega)]
  congr 1
  omega

/-! ### `Advance` along the stream (44_decoder.md R185) -/

theorem shift_packBits (bit : Nat → Bool) (i w : Nat) :
    (packBits bit i w * 2 + (bit (i + w)).toNat) % 2 ^ w = packBits bit (i + 1) w := by
  have hcons := packBits_cons bit i w
  rw [packBits] at hcons
  rw [hcons, Nat.mul_add_mod_self_right, Nat.mod_eq_of_lt (packBits_lt _ _ _)]

/-- The shifts read on in a stream `u` that is the bit stream, moved by `p`, behind its first window. -/
theorem shiftIn_packBits (hu : ∀ j, w ≤ j → u j = bit (p + j)) :
    (shiftIn bit w k (packBits u i w) (p + (i + w))).1 = packBits u (i + k) w := by
  induction k generalizing i with
  | zero => rfl
  | succ k ih =>
    have hnext := ih (i := i + 1)
    rw [shiftIn, ← hu _ (Nat.le_add_left w i), shift_packBits, Nat.add_assoc p, Nat.add_right_comm i w 1, hnext,
      Nat.add_right_comm i 1 k, Nat.add_assoc i k 1]

theorem shiftIn_lookahead (hw : 0 < w) (hp : p = w + cur + te) :
    (shiftIn bit w (k + 1) (lookahead bit cur te w) p).1 = lookahead bit (cur + (k + 1 + te)) 0 w := by
  have hshift := shiftIn_packBits (bit := bit) (u := unstuffed bit cur te) (p := cur + te) (w := w) (i := 0)
    (k := k + 1) fun j hj => unstuffed_of_pos (by omega)
  rw [hp, ← packBits_unstuffed_succ, lookahead, show w + cur + te = cur + te + (0 + w) by omega, hshift, Nat.zero_add]

theorem testBit_lookahead {j : Nat} (hj : j < w) :
    (lookahead bit cur te w).testBit (w - 1 - j) = unstuffed bit cur te j := by
  rw [lookahead, testBit_packBits _ _ hj, Nat.zero_add]

/-- One strip drops one more pending bit. -/
theorem strip_lookahead (hw : 2 ≤ w) (hp : p = w + cur + te) :
    strip w (lookahead bit cur te w) (bit p) = lookahead bit cur (te + 1) w := by
  obtain ⟨v, rfl⟩ := Nat.exists_eq_add_of_le' hw
  have hdrop := strip_add_dropped hw (lookahead_lt bit cur te (v + 2)) (bit p)
  have htop : (lookahead bit cur te (v + 2)).testBit (v + 2 - 1) = bit cur := testBit_lookahead (j := 0) (by omega)
  have hsecond : (lookahead bit cur te (v + 2)).testBit (v + 2 - 2) = unstuffed bit cur te 1 :=
    testBit_lookahead (j := 1) (by omega)
  have hrest : packBits (unstuffed bit cur (te + 1)) 1 v = packBits (unstuffed bit cur te) 2 v :=
    packBits_congr fun j _ => by
      rw [unstuffed_of_pos (by omega), unstuffed_of_pos (by omega)]
      congr 1
      omega
  have hlast : unstuffed bit cur (te + 1) (1 + v) = bit p := by
    rw [unstuffed_of_pos (by omega), hp]
    congr 1
    omega
  have hold : lookahead bit cur te (v + 2) =
      (bit cur).toNat * 2 ^ (v + 1) +
        ((unstuffed bit cur te 1).toNat * 2 ^ v + packBits (unstuffed bit cur te) 2 v) := by
    rw [lookahead, packBits_cons, packBits_cons, unstuffed_zero]
  have hnew : lookahead bit cur (te + 1) (v + 2) =
      (bit cur).toNat * 2 ^ (v + 1) + (packBits (unstuffed bit cur te) 2 v * 2 + (bit p).toNat) := by
    rw [lookahead, packBits_cons, packBits, unstuffed_zero, hrest, hlast]
  rw [htop, hsecond, hold, show v + 2 - 1 = v + 1 from rfl] at hdrop
  rw [hold, hnew]
  rw [pow_succ] at hdrop ⊢
  linarith

theorem stripIn_lookahead (hw : 2 ≤ w) (hp : p = w + cur + te) :
    (stripIn bit w c (lookahead bit cur te w) p).1 = lookahead bit cur (te + c) w := by
  induction c generalizing te p with
  | zero => rfl
  | succ c ih => rw [stripIn, strip_lookahead hw hp, ih (by omega), Nat.add_assoc, Nat.add_comm 1]

/-- `Advance` gives the lookahead behind the bits it settles: the shifts pass the pending bits, and the strips make new
ones. -/
theorem advance_lookahead {te' : Nat} (hw : 2 ≤ w) (hp : p = w + cur + te) (hte : te + k + c = settledBits k te + te') :
    (advance bit w (lookahead bit cur te w) p k c).1 = lookahead bit (cur + settledBits k te) te' w := by
  cases k with
  | zero =>
    obtain rfl : te' = te + c := by simpa [settledBits] using hte.symm
    exact stripIn_lookahead hw hp
  | succ k =>
    have hset : settledBits (k + 1) te = k + 1 + te := if_neg k.succ_ne_zero
    rw [hset] at hte ⊢
    obtain rfl : te' = 0 + c := by omega
    rw [advance, shiftIn_lookahead (by omega) hp, shiftIn_snd]
    exact stripIn_lookahead hw (by omega)

end Sys2Proof.Machine
end

section
/-! PROOFS. Why a stream decodes: what an encoder with the interval `[l, h]` and `te` pending bits may still emit. If
the stream goes on in that way after a symbol, then it went on in that way before it, inside the symbol's projection
(42_underflow_renormalization.md R144, R147; 44_decoder.md R185). -/

namespace Sys2Proof.Machine

variable {bit u : Nat → Bool} {w i k c cur te l h : Nat}

/-- The stream goes on from index `cur` as an encoder with the interval `[l, h]` and `te` pending bits lets it: the
pending bits are the opposite of the bit before them, and the lookahead that leaves them out lies in the interval. -/
structure Continues (bit : Nat → Bool) (w cur te l h : Nat) : Prop where
  pending : ∀ j, j < te → bit (cur + 1 + j) = !bit cur
  low : l ≤ lookahead bit cur te w
  high : lookahead bit cur te w ≤ h

/-- A larger interval lets the stream go on too. -/
theorem Continues.mono {l' h' : Nat} (hc : Continues bit w cur te l h) (hl : l' ≤ l) (hh : h ≤ h') :
    Continues bit w cur te l' h' :=
  ⟨hc.pending, hl.trans hc.low, hc.high.trans hh⟩

/-! ### Before the strips -/

theorem testBit_top_eq_false (hl : l < 2 ^ (w - 1)) : l.testBit (w - 1) = false := Nat.testBit_lt_two_pow hl

theorem testBit_top_eq_true (hw : 0 < w) (hmid : 2 ^ (w - 1) ≤ h) (hh : h < 2 ^ w) : h.testBit (w - 1) = true := by
  rw [testBit_iff_le_mod, Nat.sub_add_cancel hw, Nat.mod_eq_of_lt hh]
  exact hmid

/-- A strip drops a bit unlike the leading one from the lookahead: it moves it by `2^(W-1)`, the low end by no more and
the high end by no less. -/
theorem Continues.before_strip (hw : 2 ≤ w) (hl : l < 2 ^ w) (hh : h < 2 ^ w) (htl : l.testBit (w - 1) = false)
    (hth : h.testBit (w - 1) = true) (hc : Continues bit w cur (te + 1) (strip w l false) (strip w h true)) :
    Continues bit w cur te l h := by
  obtain ⟨hpending, hlow, hhigh⟩ := hc
  have hv := strip_add_dropped hw (lookahead_lt bit cur te w) (bit (w + cur + te))
  have htop : (lookahead bit cur te w).testBit (w - 1) = bit cur := testBit_lookahead (j := 0) (by omega)
  have hsecond : (lookahead bit cur te w).testBit (w - 2) = !bit cur := by
    rw [← hpending te te.lt_succ_self, show w - 2 = w - 1 - 1 by omega, testBit_lookahead (j := 1) (by omega),
      unstuffed_of_pos Nat.one_pos, Nat.add_right_comm]
  have hone : (bit cur).toNat + (!bit cur).toNat = 1 := by cases bit cur <;> rfl
  have hfill := (bit (w + cur + te)).toNat_lt
  rw [strip_lookahead hw rfl, htop, hsecond, hone, Nat.one_mul] at hv
  have hsl := strip_add_dropped hw hl false
  have hsh := strip_add_dropped hw hh true
  rw [htl, Bool.toNat_false, Nat.zero_add] at hsl
  rw [hth, Bool.toNat_true, Nat.add_mul, Nat.one_mul] at hsh
  have hdrop : (l.testBit (w - 2)).toNat * 2 ^ (w - 1) ≤ 1 * 2 ^ (w - 1) :=
    Nat.mul_le_mul_right _ (Nat.le_of_lt_succ (l.testBit (w - 2)).toNat_lt)
  exact ⟨fun j hj => hpending j (by omega), by omega, by omega⟩

theorem Continues.before_strips (hw : 2 ≤ w) (hl : l < 2 ^ w) (hh : h < 2 ^ w) (htl : l.testBit (w - 1) = false)
    (hth : h.testBit (w - 1) = true)
    (hc : Continues bit w cur (te + c) (stripTimes w false c l) (stripTimes w true c h)) :
    Continues bit w cur te l h := by
  induction c generalizing te l h with
  | zero => exact hc
  | succ c ih =>
    refine before_strip hw hl hh htl hth (ih (strip_lt hw l false) (strip_lt hw h true) ?_ ?_ ?_)
    · rw [testBit_strip_leading hw, htl]
    · rw [testBit_strip_leading hw, hth]
    · rwa [Nat.add_right_comm]

/-! ### Before the shifts -/

/-- The leading bit of a value above the rest of its low bits. -/
theorem mod_two_pow_succ_eq (x w : Nat) : x % 2 ^ (w + 1) = (x.testBit w).toNat * 2 ^ w + x % 2 ^ w := by
  rw [Nat.mod_pow_succ, ← Nat.toNat_testBit, Nat.add_comm, Nat.mul_comm]

/-- A window whose leading bits are those of both ends lies between the ends when the shifted window does. -/
theorem packBits_mem_of_shifted_mem (hk : k ≤ w) (hl : ∀ j, j < k → u (i + j) = l.testBit (w - 1 - j))
    (hh : ∀ j, j < k → u (i + j) = h.testBit (w - 1 - j)) (hlow : shiftLow w k l ≤ packBits u (i + k) w)
    (hhigh : packBits u (i + k) w ≤ shiftHigh w k h) :
    l % 2 ^ w ≤ packBits u i w ∧ packBits u i w ≤ h % 2 ^ w := by
  induction k generalizing w i with
  | zero => simpa [shiftLow, shiftHigh] using And.intro hlow hhigh
  | succ k ih =>
    obtain ⟨v, rfl⟩ := Nat.exists_eq_add_of_le' (Nat.one_le_of_lt hk)
    have htail {x : Nat} (hx : ∀ j, j < k + 1 → u (i + j) = x.testBit (v + 1 - 1 - j)) :
        ∀ j, j < k → u (i + 1 + j) = x.testBit (v - 1 - j) := fun j hj => by
      rw [Nat.add_assoc, Nat.add_comm 1, hx (j + 1) (by omega)]
      congr 1
      omega
    have hfill := (u (i + (k + 1) + v)).toNat_lt
    rw [shiftLow_succ, packBits] at hlow
    rw [shiftHigh_succ, packBits] at hhigh
    rw [show i + (k + 1) = i + 1 + k by omega] at hlow hhigh hfill
    obtain ⟨hrestl, hresth⟩ := ih (Nat.le_of_succ_le_succ hk) (htail hl) (htail hh) (by omega) (by omega)
    have htopl : u i = l.testBit v := hl 0 (by omega)
    have htoph : u i = h.testBit v := hh 0 (by omega)
    rw [packBits_cons, mod_two_pow_succ_eq l, mod_two_pow_succ_eq h, ← htopl, ← htoph]
    exact ⟨Nat.add_le_add_left hrestl _, Nat.add_le_add_left hresth _⟩

/-- The stream holds the bits `out` from index `cur` on. -/
def Carries (bit : Nat → Bool) (cur : Nat) (out : BitString) : Prop :=
  ∀ (j : Nat) (hj : j < out.length), bit (cur + j) = out[j]

/-- An emitted run of `k + 1` bits in the stream: its first bit, the pending bits as its opposite, and the others. -/
theorem Carries.stuffed {x : Nat} (ho : Carries bit cur (stuff te (leadingBits w x (k + 1)))) :
    (∀ j, j < te → bit (cur + 1 + j) = !bit cur) ∧
    ∀ j, j < k + 1 → unstuffed bit cur te j = x.testBit (w - 1 - j) := by
  have hlen := length_stuff_leadingBits te w x (k + 1)
  rw [if_pos k.succ_pos] at hlen
  have hfirst : bit cur = x.testBit (w - 1) := by
    have h0 := ho 0 (by omega)
    simpa only [Nat.add_zero, stuff_leadingBits_succ, List.getElem_cons_zero] using h0
  refine ⟨fun j hj => ?_, fun j hj => ?_⟩
  · have hj' := ho (j + 1) (by omega)
    simp only [stuff_leadingBits_succ, List.getElem_cons_succ] at hj'
    rw [List.getElem_append_left (by simpa using hj), List.getElem_replicate] at hj'
    rw [hfirst, ← hj', Nat.add_assoc, Nat.add_comm 1]
  · rcases Nat.eq_zero_or_pos j with rfl | hpos
    · exact (unstuffed_zero bit cur te).trans hfirst
    · obtain ⟨m, rfl⟩ := Nat.exists_eq_add_of_le' hpos
      have hj' := ho (te + m + 1) (by omega)
      simp only [stuff_leadingBits_succ, List.getElem_cons_succ] at hj'
      rw [List.getElem_append_right (by simp), List.getElem_map, List.getElem_range, List.length_replicate,
        Nat.add_sub_cancel_left] at hj'
      rw [unstuffed_of_pos hpos, Nat.add_assoc, ← Nat.add_assoc te, hj']
      congr 1
      omega

/-- The pending count between the shifts and the strips: a shift settles every pending bit. -/
def pendingAfterShift (k te : Nat) : Nat := if k = 0 then te else 0

/-- Shifts pass bits that the lookahead shares with both ends. -/
theorem Continues.before_shift (hk : k ≤ w) (hl : l < 2 ^ w) (hh : h < 2 ^ w)
    (hshared : ∀ j, j < k → l.testBit (w - 1 - j) = h.testBit (w - 1 - j))
    (ho : Carries bit cur (stuff te (leadingBits w l k)))
    (hc : Continues bit w (cur + settledBits k te) (pendingAfterShift k te) (shiftLow w k l) (shiftHigh w k h)) :
    Continues bit w cur te l h := by
  cases k with
  | zero => simpa [settledBits, pendingAfterShift, shiftLow, shiftHigh, Nat.mod_eq_of_lt, hl, hh] using hc
  | succ k =>
    obtain ⟨hpending, hbits⟩ := ho.stuffed
    obtain ⟨-, hlow, hhigh⟩ := hc
    have hnext : lookahead bit (cur + (k + 1 + te)) 0 w = packBits (unstuffed bit cur te) (0 + (k + 1)) w := by
      rw [Nat.zero_add, packBits_unstuffed_succ]
    rw [settledBits, if_neg k.succ_ne_zero, pendingAfterShift, if_neg k.succ_ne_zero, hnext] at hlow hhigh
    have hmem := packBits_mem_of_shifted_mem hk (fun j hj => (congrArg _ j.zero_add).trans (hbits j hj))
      (fun j hj => (congrArg _ j.zero_add).trans ((hbits j hj).trans (hshared j hj))) hlow hhigh
    rw [Nat.mod_eq_of_lt hl, Nat.mod_eq_of_lt hh] at hmem
    obtain ⟨hle, hge⟩ := hmem
    exact ⟨hpending, hle, hge⟩

/-! ### Before `Renorm` -/

/-- If the stream holds the bits that `Renorm` emits and goes on after them in the interval that `Renorm` leaves, then
it goes on before them in the interval given to `Renorm`. -/
theorem Continues.before_renorm {l1 h1 since : Nat} (hw : 2 ≤ w) (hlh : l1 ≤ h1) (hh : h1 < 2 ^ w)
    (ho : Carries bit cur (renorm w l1 h1 te since).out)
    (hc : Continues bit w (cur + (renorm w l1 h1 te since).out.length) (renorm w l1 h1 te since).te
      (renorm w l1 h1 te since).l (renorm w l1 h1 te since).h) :
    Continues bit w cur te l1 h1 := by
  have hl : l1 < 2 ^ w := hlh.trans_lt hh
  have hpow : 2 ^ w = 2 * 2 ^ (w - 1) := by rw [← pow_succ', Nat.sub_add_cancel (by omega)]
  have hlt := shiftHigh_lt w (sharedRun w l1 h1) h1
  obtain ⟨hbelow, habove⟩ := shift_straddles_midpoint (w := w) (l := l1) (h := h1)
    (by rwa [Nat.mod_eq_of_lt hl, Nat.mod_eq_of_lt hh])
  obtain ⟨hrl, hrh⟩ := renorm_ends (te := te) (since := since) hl hh
  have hte : (renorm w l1 h1 te since).te =
      pendingAfterShift (sharedRun w l1 h1) te + (renorm w l1 h1 te since).c := by
    simp only [renorm, pendingAfterShift]
    split_ifs <;> simp
  have hlen : (renorm w l1 h1 te since).out.length = settledBits (sharedRun w l1 h1) te :=
    (length_renorm_out w l1 h1 te since).trans (settledBits_eq _ te).symm
  rw [hrl, hrh, hte, hlen] at hc
  exact before_shift (sharedRun_le w l1 h1) hl hh
    (fun j hj => testBit_eq_of_ge_sharedRun (w := w) (by have := sharedRun_le w l1 h1; omega) (by omega)) ho
    (before_strips hw (by omega) hlt (testBit_top_eq_false (by omega)) (testBit_top_eq_true (by omega) (by omega) hlt)
      hc)

end Sys2Proof.Machine
end

section
/-! PROOFS. The round trip (44_decoder.md R189). The stream an encoding session leaves goes on, at every symbol, as the
encoder's interval lets it: the terminator sets it to the midpoint, and each symbol passes this back to the one before
it. So the decoder, which follows the encoder's registers, finds its lookahead in the projection of each symbol. -/

namespace Sys2Proof.Machine

variable {i : Instr} {is : List Instr} {s t e e' d s1 : State} {sym : Symbol} {syms : List Symbol} {n : Nat}

/-! ### The error-free run of an encoding session -/

/-- The commits that lead from the state `e` of an open encoding session over the symbols left to the state `s1` after
the flush. -/
inductive EncodesTo (s1 : State) : State → List Symbol → Prop
  | flush {e : State} (h : Commits e .encflush s1) : EncodesTo s1 e []
  | symbol {e e' : State} {sym : Symbol} {syms : List Symbol} (h : Commits e (.encsym sym) e')
      (rest : EncodesTo s1 e' syms) : EncodesTo s1 e (sym :: syms)

theorem issueAll_ignored (his : ∀ i ∈ is, EncodesOrFlushes i) (he : s.err ≠ 0#4) :
    issueAll (wordsOf is) s = .next s := by
  induction is with
  | nil => rfl
  | cons i is ih =>
    obtain ⟨hi, hrest⟩ := List.forall_mem_cons.1 his
    rw [issueAll_wordsOf_cons (issue_ignored hi he), ih hrest]

/-- When the commands of a session end with no error recorded, the first of them has committed. -/
theorem commits_of_issueAll (hr : operandInRange i = true) (his : ∀ j ∈ is, EncodesOrFlushes j) (he : s.err = 0#4)
    (h : issueAll (wordsOf (i :: is)) s = .next t) (ht : t.err = 0#4) :
    ∃ u, Commits s i u ∧ issueAll (wordsOf is) u = .next t := by
  obtain ⟨u, hu⟩ := issue_answers_next (encode i) s
  rw [issueAll_wordsOf_cons hu] at h
  have hue : u.err = 0#4 := by
    by_contra hne
    rw [issueAll_ignored his hne] at h
    exact hne (Host.Outcome.next.inj h ▸ ht)
  rw [issue_encode hr he] at hu
  exact ⟨u, commits_of_exec hu hue, h⟩

theorem encodesTo_of_issueAll (he : e.err = 0#4) (h : issueAll (wordsOf (encs syms ++ [.encflush])) e = .next s1)
    (h1 : s1.err = 0#4) : EncodesTo s1 e syms := by
  induction syms generalizing e with
  | nil =>
    obtain ⟨u, hu, hrest⟩ := commits_of_issueAll (is := []) rfl nofun he h h1
    obtain rfl := Host.Outcome.next.inj hrest
    exact .flush hu
  | cons sym syms ih =>
    obtain ⟨u, hu, hrest⟩ := commits_of_issueAll (i := .encsym sym) rfl (fun _ => encodesOrFlushes_of_mem) he h h1
    have hue : u.err = 0#4 := by cases hu; exact he
    exact .symbol hu (ih hue hrest)

/-! ### States that keep the invariants of a session -/

/-- The clauses of the invariant a session rests on. -/
structure SessionReady (s : State) : Prop where
  window : WindowLegal s
  memories : MemoriesCanonical s
  session : SessionLegal s
  decoder : DecoderLegal s

theorem SessionReady.commits (hs : SessionReady s) (h : Commits s i t) : SessionReady t := by
  obtain ⟨hw, hm, hses, hdec⟩ := hs
  obtain ⟨hses', hdec'⟩ := commits_sessions_legal hw hses hdec h
  exact ⟨commits_windowLegal hw h, commits_memoriesCanonical hm h, hses', hdec'⟩

theorem SessionReady.buffer (hs : SessionReady s) : Memory.wf Config.bufBits false s.buf := by
  obtain ⟨-, -, hbuf⟩ := hs.memories
  exact hbuf

theorem SessionReady.coding (hs : SessionReady s) (hp : s.phase ≠ .idle) : CodingLegal s :=
  sessionLegal_iff.1 hs.session hp

theorem SessionReady.decoding (hs : SessionReady s) (hp : s.phase = .dec) : DecodingLegal s :=
  decoderLegal_iff.1 hs.decoder hp

theorem nsym_lt_of_ne_max (h : s.nsym.toNat ≠ Config.nsymMax) : s.nsym.toNat < 65535 :=
  Nat.lt_of_le_of_ne (Nat.le_of_lt_succ s.nsym.isLt) h

/-- A symbol that `ENCSYM` encodes is projected inside the interval. -/
theorem projectSymbol_bounds (hs : CodingLegal s) (hv : (segmentOf s sym).valid = true) :
    s.l.toNat ≤ (projectSymbol s sym).1 ∧ (projectSymbol s sym).2 ≤ s.h.toNat := by
  obtain ⟨ht, hlow, hmid, -⟩ := hs
  exact ⟨le_project_fst _ _ _ _ _, project_snd_le (segment_bounds_of_tableOk ht hv).2 (by omega)⟩

theorem EncodesTo.ready (h : EncodesTo s1 e syms) (he : SessionReady e) : SessionReady s1 := by
  induction h with
  | flush h => exact he.commits h
  | symbol h _ ih => exact ih (he.commits h)

/-! ### What a run keeps and what it leaves -/

/-- What a session's run keeps and what it leaves: `W` and the table stay, the stream grows and keeps its bits, and
every symbol is counted. -/
structure EncodingFrame (s1 e : State) (syms : List Symbol) : Prop where
  w : s1.w = e.w
  seg : s1.seg = e.seg
  err : s1.err = e.err
  phase : s1.phase = .idle
  counted : s1.nsym.toNat = e.nsym.toNat + syms.length
  coded : s1.nsym.toNat ≠ 0
  longer : e.bitlen.toNat < s1.bitlen.toNat
  bits : ∀ a, a < e.bitlen.toNat → bitAt s1 a = bitAt e a

theorem EncodesTo.frame (h : EncodesTo s1 e syms) (he : SessionReady e) : EncodingFrame s1 e syms := by
  induction h with
  | flush h =>
    have hbuf := he.buffer
    cases h with | encflush _ hn hroom =>
    have hlen := (bitlen_appendBits hroom).trans (bitlen_add_length_terminator _)
    refine ⟨rfl, rfl, rfl, rfl, rfl, hn, ?_, fun a ha => ?_⟩
    · rw [setPhase_bitlen, hlen]
      omega
    · exact (bitAt_appendBits hbuf hroom a).trans (if_pos ha)
  | symbol h rest ih =>
    have hframe := ih (he.commits h)
    have hbuf := he.buffer
    cases h with | encsym _ _ hfewer _ hroom =>
    have hlen := bitlen_appendBits hroom
    obtain ⟨hw, hseg, herr, hphase, hcounted, hcoded, hlonger, hbits⟩ := hframe
    rw [codeSymbol_bitlen, hlen] at hlonger hbits
    refine ⟨hw, hseg, herr, hphase, ?_, hcoded, by omega, fun a ha => ?_⟩
    · rw [hcounted, List.length_cons, Nat.add_comm _ 1, ← Nat.add_assoc]
      exact congrArg (· + _) (toNat_add_one (nsym_lt_of_ne_max hfewer))
    · exact (hbits a (by omega)).trans ((bitAt_appendBits hbuf hroom a).trans (if_pos ha))

/-! ### The stream lets every symbol's projection go on -/

/-- The finished stream goes on from the encoder's `BITLEN` as its interval and its pending bits let it. -/
def StreamContinues (s1 e : State) : Prop :=
  Continues (bitAt s1) e.w.toNat e.bitlen.toNat e.te.toNat e.l.toNat e.h.toNat

/-- A 1 and zeros behind it are the midpoint, whatever is pending (43_encoder.md R166, R167). -/
theorem lookahead_midpoint {bit : Nat → Bool} {w cur te : Nat} (hw : 0 < w) (hone : bit cur = true)
    (hzeros : ∀ a, cur < a → bit a = false) : lookahead bit cur te w = 2 ^ (w - 1) := by
  obtain ⟨v, rfl⟩ := Nat.exists_eq_add_of_le' hw
  have hrest : packBits (unstuffed bit cur te) (0 + 1) v = packBits (fun _ => false) 0 v :=
    packBits_congr fun j _ => by
      rw [unstuffed_of_pos (by omega)]
      exact hzeros _ (by omega)
  rw [lookahead, packBits_cons, unstuffed_zero, hone, hrest, packBits_false, Bool.toNat_true, Nat.one_mul, Nat.add_zero,
    Nat.add_sub_cancel]

/-- The terminator sets the stream to the midpoint, which lies in every interval of a session. -/
theorem streamContinues_of_encflush (he : SessionReady e) (h : Commits e .encflush s1) : StreamContinues s1 e := by
  have hbuf := he.buffer
  have hwindow := he.window
  cases h with | encflush hp _ hroom =>
  obtain ⟨-, hlow, hmid, -⟩ := he.coding (by rw [hp]; decide)
  rw [rangeSize_eq_double hwindow, Nat.mul_div_cancel_left _ Nat.two_pos] at hlow hmid
  have hbits (a : Nat) : bitAt (setPhase .idle (appendBits (terminator e) e)) (e.bitlen.toNat + a) =
      (terminator e).getD a false := by
    refine (bitAt_appendBits hbuf hroom _).trans ?_
    rw [if_neg (by omega), Nat.add_sub_cancel_left]
  have hone : bitAt (setPhase .idle (appendBits (terminator e) e)) e.bitlen.toNat = true := hbits 0
  have hzeros (a : Nat) (ha : e.bitlen.toNat < a) :
      bitAt (setPhase .idle (appendBits (terminator e) e)) a = false := by
    obtain ⟨m, rfl⟩ := Nat.exists_eq_add_of_lt ha
    rw [Nat.add_assoc, hbits, terminator, List.getD_cons_succ, List.getD_eq_getElem?_getD,
      List.getElem?_getD_replicate_default_eq]
  have hlook := lookahead_midpoint (te := e.te.toNat) (Nat.zero_lt_of_lt hwindow.1) hone hzeros
  exact ⟨fun j _ => by rw [hone]; exact hzeros _ (by omega), hlook ▸ hlow.le, hlook ▸ hmid⟩

/-- A stream that goes on after a symbol went on before it, inside the symbol's projection. -/
theorem continues_projectSymbol (he : SessionReady e) (h : Commits e (.encsym sym) e')
    (hbits : ∀ a, a < e'.bitlen.toNat → bitAt s1 a = bitAt e' a) (hc : StreamContinues s1 e') :
    Continues (bitAt s1) e.w.toNat e.bitlen.toNat e.te.toNat (projectSymbol e sym).1 (projectSymbol e sym).2 := by
  have hbuf := he.buffer
  have hwindow := he.window
  cases h with | encsym hp hv hfewer hne hroom =>
  have hcoding := he.coding (by rw [hp]; decide)
  obtain ⟨-, hhigh⟩ := projectSymbol_bounds hcoding hv
  obtain ⟨hl, hh, hte, -, -⟩ := codeSymbol_toNat hwindow hcoding hv (nsym_lt_of_ne_max hfewer) hne
  have hlen := bitlen_appendBits hroom
  obtain ⟨-, -, -, hrange, -⟩ := hcoding
  refine Continues.before_renorm (since := e.since.toNat) hwindow.1 hne (hhigh.trans_lt hrange) (fun j hj => ?_) ?_
  · have hj' : j < (renormSymbol e sym).out.length := hj
    rw [hbits _ (by rw [codeSymbol_bitlen, hlen]; omega)]
    refine (bitAt_appendBits hbuf hroom _).trans ?_
    rw [if_neg (by omega), Nat.add_sub_cancel_left]
    exact List.getD_eq_getElem _ _ hj
  · have hend : Continues (bitAt s1) e.w.toNat (e.bitlen.toNat + (renormSymbol e sym).out.length)
        (renormSymbol e sym).te (renormSymbol e sym).l (renormSymbol e sym).h := by
      rw [← hlen, ← hte, ← hl, ← hh]
      exact hc
    exact hend

/-- At every symbol of an error-free session the finished stream goes on as the encoder's interval lets it. -/
theorem EncodesTo.streamContinues (h : EncodesTo s1 e syms) (he : SessionReady e) : StreamContinues s1 e := by
  induction h with
  | flush h => exact streamContinues_of_encflush he h
  | symbol h rest ih =>
    have he' := he.commits h
    have hc := continues_projectSymbol he h (rest.frame he').bits (ih he')
    cases h with | encsym hp hv _ _ _ =>
    obtain ⟨hlow, hhigh⟩ := projectSymbol_bounds (he.coding (by rw [hp]; decide)) hv
    exact hc.mono hlow hhigh

/-! ### The decoder along the stream -/

/-- A lookahead in the projection of a present symbol decodes to that symbol (41_interval_narrowing.md R133, R134). -/
theorem segmentAt_of_mem_projectSymbol (ht : tableOk d = true) (hv : (segmentOf d sym).valid = true)
    (hl : d.l.toNat ≤ d.v.toNat) (hlow : (projectSymbol d sym).1 ≤ d.v.toNat)
    (hhigh : d.v.toNat ≤ (projectSymbol d sym).2) :
    segmentAt d (position (rangeSize d) d.v.toNat d.l.toNat d.h.toNat) = some sym := by
  have hlo := (project_fst_le_iff (rangeSize_pos d) hl).1 hlow
  have hhi := (le_project_snd_iff (rangeSize_pos d) hl).1 hhigh
  obtain ⟨o, ho, -, -, -, huniq⟩ :=
    segmentAtFindsTheOneSegment d _ ht (hhi.trans_lt (segment_bounds_of_tableOk ht hv).2)
  rw [ho, huniq sym hv hlo hhi]

/-- The decoder `d` of the finished stream stands where the encoder stood at `e`, with `n` symbols to decode. -/
structure DecodesAlong (s1 e d : State) (n : Nat) : Prop where
  noError : d.err = 0#4
  ready : SessionReady d
  phase : d.phase = if n = 0 then .idle else .dec
  left : d.drem.toNat = n
  coding : SameCoding e d
  bits : bitAt d = bitAt s1
  bitlen : d.bitlen = s1.bitlen
  cursor : d.cursor.toNat = e.bitlen.toNat
  v : d.v.toNat = lookahead (bitAt s1) e.bitlen.toNat e.te.toNat e.w.toNat

theorem DecodesAlong.phase_eq_dec (hd : DecodesAlong s1 e d (n + 1)) : d.phase = .dec :=
  hd.phase.trans (if_neg n.succ_ne_zero)

/-- The decoder decodes the symbol that the encoder encoded. -/
theorem DecodesAlong.commits (hd : DecodesAlong s1 e d (n + 1)) (hv : (segmentOf e sym).valid = true)
    (hlen : e.bitlen.toNat ≤ s1.bitlen.toNat)
    (hc : Continues (bitAt s1) e.w.toNat e.bitlen.toNat e.te.toNat (projectSymbol e sym).1 (projectSymbol e sym).2) :
    Commits d .decsym (decsymCommit sym d) := by
  have hp := hd.phase_eq_dec
  have hcoding := hd.ready.coding (by rw [hp]; decide)
  rw [← segmentOf_congr hd.coding.seg] at hv
  obtain ⟨-, hlow, hhigh⟩ := hc
  rw [← hd.v, ← hd.coding.projectSymbol] at hlow hhigh
  obtain ⟨hl, hh⟩ := projectSymbol_bounds hcoding hv
  obtain ⟨ht, -⟩ := hcoding
  exact .decsym hp (by rw [hd.cursor, hd.bitlen]; exact hlen) (hl.trans hlow) (hhigh.trans hh)
    (segmentAt_of_mem_projectSymbol ht hv (hl.trans hlow) hlow hhigh)

/-- After a symbol the decoder stands where the encoder stands. -/
theorem DecodesAlong.next (hd : DecodesAlong s1 e d (n + 1)) (he : SessionReady e) (h : Commits e (.encsym sym) e')
    (hdec : Commits d .decsym (decsymCommit sym d)) : DecodesAlong s1 e' (decsymCommit sym d) n := by
  have hp := hd.phase_eq_dec
  have hwindow := hd.ready.window
  have hdecoding := hd.ready.decoding hp
  have hw := he.window
  have hleft := hd.left
  cases h with | encsym hpe hv hfewer hne hroom =>
  obtain ⟨-, -, hte, -, -⟩ := codeSymbol_toNat hw (he.coding (by rw [hpe]; decide)) hv (nsym_lt_of_ne_max hfewer) hne
  obtain ⟨hv', -, -, hdrem⟩ := decsymCommit_toNat (sym := sym) hwindow hdecoding
  have hcursor := hd.coding.cursor_add_bitlen hwindow hdecoding sym hroom
  obtain ⟨hcount, -⟩ := renormSymbol_counters e sym
  obtain ⟨-, -, -, htied, -⟩ := hdecoding
  rw [hd.cursor, hd.coding.w, hd.coding.te] at htied
  have hlen := bitlen_appendBits hroom
  refine ⟨(decsymCommit_err sym d).trans hd.noError, hd.ready.commits hdec, ?_, by omega, hd.coding.code sym _, ?_,
    (decsymCommit_bitlen sym d).trans hd.bitlen, ?_, ?_⟩
  · rw [decsymCommit_phase hp, hleft]
    exact if_congr (Nat.succ_inj (b := 0)) rfl rfl
  · rw [bitAt_congr (decsymCommit_buf sym d) (decsymCommit_bitlen sym d), hd.bits]
  · rw [codeSymbol_bitlen]
    rw [hd.cursor] at hcursor
    omega
  · rw [hv', hd.bits, hd.v, hd.coding.w, hd.coding.renormSymbol, advance_lookahead hw.1 htied hcount,
      codeSymbol_bitlen, codeSymbol_w, appendBits_w, hlen, length_renormSymbol_out]
    exact congrArg (lookahead _ _ · _) hte.symm

theorem exec_decsym_of_commits (h : Commits d .decsym t) : exec .decsym d = .next t := by
  cases h with | decsym hp hc hl hh hf =>
  exact exec_ok rfl (congrArg some hp.symm) (decsymOwn_ok hc hl hh hf)

/-- The decoder gives back the symbols of an error-free session. -/
theorem EncodesTo.decodedSymbols (h : EncodesTo s1 e syms) (he : SessionReady e)
    (hd : DecodesAlong s1 e d syms.length) :
    ∃ s3, decodedSymbols syms.length d = some (syms, s3) ∧ s3.phase = .idle := by
  induction h generalizing d with
  | flush => exact ⟨d, rfl, hd.phase⟩
  | @symbol e e' sym syms h rest ih =>
    have he' := he.commits h
    have hc := continues_projectSymbol he h (rest.frame he').bits (rest.streamContinues he')
    have hlen := ((EncodesTo.symbol h rest).frame he).longer.le
    have hv : (segmentOf e sym).valid = true := by cases h; assumption
    have hdec := hd.commits hv hlen hc
    have hnext := hd.next he h hdec
    obtain ⟨s3, hs3, hidle⟩ := ih he' hnext
    refine ⟨s3, ?_, hidle⟩
    have hissue := (issue_encode rfl hd.noError).trans (exec_decsym_of_commits hdec)
    rw [List.length_cons, decodedSymbols_succ hissue, if_pos hnext.noError, hs3]
    rfl

/-! ### The session as a whole -/

/-- The state after `ENCSTART` (43_encoder.md R161). -/
def encoderStart (s : State) : State := setPhase .enc (emptyBuffer (startCoding s))

/-- `DECSTART` over the finished stream opens the decoder that stands where `ENCSTART` left the encoder. -/
theorem decodesAlong_decstart {count : Imm} (hf : EncodingFrame s1 (encoderStart s) syms) (hr : SessionReady s1)
    (he : s1.err = 0#4) (ht : tableOk s1 = true) (hcount : count.toNat = syms.length) (hne : syms.length ≠ 0) :
    DecodesAlong s1 (encoderStart s) (decstartCommit count s1) syms.length := by
  obtain ⟨-, hv, -⟩ := decstartCommit_toNat hr.window count
  have hw : s1.w = s.w := hf.w
  have hseg : s1.seg = s.seg := hf.seg
  refine ⟨he, hr.commits (.decstart hf.phase (hcount ▸ hne) ht), (if_neg hne).symm, hcount,
    ⟨hw, hseg, rfl, ?_, rfl, rfl⟩, rfl, rfl, rfl, ?_⟩
  · exact congrArg (fun r => BitVec.ofNat 16 (r - 1)) (rangeSize_congr hw)
  · rw [hv, firstWindow_eq_packBits, ← lookahead_of_none_pending, hw]
    rfl

/-- Settles O44: the error-free session commits every command, its stream goes on inside every symbol's projection, and
the decoder opened over it follows the encoder symbol by symbol. -/
theorem decodingUndoesEncoding : Obligations.DecodingUndoesEncoding := by
  intro syms s s1 ⟨hw, _, hm, _, _, hs, hd, _⟩ hp he h h1
  have hready : SessionReady s := ⟨hw, hm, hs, hd⟩
  obtain ⟨e, hstart, hrest⟩ := commits_of_issueAll rfl (fun _ => encodesOrFlushes_of_mem) he h h1
  have heready := hready.commits hstart
  cases hstart with | encstart _ ht =>
  have hrun := encodesTo_of_issueAll (e := encoderStart s) he hrest h1
  have hframe := hrun.frame heready
  have hcounted : s1.nsym.toNat = syms.length := hframe.counted.trans (Nat.zero_add _)
  have hne : syms.length ≠ 0 := hcounted ▸ hframe.coded
  have hcount : (BitVec.ofNat 16 syms.length).toNat = syms.length :=
    toNat_ofNat_of_lt (hcounted ▸ s1.nsym.isLt)
  have ht1 : tableOk s1 = true := (tableOk_congr hframe.seg hframe.w).trans ht
  have hopen := decodesAlong_decstart hframe (hrun.ready heready) h1 ht1 hcount hne
  obtain ⟨s3, hs3, hidle⟩ := hrun.decodedSymbols heready hopen
  have hissue := (issue_encode (i := .decstart (BitVec.ofNat 16 syms.length)) rfl h1).trans
    (exec_ok rfl (congrArg some hframe.phase.symm) (decstartOwn_ok (hcount.trans_ne hne) ht1))
  exact ⟨_, s3, hissue, hopen.noError, hs3, hidle⟩

end Sys2Proof.Machine
end

section
/-! PROOFS. The bit buffer commands: emptying the buffer, appending a few bits, and loading a whole bitstring
(45_bit_buffer.md R200 to R202). -/

namespace Sys2Proof.Machine

open Claims

variable {s : State} {n : BitVec 8} {bits : Imm}

/-! ### `BUFCLR` (45_bit_buffer.md R200) -/

theorem bitAt_emptyBuffer (s : State) : bitAt (emptyBuffer s) = fun _ => false :=
  funext fun i => bitAt_of_ge i.zero_le

theorem bufWord_emptyBuffer (s : State) (j : Nat) : bufWord (emptyBuffer s) j = 0#32 := by
  rw [bufWord, bitAt_emptyBuffer, packBits_false]

/-- Settles O46: `BUFCLR` writes `BITLEN` alone, and past `BITLEN` the read window shows zeros. -/
theorem bufclrEmptiesTheBuffer : Obligations.BufclrEmptiesTheBuffer :=
  ⟨by decide, onlyIn_of_requiredPhase rfl rfl, fun s hp =>
    ⟨_, exec_ok rfl (congrArg some hp.symm) rfl, rfl, fun _ => rfl,
      fun j hj => (readPort_window _ hj).trans (bufWord_emptyBuffer s j), rfl⟩⟩

/-! ### `BUFPUT` (45_bit_buffer.md R201) -/

/-- The `j`-th of the `n` bits appended is bit `n-1-j` of the operand. -/
theorem getElem_bitsMsbFirst {x n j : Nat} (h : j < (bitsMsbFirst x n).length) :
    (bitsMsbFirst x n)[j] = x.testBit (n - 1 - j) := by
  induction n generalizing j with
  | zero => exact absurd h (Nat.not_lt_zero j)
  | succ n ih =>
    cases j with
    | zero => rfl
    | succ j =>
      have hj : n + 1 - 1 - (j + 1) = n - 1 - j := by omega
      rw [hj]
      exact ih (Nat.lt_of_succ_lt_succ h)

theorem operandInRange_bufput :
    operandInRange (.bufput n bits) = true ↔ 1 ≤ n.toNat ∧ n.toNat ≤ 16 ∧ bits.toNat < 2 ^ n.toNat := by
  simp only [operandInRange, Bool.and_eq_true, decide_eq_true_eq, and_assoc]

/-- In `IDLE`, operands in range and bits that fit make `BUFPUT` one `Append`. -/
theorem exec_bufput_ok (hr : operandInRange (.bufput n bits) = true) (hp : s.phase = .idle)
    (hfit : s.bitlen.toNat + n.toNat ≤ Config.bufBits) :
    exec (.bufput n bits) s = .next (appendBits (bitsMsbFirst bits.toNat n.toNat) s) :=
  exec_ok hr (congrArg some hp.symm) (if_pos ((fits_iff _).2 hfit))

theorem exec_bufput_no_room (hr : operandInRange (.bufput n bits) = true) (hp : s.phase = .idle)
    (hroom : Config.bufBits < s.bitlen.toNat + n.toNat) :
    exec (.bufput n bits) s = .next (raise .capacityBuffer (encode (.bufput n bits)) s) :=
  exec_error hr (congrArg some hp.symm) (if_neg (ne_true_of_eq_false ((fits_eq_false_iff _).2 hroom)))

/-- Settles O47: a word with an operand out of range fails decoding; in range the command is one `Append` of the bits,
when they fit. -/
theorem bufputAppendsTheHighestBitFirst : Obligations.BufputAppendsTheHighestBitFirst := by
  intro n bits
  refine ⟨by simp [encode_toNat, opcodeOf, symOf, immOf], fun hout s he => ?_, fun hone hmax hbits => ?_⟩
  · have hr := Bool.eq_false_iff.2 (mt operandInRange_bufput.1 hout)
    exact issue_of_decode_error he (decode_encode_out_of_range hr)
  · have hr := operandInRange_bufput.2 ⟨hone, hmax, hbits⟩
    refine ⟨onlyIn_of_requiredPhase hr rfl, fun s hp =>
      ⟨exec_bufput_no_room hr hp, fun hfit ⟨_, _, hbuf⟩ => ⟨_, exec_bufput_ok hr hp hfit, ?_⟩⟩⟩
    have hlen := length_bitsMsbFirst bits.toNat n.toNat
    refine ⟨?_, fun j hj => ?_, fun a ha => cell_appendBits_outside (by rwa [hlen]), rfl⟩
    · rw [bitlen_appendBits (by rwa [hlen]), hlen]
    · rw [cell_appendBits_inside hbuf (by rwa [hlen]), getElem_bitsMsbFirst, BitVec.testBit_toNat]

/-! ### `LOADBITS` (45_bit_buffer.md R202; 30_encoding.md R91) -/

theorem writeBits_append (m : Memory Bool) (a : Nat) (xs ys : BitString) :
    writeBits m a (xs ++ ys) = writeBits (writeBits m a xs) (a + xs.length) ys := by
  induction xs generalizing m a with
  | nil => rfl
  | cons b xs ih => rw [List.cons_append, writeBits, ih, writeBits, List.length_cons, Nat.add_right_comm, Nat.add_assoc]

theorem appendBits_nil (s : State) : appendBits [] s = s := by
  rw [appendBits, writeBits, List.length_nil, Nat.add_zero, BitVec.ofNat_toNat, BitVec.setWidth_eq]

/-- Two `Append`s in turn are one (20_memory.md R63). -/
theorem appendBits_append {xs : BitString} (hfit : s.bitlen.toNat + xs.length ≤ Config.bufBits) (ys : BitString) :
    appendBits ys (appendBits xs s) = appendBits (xs ++ ys) s := by
  rw [appendBits, appendBits_buf, bitlen_appendBits hfit, ← writeBits_append, Nat.add_assoc, ← List.length_append]
  rfl

/-- A chunk's number is the chunk read as a stream, the first bit most significant. -/
theorem chunkValue_eq_packBits (chunk : BitString) :
    chunkValue chunk = packBits (chunk.getD · false) 0 chunk.length := by
  induction chunk with
  | nil => rfl
  | cons b chunk ih =>
    rw [chunkValue, ih, List.length_cons, packBits_cons]
    exact congrArg _ (packBits_congr fun j _ => by rw [Nat.zero_add, Nat.add_comm, List.getD_cons_succ])

theorem chunkValue_lt (chunk : BitString) : chunkValue chunk < 2 ^ chunk.length := by
  rw [chunkValue_eq_packBits]
  exact packBits_lt _ _ _

/-- Neither operand of a chunk's `BUFPUT` wraps in its field. -/
theorem putChunk_operands_toNat {chunk : BitString} (hshort : chunk.length ≤ 16) :
    (BitVec.ofNat 8 chunk.length).toNat = chunk.length ∧
      (BitVec.ofNat 16 (chunkValue chunk)).toNat = chunkValue chunk :=
  ⟨toNat_ofNat_of_lt (by omega),
    toNat_ofNat_of_lt ((chunkValue_lt chunk).trans_le (Nat.pow_le_pow_right Nat.two_pos hshort))⟩

theorem operandInRange_putChunk {chunk : BitString} (hne : chunk ≠ []) (hshort : chunk.length ≤ 16) :
    operandInRange (putChunk chunk) = true := by
  obtain ⟨hn, hbits⟩ := putChunk_operands_toNat hshort
  rw [putChunk, operandInRange_bufput, hn, hbits]
  exact ⟨List.length_pos_iff.2 hne, hshort, chunkValue_lt chunk⟩

/-- The bits `BUFPUT` takes from a chunk's number are the chunk. -/
theorem bitsMsbFirst_chunkValue (chunk : BitString) : bitsMsbFirst (chunkValue chunk) chunk.length = chunk := by
  refine List.ext_getElem (length_bitsMsbFirst _ _) fun j _ hj => ?_
  rw [getElem_bitsMsbFirst, chunkValue_eq_packBits, testBit_packBits _ _ hj, Nat.zero_add,
    List.getD_eq_getElem _ _ hj]

/-- The `BUFPUT` of a chunk appends the chunk. -/
theorem issue_putChunk {chunk : BitString} (hne : chunk ≠ []) (hshort : chunk.length ≤ 16) (hp : s.phase = .idle)
    (he : s.err = 0#4) (hfit : s.bitlen.toNat + chunk.length ≤ Config.bufBits) :
    issue (encode (putChunk chunk)) s = .next (appendBits chunk s) := by
  have hr := operandInRange_putChunk hne hshort
  obtain ⟨hn, hbits⟩ := putChunk_operands_toNat hshort
  rw [issue_encode hr he, putChunk, exec_bufput_ok hr hp (by rwa [hn]), hn, hbits, bitsMsbFirst_chunkValue]

theorem putChunks_succ {str : BitString} (hne : str ≠ []) (fuel : Nat) :
    putChunks (fuel + 1) str = putChunk (str.take 16) :: putChunks fuel (str.drop 16) :=
  if_neg (mt List.isEmpty_iff.1 hne)

/-- The chunks of a bitstring that fits append it whole. -/
theorem issueAll_putChunks {fuel : Nat} {str : BitString} (hfuel : str.length ≤ fuel) (hp : s.phase = .idle)
    (he : s.err = 0#4) (hfit : s.bitlen.toNat + str.length ≤ Config.bufBits) :
    issueAll (wordsOf (putChunks fuel str)) s = .next (appendBits str s) := by
  induction fuel generalizing s str with
  | zero =>
    obtain rfl := List.eq_nil_of_length_eq_zero (Nat.le_zero.1 hfuel)
    exact congrArg _ (appendBits_nil s).symm
  | succ fuel ih =>
    rcases eq_or_ne str [] with rfl | hne
    · exact congrArg _ (appendBits_nil s).symm
    · have hpos := List.length_pos_iff.2 hne
      have htake := List.length_take (i := 16) (l := str)
      have hdrop := List.length_drop (i := 16) (l := str)
      have hhead := issue_putChunk (chunk := str.take 16) (List.length_pos_iff.1 (by omega)) (by omega) hp he (by omega)
      have hgrown := bitlen_appendBits (s := s) (bits := str.take 16) (by omega)
      have htail := ih (s := appendBits (str.take 16) s) (str := str.drop 16) (by omega) hp he (by omega)
      rw [putChunks_succ hne, issueAll_wordsOf_cons hhead, htail, appendBits_append (by omega), List.take_append_drop]

/-- Settles O48: `BUFCLR` and the chunks in turn are one `Append` to the emptied buffer. -/
theorem loadbitsLoadsTheBitstring : Obligations.LoadbitsLoadsTheBitstring := by
  intro bits s hlen hp he ⟨_, _, hbuf⟩
  have hfit : (emptyBuffer s).bitlen.toNat + bits.length ≤ Config.bufBits := (Nat.zero_add _).trans_le hlen
  have hclr : issue (encode .bufclr) s = .next (emptyBuffer s) :=
    (issue_encode rfl he).trans (exec_ok rfl (congrArg some hp.symm) rfl)
  refine ⟨appendBits bits (emptyBuffer s), ?_, he, ?_, fun i hi => ?_, rfl⟩
  · rw [loadbits, issueAll_wordsOf_cons hclr, issueAll_putChunks (s := emptyBuffer s) le_rfl hp he hfit]
  · exact (bitlen_appendBits hfit).trans (Nat.zero_add _)
  · have hread := bitAt_appendBits (s := emptyBuffer s) hbuf hfit i
    exact (hread.trans (if_neg (Nat.not_lt_zero i))).trans (List.getD_eq_getElem _ _ hi)

end Sys2Proof.Machine
end

section
/-! PROOFS. The control commands: which of them pass the error-state gate, what each commits, and which commands move
`PHASE` (46_control.md R210 to R217). -/

namespace Sys2Proof.Machine

open Claims

variable {i : Instr} {s t : State} {w v : Word} {imm : Imm}

/-! ### Words at the gate (60_exceptions.md R233) -/

/-- With an error recorded, every word but the exact `RESET` and `CLRERR` is ignored. -/
theorem issue_in_error_state (he : s.err ≠ 0#4) (hreset : w ≠ 0x01000000#32) (hclrerr : w ≠ 0x02000000#32) :
    issue w s = .next s :=
  if_pos (by simp [gated, he, hreset, hclrerr])

/-- The word of a command whose operands are in range runs that command when the gate lets it through. -/
theorem issue_encode_of_not_gated (hr : operandInRange i = true) (hg : gated (encode i) s = false) :
    issue (encode i) s = exec i s := by
  rw [issue, hg, if_neg Bool.false_ne_true, execute, decode_encode hr]

/-- A command without operands has one word; another word with its opcode has a nonzero field the command does not use
(30_encoding.md R86). -/
theorem nonzeroUnusedField_of_other_word (ho : opc w ∈ opcodesF0) (hv : v.toNat = opc w * 0x1000000) (hne : w ≠ v) :
    NonzeroUnusedField w := by
  have hfield : symBits w ≠ 0 ∨ immBits w ≠ 0 := by
    have hnat : w.toNat ≠ v.toNat := mt BitVec.eq_of_toNat_eq hne
    unfold opc at hv
    unfold symBits immBits
    omega
  exact hfield.imp (fun hsym => ⟨.inl ho, hsym⟩) fun himm => ⟨.inl ho, himm⟩

/-- Such a word raises `ILLEGAL.2` with no error recorded, and is ignored otherwise. -/
theorem issue_other_word (ho : opc w ∈ opcodesF0) (hv : v.toNat = opc w * 0x1000000) (hne : w ≠ v) (s : State) :
    (s.err = 0#4 → issue w s = .next (withError s 4 2 w)) ∧ (s.err ≠ 0#4 → issue w s = .next s) := by
  refine ⟨fun he => ?_, fun he => issue_in_error_state he ?_ ?_⟩
  · exact (nonzeroUnusedFieldsRaiseIllegalTwo w).2 s he (nonzeroUnusedField_of_other_word ho hv hne)
  · rintro rfl; exact hne (BitVec.eq_of_toNat_eq hv.symm)
  · rintro rfl; exact hne (BitVec.eq_of_toNat_eq hv.symm)

/-! ### The phase-free commands (46_control.md R210 to R213) -/

/-- A command legal in every phase answers what its own part commits. -/
theorem exec_phase_free (hr : operandInRange i = true) (hq : requiredPhase i = none) (h : ownPart i s = .ok t) :
    exec i s = .next t := by
  rw [exec_eq_perform]
  exact perform_ok hr (by rw [legalIn, hq]) h

/-- Settles O15: `RESET` passes the gate and commits the reset of `rst`. -/
theorem resetCommandRestoresTheResetState : Obligations.ResetCommandRestoresTheResetState := by
  have hword : encode .reset = 0x01000000#32 := by decide
  have hexec (s : State) : exec .reset s = .next (hardReset s) := exec_phase_free rfl rfl rfl
  refine ⟨hword, fun s => ⟨hexec s, ?_⟩, fun p j hrst => ⟨_, hexec p.core, ?_⟩, fun s w ho hne => ?_⟩
  · rw [← hword, issue_encode_of_not_gated rfl (by simp [gated, hword])]
    exact hexec s
  · rw [clockEdge_rst hrst]
  · exact issue_other_word (by rw [ho]; decide) (by rw [ho]; rfl) hne s

/-- Legal error registers with no error recorded are all 0 (60_exceptions.md R231; 10_state.md R26). -/
theorem clearError_of_no_error (hlegal : ErrorRegistersLegal s) (he : s.err = 0#4) : clearError s = s := by
  obtain ⟨hpair, hcmd⟩ := hlegal
  have honly : ∀ sub : BitVec 4, (0#4, sub) ∈ errorPairs → sub = 0#4 := by decide
  have hsub := honly s.sub (he ▸ hpair)
  have herrcmd := hcmd he
  cases s
  cases he; cases hsub; cases herrcmd
  rfl

/-- Settles O16: `CLRERR` passes the gate and writes the three error registers, which with no error are 0 already. -/
theorem clrerrReturnsFromTheErrorState : Obligations.ClrerrReturnsFromTheErrorState := by
  have hword : encode .clrerr = 0x02000000#32 := by decide
  have hexec (s : State) : exec .clrerr s = .next (clearError s) := exec_phase_free rfl rfl rfl
  refine ⟨hword, fun s => ⟨hexec s, ?_⟩, fun s w ho hne => ?_, fun s hlegal he => ?_⟩
  · rw [← hword, issue_encode_of_not_gated rfl (by simp [gated, hword])]
    exact hexec s
  · exact issue_other_word (by rw [ho]; decide) (by rw [ho]; rfl) hne s
  · rw [hexec, clearError_of_no_error hlegal he]

/-- Settles O17: `NOP` commits the state it finds and `ABORT` the phase alone; the gate stops both. -/
theorem nopChangesNothingAndAbortEndsTheSession : Obligations.NopChangesNothingAndAbortEndsTheSession := by
  have hnop : encode .nop = 0x00000000#32 := by decide
  refine ⟨hnop, by decide, fun w h => ?_, fun s => exec_phase_free rfl rfl rfl, fun s => exec_phase_free rfl rfl rfl,
    fun s he => ⟨issue_in_error_state he (by decide) (by decide), issue_in_error_state he (by decide) (by decide)⟩,
    fun s => (issue_other_word (v := 0) (by decide) rfl (by decide) s).1⟩
  obtain ⟨hw, -⟩ := decode_eq_ok_iff.1 h
  exact hw.symm.trans hnop

/-! ### `SETW` (46_control.md R215) -/

theorem operandInRange_setw : operandInRange (.setw imm) = true ↔ 2 ≤ imm.toNat ∧ imm.toNat ≤ 16 := by
  simp only [operandInRange, Bool.and_eq_true, decide_eq_true_eq]

/-- Settles O18: an operand in range fits `W`, and a word with any other operand fails decoding. -/
theorem setwSetsTheWindow : Obligations.SetwSetsTheWindow := by
  intro imm
  refine ⟨by simp [encode_toNat, opcodeOf, symOf, immOf], fun hin => ?_, fun hout s he => ?_⟩
  · have hr := operandInRange_setw.2 hin
    exact ⟨onlyIn_of_requiredPhase hr rfl, fun s hp =>
      ⟨_, exec_ok hr (congrArg some hp.symm) rfl, windowOperand_toNat hin.2, rfl⟩⟩
  · have hr := Bool.eq_false_iff.2 (mt operandInRange_setw.1 hout)
    exact issue_of_decode_error he (decode_encode_out_of_range hr)

/-! ### The commands that move `PHASE` (46_control.md R217) -/

/-- A command that commits records no error. -/
theorem commits_noError (he : s.err = 0#4) (h : Commits s i t) : t.err = 0#4 := by
  cases h with
  | reset | clrerr => rfl
  | nop | abort | setw | cntclr | cnt | build | segclr | seglo | seghi | bufclr | bufput | encstart | encsym
  | encflush | decstart | decsym => simpa using he

/-- The moves of `PHASE`, and the commands that make them. -/
def MovesPhase (i : Instr) (s t : State) : Prop :=
  (i = .encstart ∧ s.phase = .idle ∧ t.phase = .enc) ∨ (i = .encflush ∧ s.phase = .enc ∧ t.phase = .idle) ∨
    ((∃ n, i = .decstart n) ∧ s.phase = .idle ∧ t.phase = .dec) ∨
    (i = .decsym ∧ s.phase = .dec ∧ t.phase = .idle ∧ t.drem = 0#16) ∨
    (i = .abort ∧ t.phase = .idle) ∨ (i = .reset ∧ t.phase = .idle)

/-- The last symbol ends a decoding session, and every other leaves `PHASE` as it was (44_decoder.md R187). -/
theorem phase_decsymCommit_of_last {sym : Symbol} (hlast : (decsymCommit sym s).drem = 0#16) :
    (decsymCommit sym s).phase = .idle := if_pos hlast

theorem phase_decsymCommit_of_not_last {sym : Symbol} (hmore : (decsymCommit sym s).drem ≠ 0#16) :
    (decsymCommit sym s).phase = s.phase := if_neg hmore

/-- Every commit that moves `PHASE` is one of the six; the others write no phase. -/
theorem movesPhase_of_commits (h : Commits s i t) (hmoved : t.phase ≠ s.phase) : MovesPhase i s t := by
  cases h with
  | encstart hidle => exact .inl ⟨rfl, hidle, rfl⟩
  | encflush henc => exact .inr (.inl ⟨rfl, henc, rfl⟩)
  | decstart hidle => exact .inr (.inr (.inl ⟨⟨_, rfl⟩, hidle, rfl⟩))
  | decsym hdec =>
    have hlast := not_imp_comm.1 phase_decsymCommit_of_not_last hmoved
    exact .inr (.inr (.inr (.inl ⟨rfl, hdec, phase_decsymCommit_of_last hlast, hlast⟩)))
  | abort => exact .inr (.inr (.inr (.inr (.inl ⟨rfl, rfl⟩))))
  | reset => exact .inr (.inr (.inr (.inr (.inr ⟨rfl, rfl⟩))))
  | nop | clrerr | setw | cntclr | cnt | build | segclr | seglo | seghi | bufclr | bufput | encsym =>
    exact absurd rfl hmoved

/-- Settles O12: an error leaves `PHASE`, and a command that completes has committed. -/
theorem onlySessionCommandsMoveThePhase : Obligations.OnlySessionCommandsMoveThePhase := by
  intro i s t he h
  refine ⟨fun hmoved => ?_, fun hte => ?_⟩
  · obtain ⟨e, rfl⟩ | hc := exec_cases h
    · exact absurd rfl hmoved
    · exact ⟨commits_noError he hc, movesPhase_of_commits hc hmoved⟩
  · have hc := commits_of_exec h hte
    refine ⟨?_, ?_, ?_, ?_, ?_, ?_⟩
    · rintro rfl; cases hc; rfl
    · rintro rfl; cases hc; rfl
    · rintro ⟨n, rfl⟩; cases hc; rfl
    · rintro rfl hlast; cases hc; exact phase_decsymCommit_of_last hlast
    · rintro rfl; cases hc; rfl
    · rintro rfl; cases hc; rfl

end Sys2Proof.Machine
end

section
/-! PROOFS. The step and the errors (60_exceptions.md): what passes the error-state gate, what a recorded error leaves as
it was, and the phases a command is legal in. -/

namespace Sys2Proof.Machine

open Claims

variable {i : Instr} {s t : State} {w : Word} {e : ErrorCode} {p : Phase}

/-! ### The step and the gate (60_exceptions.md R230, R233) -/

/-- The gate is open when no error is recorded, and open to the words of `RESET` and `CLRERR` always. -/
theorem gated_encode_eq_false (h : s.err = 0#4 ∨ i = .reset ∨ i = .clrerr) : gated (encode i) s = false := by
  have hreset : encode .reset = 0x01000000#32 := by decide
  have hclrerr : encode .clrerr = 0x02000000#32 := by decide
  obtain he | rfl | rfl := h
  · exact gated_eq_false he
  · simp [gated, hreset]
  · simp [gated, hclrerr]

/-- A step does with the next word what `issue` does, and moves the index past it. -/
theorem step_eq_next (hw : s.program[s.pc]? = some w) (h : issue w s = .next t) :
    step s = .next { t with pc := t.pc + 1 } := by
  rw [step_of_command hw, h]
  rfl

/-- Settles O7: a word that decodes is the encoding of its command, which the open gate lets through. -/
theorem stepRunsTheDecodedCommand : Obligations.StepRunsTheDecodedCommand := by
  intro s t w i hw hd hopen h
  obtain ⟨rfl, hr⟩ := decode_eq_ok_iff.1 hd
  exact step_eq_next hw ((issue_encode_of_not_gated hr (gated_encode_eq_false hopen)).trans h)

/-- Settles O8: the gate ignores every word but two, which act in every state. -/
theorem errorStateIgnoresOtherWords : Obligations.ErrorStateIgnoresOtherWords := by
  intro s he
  obtain ⟨-, hreset, -⟩ := resetCommandRestoresTheResetState
  obtain ⟨-, hclrerr, -⟩ := clrerrReturnsFromTheErrorState
  refine ⟨fun w hnr hnc => ?_, (hreset s).2, (hclrerr s).2⟩
  have hignored := issue_in_error_state he hnr hnc
  exact ⟨hignored, fun hw => step_eq_next hw hignored⟩

/-! ### Recording an error (60_exceptions.md R232) -/

/-- A word that leaves an error recorded where there was none has raised it: it failed decoding, or its command did not
commit. -/
theorem exists_eq_raise_of_issue (he : s.err = 0#4) (h : issue w s = .next t) (hte : t.err ≠ 0#4) :
    ∃ e, t = raise e w s := by
  cases hd : decode w with
  | error d => exact ⟨_, (Host.Outcome.next.inj ((issue_of_decode_error he hd).symm.trans h)).symm⟩
  | ok i =>
    obtain ⟨rfl, hr⟩ := decode_eq_ok_iff.1 hd
    exact (exec_cases ((issue_encode hr he).symm.trans h)).resolve_right fun hc => hte (commits_noError he hc)

/-- Settles O10: the raised state is the old one but for the error registers, which hold a listed pair and the word. -/
theorem errorsChangeOnlyTheErrorRegisters : Obligations.ErrorsChangeOnlyTheErrorRegisters := by
  intro w s t he h hte
  obtain ⟨e, rfl⟩ := exists_eq_raise_of_issue he h hte
  obtain ⟨hpair, -⟩ := raise_errorRegistersLegal e w s
  exact ⟨rfl, hpair, subBits_ne_zero e⟩

/-! ### The phases of a command (60_exceptions.md R236) -/

/-- The listed phases are those the check of the phase lets through. -/
theorem mem_phasesOf_iff : p ∈ phasesOf i ↔ legalIn i p = true := by
  cases i with
  | nop | reset | clrerr | abort => cases p <;> decide
  | setw | cntclr | cnt | build | segclr | seglo | seghi | bufclr | bufput | encstart | decstart | encsym | encflush
  | decsym => simp [phasesOf, legalIn, requiredPhase]

/-- `ERR` 5 is the code of `SEQUENCE.1` alone (60_exceptions.md R231). -/
theorem eq_sequencePhase_of_errBits (h : e.errBits = 5#4) : e = .sequencePhase := by
  cases e with
  | sequencePhase => rfl
  | invalidEmpty | invalidZeroWidth | invalidNoSegment | invalidTable | precisionAlphabet | precisionCollapse
  | corruptNoSegment | corruptEnd | illegalOpcode | illegalField | illegalOperand | capacityBuffer | capacityCount =>
    cases h

/-- No command raises `SEQUENCE` of its own: the check of the phase precedes its own part (60_exceptions.md R235). -/
theorem ownPart_ne_sequencePhase (i : Instr) (s : State) : ownPart i s ≠ .error .sequencePhase := by
  cases i with
  | nop | reset | clrerr | abort | setw | cntclr | segclr | seglo | seghi | bufclr => exact nofun
  | cnt | bufput | encstart | encsym | encflush | decstart =>
    simp only [ownPart, cntOwn, bufputOwn, encstartOwn, encsymOwn, encflushOwn, decstartOwn]
    split_ifs <;> exact nofun
  | build =>
    simp only [ownPart, buildOwn]
    split_ifs
    · exact nofun
    · exact nofun
    · split <;> exact nofun
  | decsym =>
    intro h
    obtain he | he := decsymOwn_error h <;> cases he

/-- Settles O11: outside its phases a command fails the check of the phase, and past that check it commits or raises an
error of its own, which is never `SEQUENCE`. -/
theorem commandsAreLegalInTheirPhasesOnly : Obligations.CommandsAreLegalInTheirPhasesOnly := by
  intro i s hwf
  have hr : operandInRange i = true := (wellFormed_eq_operandInRange i).symm.trans hwf
  rw [mem_phasesOf_iff, exec_eq_perform]
  refine ⟨fun hl => perform_outside_phase hr (Bool.eq_false_iff.2 hl), fun hl he t h hte => ?_⟩
  cases hown : ownPart i s with
  | ok u =>
    obtain rfl := Host.Outcome.next.inj ((perform_ok hr hl hown).symm.trans h)
    have hnone := commits_noError he (commits_of_ownPart hr hl hown)
    exact absurd (hnone.symm.trans hte) (by decide)
  | error e =>
    obtain rfl := Host.Outcome.next.inj ((perform_error hr hl hown).symm.trans h)
    obtain rfl := eq_sequencePhase_of_errBits hte
    exact ownPart_ne_sequencePhase i s hown

end Sys2Proof.Machine
end

section
/-! PROOFS. What an active session locks (70_reset_and_hazards.md R267): the commands that would write `W`, the counts or
the table are legal in `IDLE` alone, and the commands of a session only append to the buffer. -/

namespace Sys2Proof.Machine

variable {i : Instr} {s t : State}

/-- The stream of `t` begins with the stream of `s`. -/
def ExtendsStream (s t : State) : Prop :=
  s.bitlen.toNat ≤ t.bitlen.toNat ∧ ∀ a, a < s.bitlen.toNat → bitAt t a = bitAt s a

/-- A command that does not write the buffer leaves the stream. -/
theorem extendsStream_of_same_buffer (hbuf : t.buf = s.buf) (hlen : t.bitlen = s.bitlen) : ExtendsStream s t :=
  ⟨hlen ▸ Nat.le_refl _, fun a _ => congrFun (bitAt_congr hbuf hlen) a⟩

/-- Bits that fit are written past the stream, whether or not the cells there are in canonical form. -/
theorem extendsStream_appendBits {bits : BitString} (hfit : s.bitlen.toNat + bits.length ≤ Config.bufBits) :
    ExtendsStream s (appendBits bits s) := by
  have hlen := bitlen_appendBits hfit
  refine ⟨by omega, fun a ha => ?_⟩
  rw [bitAt_of_lt (by omega), bitAt_of_lt ha, cell_appendBits_outside (.inl ha)]

/-- `W`, the counts, `TOTAL` and the table of `t` are those of `s`, and its stream begins with that of `s`. -/
def KeepsConfiguration (s t : State) : Prop :=
  t.w = s.w ∧ t.cnt = s.cnt ∧ t.total = s.total ∧ t.seg = s.seg ∧ ExtendsStream s t

/-- In a session a command commits no configuration: those that write it need `IDLE`, and `ENCSYM` and `ENCFLUSH`, which
write the buffer, append to it. -/
theorem commits_keepsConfiguration (hp : s.phase ≠ .idle) (hne : i ≠ .reset) (h : Commits s i t) :
    KeepsConfiguration s t := by
  cases h with
  | reset => exact absurd rfl hne
  | setw idle | cntclr idle | cnt idle | build idle | segclr idle | seglo idle | seghi idle | bufclr idle
  | bufput idle | encstart idle | decstart idle => exact absurd idle hp
  | encsym _ _ _ _ room | encflush _ _ room => exact ⟨rfl, rfl, rfl, rfl, extendsStream_appendBits room⟩
  | nop | clrerr | abort | decsym => exact ⟨rfl, rfl, rfl, rfl, extendsStream_of_same_buffer rfl rfl⟩

/-- Settles O13: an error writes the error registers alone, and a commit keeps the configuration. -/
theorem sessionsLockTheConfiguration : Obligations.SessionsLockTheConfiguration := by
  intro i s t hp hne h
  obtain ⟨e, rfl⟩ | hc := exec_cases h
  · exact ⟨rfl, rfl, rfl, rfl, extendsStream_of_same_buffer rfl rfl⟩
  · exact commits_keepsConfiguration hp hne hc

end Sys2Proof.Machine
end
